-- ==== Sys2Proof/Word.lean ====
section
/-!
DEFINITION. The two word types of the block: a register is 32 bits (10_state.md R30), a wire byte is 8 bits (00_scope.md R12).
-/

namespace Sys2Proof

/-- A register of the window, or an operand: 32 bits (R30). -/
abbrev Word := BitVec 32

/-- One byte of the wire or of a byte buffer: 0 to 255 (R12). -/
abbrev Byte := BitVec 8

end Sys2Proof
end

