-- ==== Sys2Proof/Config.lean ====
section
/-!
DEFINITION. The parameters of 00_scope.md R10: what is fixed when a PYRB is built. The spec has a model take each of them as
an argument, over which a claim may quantify; here they are plain data that State carries and that no step changes (log
entry 1). The constraints on them are in WellFormed.lean.
-/

namespace Sys2Proof

/-- The five wire formats of a sensor value (30_encoding.md R115). -/
inductive Fmt where
  | u8
  | i8
  | u16
  | i16
  /-- BLOCK(L): a block of `len` bytes. -/
  | block (len : Nat)
  deriving DecidableEq, Repr

/-- A scalar descriptor (40_registry.md R160). Its width follows from its format (R115), so it is not held twice. -/
structure ScalarDesc where
  fmt : Fmt
  name : List Byte
  deriving DecidableEq, Repr

/-- A bulk descriptor (40_registry.md R161): a named, ordered list of scalar ids, already flattened. -/
structure BulkDesc where
  name : List Byte
  members : List Byte
  deriving DecidableEq, Repr

/-- WIRE_OPC (30_encoding.md R130) for every command but DRIVE, whose opcode the source fixes. -/
structure WireOpc where
  drivePwm : Byte
  motorsPwm : Byte
  displayAscii : Byte
  song : Byte
  leds : Byte
  motors : Byte
  buttons : Byte
  baud : Byte
  queryList : Byte
  deriving DecidableEq, Repr

/-- FLAG_POS (41_command_encoder.md R190): the list for a command holds POS(c, 0) to POS(c, k - 1). -/
structure FlagPos where
  leds : List (Fin 8)
  motors : List (Fin 8)
  buttons : List (Fin 8)
  deriving DecidableEq, Repr

/-- The four values of TRIG at one Q angle (43_pose_integrator.md R285), each an int32. -/
structure TrigPoint where
  sin : Word
  cos : Word
  sinc : Word
  versc : Word
  deriving DecidableEq, Repr

/-- The parameters (00_scope.md R10). `trig` lists the angles at which this PYRB's TRIG is given value by value; at every
other angle it is the default TRIG_RN (R286). A list of all 2^32 angles is any TRIG whatever (log entry 3). -/
structure Config where
  /-- BASE: the bus address of offset 0x000. -/
  base : Nat
  /-- SENSOR_TABLE: a partial map from wire id to scalar descriptor. -/
  sensors : List (Byte × ScalarDesc)
  /-- BULK_TABLE, indexed from 0. -/
  bulks : List BulkDesc
  wireOpc : WireOpc
  flagPos : FlagPos
  /-- BAUD_TABLE: a partial map from a rate (u32) to its code byte. -/
  baud : List (Word × Byte)
  /-- K_RAW: u32, 24 fractional bits. -/
  kRaw : Word
  /-- R_RAW: u32, 16 fractional bits. -/
  rRaw : Word
  trig : List (Word × TrigPoint)
  deriving DecidableEq, Repr

end Sys2Proof
end

