-- ==== Sys2Proof/Machine/Arith.lean ====
section
/-!
DEFINITION. The primitives of 00_scope.md R11 to R13: narrowing of unbounded integers, big-endian bytes, clamping, and the two
rounding divisions. Integer `/` here is by a positive divisor, where Lean's quotient is the floor.
-/

namespace Sys2Proof.Machine

/-- `clamp(v, lo, hi)` (R13). -/
def clamp (v lo hi : Int) : Int := min (max v lo) hi

/-- `RND(v, s)` for s ≥ 1: v / 2^s to the nearest integer, ties toward positive infinity (R13). -/
def rnd (v : Int) (s : Nat) : Int := (v + 2 ^ (s - 1)) / 2 ^ s

/-- `DIVR(n, d)` for d > 0: n / d to the nearest integer, ties toward positive infinity (R13). -/
def divr (n d : Int) : Int := (2 * n + d) / (2 * d)

/-- `WRAP32(v)` as the 32 bits of a register (R13). -/
def wrap32 (v : Int) : Word := BitVec.ofInt 32 v

/-- `FITS32(v)` (R13). -/
def fits32 (v : Int) : Bool := decide (-2147483648 ≤ v) && decide (v < 2147483648)

/-- `u8(v)`: v mod 256 as a byte (R11). -/
def u8 (v : Int) : Byte := BitVec.ofInt 8 v

/-- `be16(v)`: the low 16 bits of v, high byte first (R12). -/
def be16 (v : Int) : List Byte :=
  let low := BitVec.ofInt 16 v
  [low.extractLsb' 8 8, low.extractLsb' 0 8]

/-- The big-endian value of two bytes (30_encoding.md R116). -/
def fromBe16 (hi lo : Byte) : BitVec 16 := hi ++ lo

/-- `s[i..j)` of a byte sequence, by start and length (R12). -/
def slice (s : List Byte) (start len : Nat) : List Byte := (s.drop start).take len

/-- The sum of a byte sequence modulo 256 (R121). -/
def byteSum : List Byte → Byte
  | [] => 0
  | b :: bs => b + byteSum bs

end Sys2Proof.Machine
end

