-- ==== Sys2Proof/Machine/Descriptors.lean ====
section
/-!
DEFINITION. Wire formats of values (30_encoding.md R114 to R117), descriptor words and the lookups of the registry tables
(40_registry.md R160 to R163, R167).
-/

namespace Sys2Proof.Machine

/-- FMTCODE (R115, R167). -/
def fmtCode : Fmt → BitVec 3
  | .u8 => 0
  | .i8 => 1
  | .u16 => 2
  | .i16 => 3
  | .block _ => 4

/-- The width of a format in bytes (R115). -/
def fmtWidth : Fmt → Nat
  | .u8 | .i8 => 1
  | .u16 | .i16 => 2
  | .block len => len

/-- SENSOR_TABLE[id] (R160). -/
def sensorAt (c : Config) (id : Byte) : Option ScalarDesc := c.sensors.lookup id

/-- BULK_TABLE[b] (R161). -/
def bulkAt (c : Config) (b : Nat) : Option BulkDesc := c.bulks[b]?

/-- The scalar entry with this exact name (NAMEEQ, R167). -/
def sensorNamed (c : Config) (name : List Byte) : Option (Byte × ScalarDesc) :=
  c.sensors.find? fun e => decide (e.2.name = name)

/-- The index of the bulk entry with this exact name, and the entry. -/
def bulkNamed (c : Config) (name : List Byte) : Option (Nat × BulkDesc) :=
  match c.bulks.findIdx? fun b => decide (b.name = name) with
  | some b => (bulkAt c b).map fun d => (b, d)
  | none => none

/-- DESC_S(id, d), KIND = 0 (R114, R167). -/
def descScalar (id : Byte) (d : ScalarDesc) : Word :=
  (BitVec.ofNat 32 (fmtWidth d.fmt) <<< 16) ||| ((fmtCode d.fmt).setWidth 32 <<< 8) ||| id.setWidth 32

/-- DESC_B(b, bd), KIND = 1 (R114, R167). -/
def descBulk (b : Nat) (d : BulkDesc) : Word :=
  0x80000000 ||| (BitVec.ofNat 32 d.members.length <<< 16) ||| BitVec.ofNat 32 b

/-- A decoded sensor value: a number, or the bytes of a block (R116). -/
inductive Value where
  | num (x : Int)
  | bytes (v : List Byte)
  deriving DecidableEq, Repr

/-- VAL(fmt, v) (R116). Bytes that are not there read as 0; the parser passes exactly `width` bytes. -/
def valOf (f : Fmt) (v : List Byte) : Value :=
  match f with
  | .u8 => .num (v.getD 0 0).toNat
  | .i8 => .num (v.getD 0 0).toInt
  | .u16 => .num (fromBe16 (v.getD 0 0) (v.getD 1 0)).toNat
  | .i16 => .num (fromBe16 (v.getD 0 0) (v.getD 1 0)).toInt
  | .block _ => .bytes v

/-- ENCVAL(fmt, x) (R117). -/
def encVal (f : Fmt) (x : Value) : List Byte :=
  match f, x with
  | .u8, .num n => [u8 n]
  | .i8, .num n => [u8 n]
  | .u16, .num n => be16 n
  | .i16, .num n => be16 n
  | .block _, .bytes v => v
  | .block _, .num _ => []
  | .u8, .bytes _ => []
  | .i8, .bytes _ => []
  | .u16, .bytes _ => []
  | .i16, .bytes _ => []

/-- The values a format can carry (R117). -/
def inRange (f : Fmt) (x : Value) : Bool :=
  match f, x with
  | .u8, .num n => decide (0 ≤ n) && decide (n ≤ 255)
  | .i8, .num n => decide (-128 ≤ n) && decide (n ≤ 127)
  | .u16, .num n => decide (0 ≤ n) && decide (n ≤ 65535)
  | .i16, .num n => decide (-32768 ≤ n) && decide (n ≤ 32767)
  | .block len, .bytes v => decide (v.length = len)
  | .block _, .num _ => false
  | .u8, .bytes _ => false
  | .i8, .bytes _ => false
  | .u16, .bytes _ => false
  | .i16, .bytes _ => false

/-- WORD1(f, v): the 32 bits of a number, 0 for a block (30_encoding.md R126, 42_stream_decoder.md R237). -/
def word1Of (f : Fmt) (v : List Byte) : Word :=
  match valOf f v with
  | .num x => wrap32 x
  | .bytes _ => 0

/-- Word 0 of a frame entry: ID, FMT, WIDTH and OFF (R126, R237). -/
def word0Of (id : Byte) (f : Fmt) (off : Nat) : Word :=
  id.setWidth 32 ||| ((fmtCode f).setWidth 32 <<< 8) ||| (BitVec.ofNat 32 (fmtWidth f) <<< 16) |||
    (BitVec.ofNat 32 off <<< 24)

end Sys2Proof.Machine
end

