-- ==== Sys2Proof/Machine/DefaultConfig.lean ====
section
/-!
DEFINITION. The configuration State.reset carries: the test configuration TC of 95_test_vectors.md section 0, the one complete
set of parameters the spec writes out (log entry 2: DESIGN CHOICE). It holds the suggested defaults of 00_scope.md R10, which
come from general knowledge but for DRIVE = 137 and id 7 (93_implementation_defined.md I12 to I14; log entry 18: PRESUMED).
-/

namespace Sys2Proof.Machine

/-- The table TT of 95_test_vectors.md section 0. -/
def testSensors : List (Byte × ScalarDesc) :=
  [(7, ⟨.u8, [0x62, 0x75, 0x6D, 0x70, 0x5F, 0x77, 0x68, 0x65, 0x65, 0x6C, 0x5F, 0x64, 0x72, 0x6F, 0x70, 0x73]⟩),
   (19, ⟨.i16, [0x74, 0x65, 0x73, 0x74, 0x5F, 0x69, 0x31, 0x36]⟩),
   (22, ⟨.u16, [0x74, 0x65, 0x73, 0x74, 0x5F, 0x75, 0x31, 0x36]⟩),
   (24, ⟨.i8, [0x74, 0x65, 0x73, 0x74, 0x5F, 0x69, 0x38]⟩),
   (43, ⟨.u16, [0x65, 0x6E, 0x63, 0x5F, 0x6C, 0x65, 0x66, 0x74]⟩),
   (44, ⟨.u16, [0x65, 0x6E, 0x63, 0x5F, 0x72, 0x69, 0x67, 0x68, 0x74]⟩),
   (50, ⟨.block 3, [0x74, 0x65, 0x73, 0x74, 0x5F, 0x62, 0x6C, 0x6B]⟩)]

/-- BULK_TABLE of TC: "grp" and "encoders". -/
def testBulks : List BulkDesc :=
  [⟨[0x67, 0x72, 0x70], [7, 22]⟩,
   ⟨[0x65, 0x6E, 0x63, 0x6F, 0x64, 0x65, 0x72, 0x73], [43, 44]⟩]

/-- WIRE_OPC defaults (I12). -/
def defaultWireOpc : WireOpc :=
  { drivePwm := 146, motorsPwm := 144, displayAscii := 164, song := 140, leds := 139, motors := 138, buttons := 165,
    baud := 129, queryList := 149 }

/-- FLAG_POS defaults (I13): the identity, with k = 4, 5 and 8. -/
def defaultFlagPos : FlagPos :=
  { leds := [0, 1, 2, 3], motors := [0, 1, 2, 3, 4], buttons := [0, 1, 2, 3, 4, 5, 6, 7] }

/-- BAUD_TABLE defaults (I14). -/
def defaultBaud : List (Word × Byte) :=
  [(300, 0), (600, 1), (1200, 2), (2400, 3), (4800, 4), (9600, 5), (14400, 6), (19200, 7), (28800, 8), (38400, 9),
   (57600, 10), (115200, 11)]

/-- TC (95_test_vectors.md section 0): K = 1, R = 100, TRIG_RN. BASE is any there; 0 here. -/
def testConfig : Config :=
  { base := 0, sensors := testSensors, bulks := testBulks, wireOpc := defaultWireOpc, flagPos := defaultFlagPos,
    baud := defaultBaud, kRaw := 0x01000000, rRaw := 0x00640000, trig := [] }

end Sys2Proof.Machine
end

