-- ==== Sys2Proof/Syntax.lean ====
section
/-!
DEFINITION. The seventeen operations of 30_encoding.md R111 (spec/opcode_table.json), in the table's order. A CMD word has no
operand field (R110): operands are latched from ARG0 to ARG2 and ABUF at accept (20_memory.md R89), so no constructor has an
argument.
-/

namespace Sys2Proof

/-- An operation of PYRB (R111). -/
inductive Instr where
  | encDrive
  | encDrivePwm
  | encMotorsPwm
  | encDisplayAscii
  | encDefineSong
  | encLeds
  | encMotors
  | encButtons
  | encBaud
  | encQueryList
  | decDecode
  | regById
  | regByName
  | regBulkMember
  | dynNormalize
  | dynUpdate
  | dynReset
  deriving DecidableEq, Repr

end Sys2Proof
end

