-- ==== Sys2Proof/Machine/State.lean ====
section
/-!
DEFINITION. The state of the machine: the parameters, every register and buffer of 10_state.md, the transport's state of
20_memory.md R95, and the model's own schedule (which agent moves next, 00_scope.md R6; log entry 5). Its value after reset is
that of 70_reset_and_hazards.md R361.
-/

namespace Sys2Proof.Machine

/-- The error codes of STATUS.ECODE (60_exceptions.md R330); `none` is code 0, and codes 10 to 15 are never raised. -/
inductive ECode where
  | none
  | checksum
  | unknownSensor
  | malformedFrame
  | transport
  | config
  | arg
  | illegalOp
  | noPrior
  | zeroTime
  deriving DecidableEq, Repr

/-- The decoder's states (10_state.md R37); codes 5 to 7 are never held. -/
inductive DState where
  | idle
  | seek
  | len
  | body
  | validate
  deriving DecidableEq, Repr

/-- One entry of the frame table: two words (30_encoding.md R126). -/
structure Entry where
  word0 : Word
  word1 : Word
  deriving DecidableEq, Repr

/-- A transport error code: 1 to 255 (20_memory.md R95). Its meaning is opaque (93 I7). -/
structure TransportCode where
  val : Byte
  nonzero : val ≠ 0
  deriving DecidableEq, Repr

/-- What the HOST does next on its bus. An address is a bus address and `bytes` the access size (20_memory.md R81). -/
inductive HostAction where
  | read (addr bytes : Nat)
  | write (addr bytes : Nat) (v : Word)
  /-- WAIT: repeat a read of STATUS until BUSY = 0 (30_encoding.md R131). -/
  | wait
  deriving DecidableEq, Repr

/-- Which agent takes the next step (00_scope.md R6, 70_reset_and_hazards.md R360). -/
inductive Turn where
  /-- HOST performs the head of its actions. -/
  | host
  /-- PYRB takes the step that is enabled, if one is: a decoder step, or the handoff joint with the transport's accept-write. -/
  | pyrb
  /-- TRANSPORT arrive: one byte is appended to RXQ (20_memory.md R97). -/
  | arrive (b : Byte)
  /-- TRANSPORT error: TERR is set to any value, none included (20_memory.md R100). -/
  | error (c : Option TransportCode)
  /-- The platform asserts RST (70_reset_and_hazards.md R360). -/
  | rst
  deriving DecidableEq, Repr

/-- The fault marks a model keeps of the sticky flags (10_state.md R35): each says that its flag has been set at some point of the
run. -/
structure FaultMarks where
  ovr : Bool
  accerr : Bool
  ovf : Bool
  deriving DecidableEq, Repr

/-- Why the machine stops with a fault. -/
inductive Fault where
  /-- An accept or a host read reads an ABUF byte, at this window offset, that the host has not written since RST
  (10_state.md R46, 93 I3). Safe: the hardware goes on with some byte. -/
  | abufUnwritten (offset : Nat)
  /-- A host access at a bus address outside BASE to BASE + 0x7FF, which is not PYRB's (20_memory.md R80; log entry 12). Safe:
  PYRB does not see the access. -/
  | outsideWindow (addr : Nat)
  deriving DecidableEq, Repr

/-- Why the model has no meaning for a case. -/
inductive Refusal where
  /-- An operation that has no meaning in the model; raised by `exec`'s refused arms only. Safe. -/
  | notModelled (mnemonic : String)
  /-- The parameters break a constraint of 00_scope.md R10 or 40_registry.md R160 to R162 (93 I8, I9); raised by every step but
  an empty turn, and by every accept. Safe: the spec refuses such a configuration. -/
  | illFormedConfig
  deriving DecidableEq, Repr

/-- The machine. STATUS.BUSY is not a field: BUSY = 1 exactly when CUR ≠ none (10_state.md R55). -/
structure State where
  /-- The parameters (00_scope.md R10), which no step changes. -/
  cfg : Config
  /-- STATUS.OP (R32). -/
  op : Byte
  /-- STATUS.DONE (R32). -/
  done : Bool
  /-- STATUS.ERR (R32). -/
  err : Bool
  /-- STATUS.ECODE (R32). -/
  ecode : ECode
  /-- STATUS.OVR, sticky (R32, R35). -/
  ovr : Bool
  /-- STATUS.ACCERR, sticky (R32, R35). -/
  accerr : Bool
  /-- STATUS.OVF, sticky (R32, R35). -/
  ovf : Bool
  /-- The model's own: the fault marks (R35), which no step erases, RST included (log entry 20). -/
  marks : FaultMarks
  /-- CUR: the operation in flight (R55). -/
  cur : Option Instr
  /-- ARG0 to ARG2 (R38). -/
  arg0 : Word
  arg1 : Word
  arg2 : Word
  /-- RES0 to RES3 (R39). -/
  res0 : Word
  res1 : Word
  res2 : Word
  res3 : Word
  /-- ABUF (R46): the bytes written since RST, by window offset, offsets rising. An unlisted byte has no value. -/
  abuf : List Host.Cell
  /-- POSE_X, POSE_Y (R40) and POSE_TH (R41). -/
  poseX : Word
  poseY : Word
  poseTh : Word
  /-- PRIOR_L, PRIOR_R, PRIOR_VALID (R52). -/
  priorL : BitVec 16
  priorR : BitVec 16
  priorValid : Bool
  /-- DSTATE, N, CNT, SUM, BODY and ENTRY (R53). -/
  dstate : DState
  n : BitVec 8
  cnt : BitVec 9
  sum : Byte
  body : Vector Byte 256
  entry : Vector Entry 127
  /-- FRAME_INFO's VALID, LEN, COUNT and JUNK (R44). -/
  valid : Bool
  len : BitVec 8
  count : BitVec 7
  junk : BitVec 16
  /-- NAMELEN and NAME (R45). -/
  nameLen : BitVec 6
  name : Vector Byte 32
  /-- TXPEND (R54). -/
  txpend : Option (List Byte)
  /-- RXQ, TERR and TXOUT of the transport (20_memory.md R95). -/
  rxq : List Byte
  terr : Option TransportCode
  txout : List Byte
  /-- The model's own (log entries 5, 11): the HOST's actions still to do, what its reads returned (address and value, newest
  first), and the turns still to come. -/
  todo : List HostAction
  reads : List (Nat × Word)
  turns : List Turn
  deriving DecidableEq, Repr

/-- The machine right after RST (R361), with the configuration of log entry 2, an empty transport (log entry 10), no fault mark set
yet (log entry 20), and no host action and no turn scheduled (log entry 11). BODY, ENTRY and NAME are unspecified and not visible
(log entry 9). -/
def State.reset : State where
  cfg := testConfig
  op := 0
  done := false
  err := false
  ecode := .none
  ovr := false
  accerr := false
  ovf := false
  marks := ⟨false, false, false⟩
  cur := none
  arg0 := 0
  arg1 := 0
  arg2 := 0
  res0 := 0
  res1 := 0
  res2 := 0
  res3 := 0
  abuf := []
  poseX := 0
  poseY := 0
  poseTh := 0
  priorL := 0
  priorR := 0
  priorValid := false
  dstate := .idle
  n := 0
  cnt := 0
  sum := 0
  body := Vector.replicate 256 0
  entry := Vector.replicate 127 ⟨0, 0⟩
  valid := false
  len := 0
  count := 0
  junk := 0
  nameLen := 0
  name := Vector.replicate 32 0
  txpend := none
  rxq := []
  terr := none
  txout := []
  todo := []
  reads := []
  turns := []

end Sys2Proof.Machine
end

