-- ==== Sys2Proof/Machine/Flags.lean ====
section
/-!
DEFINITION. The status bits (10_state.md R32 to R37, R55): their codes, the words STATUS, FRAME_INFO and PRIOR assembled from
them, and how each sticky flag is set and cleared. PYRB has no other flag (R59).
-/

namespace Sys2Proof.Machine

/-- The code of STATUS.ECODE (60_exceptions.md R330). -/
def ecodeBits : ECode → BitVec 4
  | .none => 0
  | .checksum => 1
  | .unknownSensor => 2
  | .malformedFrame => 3
  | .transport => 4
  | .config => 5
  | .arg => 6
  | .illegalOp => 7
  | .noPrior => 8
  | .zeroTime => 9

/-- The code of STATUS.DSTATE (R37). -/
def dstateBits : DState → BitVec 3
  | .idle => 0
  | .seek => 1
  | .len => 2
  | .body => 3
  | .validate => 4

namespace State

/-- STATUS.BUSY: 1 exactly when CUR ≠ none (R33, R55). -/
def busy (s : State) : Bool := s.cur.isSome

/-- STATUS as one word, from bit 31 down (R32). -/
def statusWord (s : State) : Word :=
  s.op ++ (0 : BitVec 5) ++ dstateBits s.dstate ++ (0 : BitVec 4) ++ BitVec.ofBool s.priorValid ++ BitVec.ofBool s.ovf ++
    BitVec.ofBool s.accerr ++ BitVec.ofBool s.ovr ++ ecodeBits s.ecode ++ (0 : BitVec 1) ++ BitVec.ofBool s.err ++
    BitVec.ofBool s.done ++ BitVec.ofBool s.busy

/-- FRAME_INFO as one word, from bit 31 down (R44). -/
def frameInfoWord (s : State) : Word := s.junk ++ BitVec.ofBool s.valid ++ s.count ++ s.len

/-- PRIOR as one word (R43). -/
def priorWord (s : State) : Word := s.priorR ++ s.priorL

/-- A host write of STATUS clears each sticky bit written as 1 and changes nothing else (R32, R35). The
fault marks stay. -/
def clearSticky (s : State) (v : Word) : State :=
  { s with
    ovr := s.ovr && !v.getLsbD 8
    accerr := s.accerr && !v.getLsbD 9
    ovf := s.ovf && !v.getLsbD 10 }

/-- A CMD write while BUSY = 1: the sticky OVR and its mark, and nothing else (60_exceptions.md R337). -/
def dropCommand (s : State) : State := { s with ovr := true, marks := { s.marks with ovr := true } }

/-- A refused host access: the sticky ACCERR and its mark, and nothing else (20_memory.md R81, 60_exceptions.md R341). -/
def refuseAccess (s : State) : State := { s with accerr := true, marks := { s.marks with accerr := true } }

/-- A pose result that does not fit sets the sticky OVF and its mark (43_pose_integrator.md R295). -/
def noteOverflow (s : State) (overflow : Bool) : State :=
  { s with ovf := s.ovf || overflow, marks := { s.marks with ovf := s.marks.ovf || overflow } }

end State

end Sys2Proof.Machine
end

