-- ==== Sys2Proof/WellFormed.lean ====
section
/-!
DEFINITION. What is well formed. An operation has no field, so every operation is. A configuration has to meet the constraints
of 00_scope.md R10 and 40_registry.md R160 to R162; the machine refuses one that does not (93_implementation_defined.md I8, I9;
log entry 13).
-/

namespace Sys2Proof

/-- An operation is selected by its OP value alone (R110): there is no field to constrain. -/
def Instr.wf (_ : Instr) : Bool := true

/-- A name is a byte string of 1 to NAME_MAX = 32 bytes (R160, R161). -/
def nameOk (name : List Byte) : Bool :=
  decide (1 ≤ name.length) && decide (name.length ≤ 32)

/-- A BLOCK length is 1 to 254 (R115, R160). -/
def fmtOk : Fmt → Bool
  | .block len => decide (1 ≤ len) && decide (len ≤ 254)
  | .u8 | .i8 | .u16 | .i16 => true

namespace Config

/-- BASE is 2048-byte aligned (R10). -/
def baseOk (c : Config) : Bool := decide (c.base % 2048 = 0)

/-- Each id has at most one descriptor (R160). -/
def idsUnique (c : Config) : Bool := decide (c.sensors.map Prod.fst).Nodup

/-- Every scalar descriptor has a legal format and a legal name (R160). -/
def sensorsOk (c : Config) : Bool := c.sensors.all fun e => fmtOk e.2.fmt && nameOk e.2.name

/-- No two descriptors, scalar or bulk, share a name (R160, R161). -/
def namesUnique (c : Config) : Bool :=
  decide ((c.sensors.map fun e => e.2.name) ++ c.bulks.map BulkDesc.name).Nodup

/-- At most 256 bulk descriptors (R161). -/
def bulkCountOk (c : Config) : Bool := decide (c.bulks.length ≤ 256)

/-- A bulk descriptor has a legal name and 1 to 255 members, each with a scalar descriptor (R161). -/
def bulksOk (c : Config) : Bool :=
  c.bulks.all fun b =>
    nameOk b.name && decide (1 ≤ b.members.length) && decide (b.members.length ≤ 255) &&
      b.members.all fun id => (c.sensors.lookup id).isSome

/-- The bytes of the name "bump_wheel_drops" (R162). -/
def bumpName : List Byte :=
  [0x62, 0x75, 0x6D, 0x70, 0x5F, 0x77, 0x68, 0x65, 0x65, 0x6C, 0x5F, 0x64, 0x72, 0x6F, 0x70, 0x73]

/-- The one entry the source fixes: id 7 is (u8, 1, "bump_wheel_drops") (R162). -/
def sensorSevenOk (c : Config) : Bool := decide (c.sensors.lookup 7 = some ⟨.u8, bumpName⟩)

/-- The bit positions of each bit-flag command are distinct (R10, R190). -/
def flagPosOk (c : Config) : Bool :=
  decide c.flagPos.leds.Nodup && decide c.flagPos.motors.Nodup && decide c.flagPos.buttons.Nodup

/-- BAUD_TABLE is a map, injective on rates: no rate twice, and no code twice (R10; log entry 13). -/
def baudOk (c : Config) : Bool :=
  decide (c.baud.map Prod.fst).Nodup && decide (c.baud.map Prod.snd).Nodup

/-- 1 ≤ R_RAW ≤ 2^31 - 1 (R10). -/
def rRawOk (c : Config) : Bool := decide (1 ≤ c.rRaw.toNat) && decide (c.rRaw.toNat ≤ 2147483647)

/-- Each angle is listed once, and a listed angle 0 has the exact values of R285. -/
def trigOk (c : Config) : Bool :=
  decide (c.trig.map Prod.fst).Nodup &&
    (match c.trig.lookup 0 with
     | none => true
     | some p => decide (p = ⟨0, 65536, 65536, 0⟩))

/-- The constraints of R10, R160, R161 and R162 all hold. -/
def wf (c : Config) : Bool :=
  c.baseOk && c.idsUnique && c.sensorsOk && c.namesUnique && c.bulkCountOk && c.bulksOk && c.sensorSevenOk &&
    c.flagPosOk && c.baudOk && c.rRawOk && c.trigOk

end Config

end Sys2Proof
end

