-- ==== Sys2Proof/Decode.lean ====
section
/-!
DEFINITION. The CMD word (30_encoding.md R110 to R112): its decoder, total on any bytes and rejecting by name, and after it
the encoder, written from the same operation map.
-/

namespace Sys2Proof

/-- Why bytes are no operation. -/
inductive DecodeError where
  /-- Fewer than four bytes: PYRB has no other instruction length (R110). -/
  | truncated
  /-- RSV, bits 31:8, is not 0 (R112). -/
  | reservedNonzero
  /-- OP is one of the unassigned values of R112. -/
  | unassignedOp (op : Byte)
  deriving DecidableEq, Repr

/-- CMD.OP, bits 7:0 (R110). -/
def cmdOp (w : Word) : Byte := w.extractLsb' 0 8

/-- CMD.RSV, bits 31:8 (R110). -/
def cmdRsv (w : Word) : BitVec 24 := w.extractLsb' 8 24

/-- The operation map (R111), row by row. -/
def opTable : List (Byte × Instr) :=
  [(0x01, .encDrive), (0x02, .encDrivePwm), (0x03, .encMotorsPwm), (0x04, .encDisplayAscii),
   (0x05, .encDefineSong), (0x06, .encLeds), (0x07, .encMotors), (0x08, .encButtons),
   (0x09, .encBaud), (0x0A, .encQueryList), (0x10, .decDecode), (0x20, .regById),
   (0x21, .regByName), (0x22, .regBulkMember), (0x30, .dynNormalize), (0x31, .dynUpdate),
   (0x32, .dynReset)]

/-- The operation a CMD word selects. RSV is checked first, then OP alone decides (R110, R112). -/
def decodeWord (w : Word) : Except DecodeError Instr :=
  if cmdRsv w = 0 then
    match opTable.lookup (cmdOp w) with
    | some i => .ok i
    | none => .error (.unassignedOp (cmdOp w))
  else .error .reservedNonzero

/-- A word from the four bytes of its lanes, byte 0 in bits 7:0 (20_memory.md R85). -/
def wordOfLanes (b0 b1 b2 b3 : Byte) : Word := b3 ++ b2 ++ b1 ++ b0

/-- Byte lane k of a word, for k = 0 to 3 (R85). -/
def laneOf (w : Word) (k : Nat) : Byte := w.extractLsb' (8 * k) 8

/-- The operation at the head of a byte list, and the bytes after it. The lanes of a CMD word lie in the order of R85 (log
entry 7). -/
def decode : List Byte → Except DecodeError (Instr × List Byte)
  | b0 :: b1 :: b2 :: b3 :: rest =>
    match decodeWord (wordOfLanes b0 b1 b2 b3) with
    | .ok i => .ok (i, rest)
    | .error e => .error e
  | _ => .error .truncated

/-- The OP value of an operation (R111). -/
def opcode : Instr → Byte
  | .encDrive => 0x01
  | .encDrivePwm => 0x02
  | .encMotorsPwm => 0x03
  | .encDisplayAscii => 0x04
  | .encDefineSong => 0x05
  | .encLeds => 0x06
  | .encMotors => 0x07
  | .encButtons => 0x08
  | .encBaud => 0x09
  | .encQueryList => 0x0A
  | .decDecode => 0x10
  | .regById => 0x20
  | .regByName => 0x21
  | .regBulkMember => 0x22
  | .dynNormalize => 0x30
  | .dynUpdate => 0x31
  | .dynReset => 0x32

/-- The CMD word of an operation: OP in bits 7:0, RSV = 0 (R110). -/
def encodeWord (i : Instr) : Word := (0 : BitVec 24) ++ opcode i

/-- The four bytes of an operation's CMD word, in the lane order of R85. -/
def encode (i : Instr) : List Byte :=
  [laneOf (encodeWord i) 0, laneOf (encodeWord i) 1, laneOf (encodeWord i) 2, laneOf (encodeWord i) 3]

/-- The word that the low `nbits` bits of `w` are, the bits above them 0. -/
def tableWord (nbits w : Nat) : Word := BitVec.ofNat 32 (w % 2 ^ nbits)

/-- The operation the decoder reads from a word numbered as spec/opcode_table.json numbers it, laid out in the lane order of
R85. -/
def decodeTableWord (nbits w : Nat) : Option Instr :=
  let cmd := tableWord nbits w
  match decode [laneOf cmd 0, laneOf cmd 1, laneOf cmd 2, laneOf cmd 3] with
  | .ok (i, _) => some i
  | .error _ => none

end Sys2Proof
end

