-- ==== Sys2Proof/Machine/Memory.lean ====
section
/-!
DEFINITION. The only memory of PYRB, ABUF (10_state.md R46), as cells of the register window (20_memory.md R80, R85): window
offsets 0x100 to 0x2FF, offsets strictly rising. A byte not written since RST is not listed and has no value (93 I3; log
entry 8).
-/

namespace Sys2Proof.Machine

/-- The window offset of ABUF byte i (R46, R85). -/
def abufOffset (i : Nat) : Nat := 0x100 + i

namespace Memory

/-- The offsets of a list rise strictly, from `lo` up. -/
def rising : Nat → List Host.Cell → Bool
  | _, [] => true
  | lo, (k, _) :: m => decide (lo ≤ k) && rising (k + 1) m

/-- The canonical form: offsets strictly rising, all inside ABUF. No listed byte can equal what an unlisted one reads as, since
an unlisted byte has no value. -/
def wf (m : List Host.Cell) : Bool := rising 0x100 m && m.all fun c => decide (c.1 < 0x300)

/-- The byte at a window offset, if it has been written since RST. -/
def read : List Host.Cell → Nat → Option Byte
  | [], _ => none
  | (k, v) :: m, a => if a = k then some v else read m a

/-- Store one byte, keeping the canonical form. -/
def write : List Host.Cell → Nat → Byte → List Host.Cell
  | [], a, b => [(a, b)]
  | (k, v) :: m, a, b =>
    if a < k then (a, b) :: (k, v) :: m
    else if a = k then (a, b) :: m
    else (k, v) :: write m a b

/-- Store the four byte lanes of a word (R85). -/
def writeWord (m : List Host.Cell) (a : Nat) (w : Word) : List Host.Cell :=
  write (write (write (write m a (laneOf w 0)) (a + 1) (laneOf w 1)) (a + 2) (laneOf w 2)) (a + 3) (laneOf w 3)

/-- `count` bytes from a window offset up, or the fault of the first one that is not written (R46). -/
def readBytes (m : List Host.Cell) (a : Nat) : Nat → Except Fault (List Byte)
  | 0 => .ok []
  | count + 1 =>
    match read m a with
    | none => .error (.abufUnwritten a)
    | some b =>
      match readBytes m (a + 1) count with
      | .ok bs => .ok (b :: bs)
      | .error f => .error f

/-- A word from its four byte lanes (R85). -/
def readWord (m : List Host.Cell) (a : Nat) : Except Fault Word :=
  match readBytes m a 4 with
  | .ok [b0, b1, b2, b3] => .ok (wordOfLanes b0 b1 b2 b3)
  | .ok _ => .ok 0
  | .error f => .error f

end Memory

end Sys2Proof.Machine
end

