-- ==== Sys2Proof/Machine/Operands.lean ====
section
/-!
DEFINITION. The operand forms of 30_encoding.md R113: how a register or a range of ABUF is read as an operand, at accept
(20_memory.md R89).
-/

namespace Sys2Proof.Machine

/-- "int32", and "Q" as a raw integer: sext_32 of the register (R113, 00_scope.md R15). -/
def int32 (w : Word) : Int := w.toInt

/-- "u32": zext_32 of the register (R113). -/
def u32 (w : Word) : Nat := w.toNat

/-- Bits 7:0 of a register: an id, a song number, a flags byte (R113). -/
def lowByte (w : Word) : Byte := w.extractLsb' 0 8

/-- Bits 15:0 of a register: a raw encoder counter (R113). -/
def lowHalf (w : Word) : BitVec 16 := w.extractLsb' 0 16

/-- `ABUF[start .. start + len)`, or the fault of the first unwritten byte (R113, 10_state.md R46). -/
def abufBytes (s : State) (start len : Nat) : Except Fault (List Byte) :=
  Memory.readBytes s.abuf (abufOffset start) len

/-- A byte list as query references (k, x), two bytes each (30_encoding.md R129). -/
def pairUp : List Byte → List (Byte × Byte)
  | k :: x :: rest => (k, x) :: pairUp rest
  | _ => []

end Sys2Proof.Machine
end

