-- ==== Sys2Proof/Machine/Trig.lean ====
section
/-!
DEFINITION. The trigonometric datapath (43_pose_integrator.md R285, R286). A configuration lists the angles at which its TRIG is
given value by value; at every other angle the value is that of TRIG_RN, the spec's default, computed here with 192 fractional
bits (log entries 3 and 4).
-/

namespace Sys2Proof.Machine

/-- A point of the plane, each coordinate an integer that stands for itself / 2^192. -/
structure Rot where
  re : Int
  im : Int
  deriving DecidableEq, Repr

/-- Fractional bits of the computation of TRIG_RN. -/
def trigBits : Nat := 192

/-- The partial sum of x^k / k! over k = start, start + 2, … (n terms, signs alternating) at x = 2^-16. -/
def unitSeries (start : Nat) : Nat → Int
  | 0 => 0
  | n + 1 =>
    unitSeries start n +
      (-1) ^ n * (((2 ^ trigBits / 2 ^ (16 * (start + 2 * n)) / Nat.factorial (start + 2 * n) : Nat) : Nat) : Int)

/-- The rotation by one ulp of angle, 2^-16 radian. -/
def Rot.unit : Rot := ⟨unitSeries 0 7, unitSeries 1 7⟩

/-- The product of two points as complex numbers. -/
def Rot.mul (a b : Rot) : Rot :=
  ⟨(a.re * b.re - a.im * b.im) / 2 ^ trigBits, (a.re * b.im + a.im * b.re) / 2 ^ trigBits⟩

/-- The `k`-th power of a rotation, by squaring, for k < 2^fuel. -/
def Rot.pow : Nat → Nat → Rot → Rot
  | 0, _, _ => ⟨2 ^ trigBits, 0⟩
  | fuel + 1, k, z =>
    let half := Rot.pow fuel (k / 2) (z.mul z)
    if k % 2 = 1 then z.mul half else half

/-- The rotation by |q| ulps of angle. -/
def rotOf (q : Int) : Rot := Rot.pow 32 q.natAbs Rot.unit

/-- TRIG_RN's sine: floor(2^16 sin(q / 2^16) + 1/2) (R286). -/
def sinRn (q : Int) : Int :=
  rnd (if q < 0 then -(rotOf q).im else (rotOf q).im) (trigBits - 16)

/-- TRIG_RN's cosine (R286). -/
def cosRn (q : Int) : Int := rnd (rotOf q).re (trigBits - 16)

/-- TRIG_RN's sin x / x, 65536 at 0 (R285, R286). -/
def sincRn (q : Int) : Int :=
  if q = 0 then 65536 else divr ((rotOf q).im * 2 ^ 32) (q.natAbs * 2 ^ trigBits)

/-- TRIG_RN's (1 - cos x) / x, 0 at 0 (R285, R286). -/
def verscRn (q : Int) : Int :=
  if q = 0 then 0
  else
    let oneMinusCos := 2 ^ trigBits - (rotOf q).re
    divr ((if q < 0 then -oneMinusCos else oneMinusCos) * 2 ^ 32) (q.natAbs * 2 ^ trigBits)

/-- FX_SIN (R285). -/
def fxSin (c : Config) (q : Word) : Int :=
  match c.trig.lookup q with
  | some p => p.sin.toInt
  | none => sinRn q.toInt

/-- FX_COS (R285). -/
def fxCos (c : Config) (q : Word) : Int :=
  match c.trig.lookup q with
  | some p => p.cos.toInt
  | none => cosRn q.toInt

/-- FX_SINC (R285). -/
def fxSinc (c : Config) (q : Word) : Int :=
  match c.trig.lookup q with
  | some p => p.sinc.toInt
  | none => sincRn q.toInt

/-- FX_VERSC (R285). -/
def fxVersc (c : Config) (q : Word) : Int :=
  match c.trig.lookup q with
  | some p => p.versc.toInt
  | none => verscRn q.toInt

end Sys2Proof.Machine
end

