-- ==== Sys2Proof/Machine/Ops.lean ====
section
/-!
DEFINITION. The shared operations: accepting an operation, its two completions (the analogue of taking an exception is the
failure completion, 60_exceptions.md R332; there is no return from it, R339), and the named updates of the registers.
-/

namespace Sys2Proof.Machine

/-- The outcome of a step of this machine. -/
abbrev Result := Host.Outcome State Fault Refusal

/-- An error of an operation with its two info values (00_scope.md R14). -/
structure OpError where
  code : ECode
  info0 : Nat
  info1 : Nat
  deriving DecidableEq, Repr

namespace State

/-- The accept of an operation: DONE, ERR and ECODE are cleared and OP is the command's (10_state.md R34). -/
def acceptMark (s : State) (op : Byte) : State :=
  { s with op := op, done := false, err := false, ecode := .none }

/-- `complete()` (60_exceptions.md R331). BUSY falls with CUR (10_state.md R55). -/
def complete (s : State) : State :=
  { s with done := true, err := false, ecode := .none, cur := none }

/-- `raise E(info0, info1)` (60_exceptions.md R332): the info in RES0 and RES1 modulo 2^32, the error in STATUS, and nothing
left in flight. -/
def raise (s : State) (e : ECode) (info0 info1 : Nat) : State :=
  { s with
    res0 := BitVec.ofNat 32 info0
    res1 := BitVec.ofNat 32 info1
    done := true
    err := true
    ecode := e
    cur := none
    dstate := .idle
    txpend := none }

/-- `raise` of an error value. -/
def raiseError (s : State) (e : OpError) : State := s.raise e.code e.info0 e.info1

/-- The end of an encoder's accept: the sequence is pending and the operation is in flight (41_command_encoder.md R180). -/
def launch (s : State) (i : Instr) (seq : List Byte) : State :=
  { s with txpend := some seq, cur := some i }

/-- The accept step of DEC_DECODE (42_stream_decoder.md R231). -/
def beginDecode (s : State) : State :=
  { s with valid := false, len := 0, count := 0, junk := 0, dstate := .seek, cur := some .decDecode }

/-- `NAMELEN <- 0` (40_registry.md R164, R165). -/
def clearName (s : State) : State := { s with nameLen := 0 }

/-- `NAME[0..L) <- bytes ; NAMELEN <- L`; the bytes of NAME past L keep their values (R164, R165). -/
def setName (s : State) (bytes : List Byte) : State :=
  { s with
    nameLen := BitVec.ofNat 6 bytes.length
    name := Vector.ofFn fun i : Fin 32 => bytes.getD i.val s.name[i] }

/-- `RES0 <- a ; RES1 <- b`. -/
def setRes01 (s : State) (a b : Word) : State := { s with res0 := a, res1 := b }

/-- The prior encoder sample (43_pose_integrator.md R287). -/
def loadPrior (s : State) (l r : BitVec 16) : State :=
  { s with priorL := l, priorR := r, priorValid := true }

/-- The pose registers (10_state.md R40, R41). -/
def setPose (s : State) (x y th : Word) : State := { s with poseX := x, poseY := y, poseTh := th }

end State

/-- What a CMD write with this OP does (60_exceptions.md R342, first row): a configuration the spec refuses is refused; a
write while BUSY = 1 is dropped; otherwise the operation is accepted and `k` goes on from there. -/
def acceptOp (op : Byte) (s : State) (k : State → Result) : Result :=
  if s.cfg.wf then
    if s.busy then .next s.dropCommand else k (s.acceptMark op)
  else .refused .illFormedConfig

/-- The accept of operation i. -/
def accept (i : Instr) (s : State) (k : State → Result) : Result := acceptOp (opcode i) s k

/-- Go on with operand bytes, or stop with the fault of reading them. -/
def withBytes (r : Except Fault (List Byte)) (k : List Byte → Result) : Result :=
  match r with
  | .ok bytes => k bytes
  | .error f => .fault f

/-- The end of an encoder's accept: the sequence is launched, or the error is raised at once (R180). -/
def launchOrRaise (i : Instr) (s : State) (r : Except OpError (List Byte)) : State :=
  match r with
  | .ok seq => s.launch i seq
  | .error e => s.raiseError e

end Sys2Proof.Machine
end

