-- ==== Sys2Proof/Machine/Decoder.lean ====
section
/-!
DEFINITION. The stream decoder (42_stream_decoder.md): the accept of DEC_DECODE, the byte steps, and the VALIDATE step with its
parser.
-/

namespace Sys2Proof.Machine

/-- MAGIC (00_scope.md R9). -/
def magic : Byte := 19

/-- DEC_DECODE, OP 0x10 (R231): the accept step. The decoder steps below complete it. -/
def execDecDecode (s : State) : Result :=
  accept .decDecode s fun s => .next s.beginDecode

/-- A step that reads one byte (20_memory.md R96): a buffered byte is used whatever TERR holds; with none buffered, a transport
error ends the decode (R241); with neither, PYRB holds. -/
def byteStep (s : State) (k : State → Byte → State) : State :=
  match s.rxq with
  | b :: rest => k { s with rxq := rest } b
  | [] =>
    match s.terr with
    | some c => s.raise .transport c.val.toNat (dstateBits s.dstate).toNat
    | none => s

/-- `min(JUNK + 1, 65535)` (R232). -/
def nextJunk (j : BitVec 16) : BitVec 16 := if j = 65535 then 65535 else j + 1

/-- The SEEK step on its byte (R232). -/
def seekByte (s : State) (b : Byte) : State :=
  if b = magic then { s with sum := magic, dstate := .len } else { s with junk := nextJunk s.junk }

/-- The LEN step on its byte (R233). -/
def lenByte (s : State) (b : Byte) : State :=
  { s with n := b, sum := s.sum + b, cnt := 0, dstate := .body }

/-- The BODY step on its byte (R234). -/
def bodyByte (s : State) (b : Byte) : State :=
  { s with
    body := s.body.setIfInBounds s.cnt.toNat b
    sum := s.sum + b
    cnt := s.cnt + 1
    dstate := if s.cnt.toNat + 1 = s.n.toNat + 1 then .validate else .body }

/-- How the parse of a payload ends. -/
inductive Verdict where
  /-- The payload parsed exactly, into this many entries (R237). -/
  | parsed (count : Nat)
  /-- UNKNOWN_SENSOR(id, c) (R238). -/
  | unknown (id : Byte) (cursor : Nat)
  /-- MALFORMED_FRAME(id, c) (R239). -/
  | malformed (id : Byte) (cursor : Nat)
  deriving DecidableEq, Repr

/-- The loop of R237 at cursor c with e entries stored. A pass moves the cursor on by at least one, so 256 passes end every
payload. The entry table comes back as the loop left it, also on a failure. -/
def parseLoop (cfg : Config) (body : List Byte) (n : Nat) :
    Nat → Nat → Nat → Vector Entry 127 → Vector Entry 127 × Verdict
  | 0, _, e, table => (table, .parsed e)
  | fuel + 1, c, e, table =>
    if c < n then
      let id := body.getD c 0
      match sensorAt cfg id with
      | none => (table, .unknown id c)
      | some d =>
        let w := fmtWidth d.fmt
        if n < c + 1 + w then (table, .malformed id c)
        else
          let entry : Entry := ⟨word0Of id d.fmt (c + 1), word1Of d.fmt (slice body (c + 1) w)⟩
          parseLoop cfg body n fuel (c + 1 + w) (e + 1) (table.setIfInBounds e entry)
    else (table, .parsed e)

/-- The parse of the N payload bytes of BODY (R237). -/
def parseFrame (s : State) : Vector Entry 127 × Verdict :=
  parseLoop s.cfg s.body.toList s.n.toNat 256 0 0 s.entry

/-- The end of a parse (R237 to R239). -/
def finishParse (s : State) (p : Vector Entry 127 × Verdict) : State :=
  match p.2 with
  | .unknown id c => { s with entry := p.1 }.raise .unknownSensor id.toNat c
  | .malformed id c => { s with entry := p.1 }.raise .malformedFrame id.toNat c
  | .parsed e =>
    { s with
      entry := p.1
      valid := true
      len := s.n
      count := BitVec.ofNat 7 e
      dstate := .idle
      res0 := BitVec.ofNat 32 e
      res1 := s.n.setWidth 32 }.complete

/-- The VALIDATE step (R235): a nonzero sum flushes the transport's unread input and fails (R236, 20_memory.md R98); a zero sum
parses. -/
def validateStep (s : State) : State :=
  if s.sum ≠ 0 then { s with rxq := [] }.raise .checksum s.sum.toNat s.n.toNat
  else finishParse s (parseFrame s)

end Sys2Proof.Machine
end

