-- ==== Sys2Proof/Machine/Registry.lean ====
section
/-!
DEFINITION. The sensor registry's operations and EXPAND (40_registry.md R164 to R166, R169). Each is accepted and completed in
one step.
-/

namespace Sys2Proof.Machine

/-- REG_BY_ID (R164). -/
def lookupById (s : State) (id : Byte) : State :=
  match sensorAt s.cfg id with
  | none => s.clearName.raise .unknownSensor id.toNat 0
  | some d => ((s.setRes01 (descScalar id d) (BitVec.ofNat 32 d.name.length)).setName d.name).complete

/-- The descriptor word of the entry with this exact name, scalar entries first (R165). -/
def descriptorNamed (c : Config) (name : List Byte) : Option Word :=
  match sensorNamed c name with
  | some (id, d) => some (descScalar id d)
  | none => (bulkNamed c name).map fun (b, d) => descBulk b d

/-- REG_BY_NAME once the name has been read (R165). -/
def lookupByName (s : State) (name : List Byte) : State :=
  match descriptorNamed s.cfg name with
  | none => s.clearName.raise .unknownSensor 0xFFFFFFFF name.length
  | some w => ((s.setRes01 w (BitVec.ofNat 32 name.length)).setName name).complete

/-- REG_BULK_MEMBER (R166). A member without a descriptor breaks R161, so it cannot occur in an accepted configuration. -/
def lookupMember (s : State) (b p : Nat) : Result :=
  match bulkAt s.cfg b with
  | none => .next (s.raise .unknownSensor b p)
  | some bd =>
    match bd.members[p]? with
    | none => .next (s.raise .arg p bd.members.length)
    | some id =>
      match sensorAt s.cfg id with
      | none => .refused .illFormedConfig
      | some d => .next (s.setRes01 (descScalar id d) (BitVec.ofNat 32 p)).complete

/-- REG_BY_ID, OP 0x20 (R164). -/
def execRegById (s : State) : Result :=
  accept .regById s fun s => .next (lookupById s (lowByte s.arg0))

/-- REG_BY_NAME, OP 0x21 (R165): the length is checked before any ABUF byte is read. -/
def execRegByName (s : State) : Result :=
  accept .regByName s fun s =>
    if u32 s.arg0 < 1 || 32 < u32 s.arg0 then .next (s.clearName.raise .arg (u32 s.arg0) 0)
    else withBytes (abufBytes s 0 (u32 s.arg0)) fun name => .next (lookupByName s name)

/-- REG_BULK_MEMBER, OP 0x22 (R166). -/
def execRegBulkMember (s : State) : Result :=
  accept .regBulkMember s fun s => lookupMember s (u32 s.arg0) (u32 s.arg1)

/-- What one query reference expands to: its ids, or its error (R169, 30_encoding.md R129). `i` is its index. -/
def expandRef (c : Config) (i : Nat) (k x : Byte) : Except OpError (List Byte) :=
  if k = 0 then
    match sensorAt c x with
    | none => .error ⟨.unknownSensor, x.toNat, i⟩
    | some _ => .ok [x]
  else if k = 1 then
    match bulkAt c x.toNat with
    | none => .error ⟨.unknownSensor, 0x100 ||| x.toNat, i⟩
    | some bd => .ok bd.members
  else .error ⟨.arg, k.toNat, i⟩

/-- EXPAND from reference index i on: the expansions in order, or the error of the first failing reference (R169). -/
def expandFrom (c : Config) (i : Nat) : List (Byte × Byte) → Except OpError (List Byte)
  | [] => .ok []
  | (k, x) :: refs =>
    match expandRef c i k x with
    | .error e => .error e
    | .ok ids =>
      match expandFrom c (i + 1) refs with
      | .error e => .error e
      | .ok more => .ok (ids ++ more)

/-- EXPAND (R169). -/
def expand (c : Config) (refs : List (Byte × Byte)) : Except OpError (List Byte) := expandFrom c 0 refs

end Sys2Proof.Machine
end

