-- ==== Sys2Proof/Machine/Encoder.lean ====
section
/-!
DEFINITION. The command encoder (41_command_encoder.md): the byte sequence of each command (30_encoding.md R119), the accept
step of each ENC operation, and the handoff step they share (R180).
-/

namespace Sys2Proof.Machine

/-- WIRE_OPC.DRIVE, the one opcode the source fixes (30_encoding.md R130). -/
def opcDrive : Byte := 137

/-- The radius field of DRIVE: the sentinel +32768 passes, anything else is clamped (R182). -/
def driveRadius (radius : Int) : Int := if radius = 32768 then 0x8000 else clamp radius (-2000) 2000

/-- DRIVE (R182, R119). -/
def driveSeq (speed radius : Int) : List Byte :=
  [opcDrive] ++ be16 (clamp speed (-500) 500) ++ be16 (driveRadius radius)

/-- DRIVE_PWM (R183, R119). -/
def drivePwmSeq (c : Config) (right left : Int) : List Byte :=
  [c.wireOpc.drivePwm] ++ be16 (clamp right (-255) 255) ++ be16 (clamp left (-255) 255)

/-- MOTORS_PWM (R184, R119). -/
def motorsPwmSeq (c : Config) (main side vacuum : Int) : List Byte :=
  [c.wireOpc.motorsPwm, u8 (clamp main (-127) 127), u8 (clamp side (-127) 127), u8 (clamp vacuum 0 127)]

/-- ASCII a..z to A..Z, every other byte as it is (R185). -/
def upper (b : Byte) : Byte := if 0x61 ≤ b.toNat ∧ b.toNat ≤ 0x7A then b - 0x20 else b

/-- DISPLAY_ASCII of at most four text bytes, space-padded to four (R185, R119). -/
def displaySeq (c : Config) (text : List Byte) : List Byte :=
  [c.wireOpc.displayAscii] ++ text.map upper ++ List.replicate (4 - text.length) 0x20

/-- note0, dur0, note1, dur1, … (R186). -/
def interleave : List Byte → List Byte → List Byte
  | note :: notes, dur :: durs => note :: dur :: interleave notes durs
  | _, _ => []

/-- DEFINE_SONG of equally many notes and durations (R186, R119). -/
def songSeq (c : Config) (song : Byte) (notes durs : List Byte) : List Byte :=
  [c.wireOpc.song, song, BitVec.ofNat 8 notes.length] ++ interleave notes durs

/-- FLAGBYTE from flag index i on: bit POS(c, i) is set when flag i is (R190). -/
def flagByteFrom (flags : Byte) (i : Nat) : List (Fin 8) → Byte
  | [] => 0
  | pos :: rest =>
    (if flags.getLsbD i then (1 : Byte) <<< pos.val else 0) ||| flagByteFrom flags (i + 1) rest

/-- FLAGBYTE(c, flags) (R190); the positions are distinct, so the sum of the powers is their disjunction. -/
def flagByte (positions : List (Fin 8)) (flags : Byte) : Byte := flagByteFrom flags 0 positions

/-- LEDS (R187, R119). -/
def ledsSeq (c : Config) (flags : Byte) : List Byte := [c.wireOpc.leds, flagByte c.flagPos.leds flags]

/-- MOTORS (R188, R119). -/
def motorsSeq (c : Config) (flags : Byte) : List Byte := [c.wireOpc.motors, flagByte c.flagPos.motors flags]

/-- BUTTONS (R189, R119). -/
def buttonsSeq (c : Config) (flags : Byte) : List Byte := [c.wireOpc.buttons, flagByte c.flagPos.buttons flags]

/-- BAUD, or CONFIG for a rate outside BAUD_TABLE (R191, R119). -/
def baudSeq (c : Config) (rate : Word) : Except OpError (List Byte) :=
  match c.baud.lookup rate with
  | some code => .ok [c.wireOpc.baud, code]
  | none => .error ⟨.config, rate.toNat, 0⟩

/-- QUERY_LIST of the references read (R192, R119). -/
def queryListSeq (c : Config) (refs : List (Byte × Byte)) : Except OpError (List Byte) :=
  match expand c refs with
  | .error e => .error e
  | .ok ids =>
    if 255 < ids.length then .error ⟨.arg, ids.length, 1⟩
    else .ok ([c.wireOpc.queryList, BitVec.ofNat 8 ids.length] ++ ids)

/-- ENC_DRIVE, OP 0x01 (R182). -/
def execEncDrive (s : State) : Result :=
  accept .encDrive s fun s => .next (s.launch .encDrive (driveSeq (int32 s.arg0) (int32 s.arg1)))

/-- ENC_DRIVE_PWM, OP 0x02 (R183). -/
def execEncDrivePwm (s : State) : Result :=
  accept .encDrivePwm s fun s =>
    .next (s.launch .encDrivePwm (drivePwmSeq s.cfg (int32 s.arg0) (int32 s.arg1)))

/-- ENC_MOTORS_PWM, OP 0x03 (R184). -/
def execEncMotorsPwm (s : State) : Result :=
  accept .encMotorsPwm s fun s =>
    .next (s.launch .encMotorsPwm (motorsPwmSeq s.cfg (int32 s.arg0) (int32 s.arg1) (int32 s.arg2)))

/-- ENC_DISPLAY_ASCII, OP 0x04 (R185): at most four ABUF bytes are read. -/
def execEncDisplayAscii (s : State) : Result :=
  accept .encDisplayAscii s fun s =>
    withBytes (abufBytes s 0 (min (u32 s.arg0) 4)) fun text =>
      .next (s.launch .encDisplayAscii (displaySeq s.cfg text))

/-- ENC_DEFINE_SONG, OP 0x05 (R186): the counts are checked before any ABUF byte is read. -/
def execEncDefineSong (s : State) : Result :=
  accept .encDefineSong s fun s =>
    if u32 s.arg1 ≠ u32 s.arg2 then .next (s.raise .arg (u32 s.arg1) (u32 s.arg2))
    else if 255 < u32 s.arg1 then .next (s.raise .arg (u32 s.arg1) (u32 s.arg2))
    else
      withBytes (abufBytes s 0 (u32 s.arg1)) fun notes =>
        withBytes (abufBytes s 256 (u32 s.arg2)) fun durs =>
          .next (s.launch .encDefineSong (songSeq s.cfg (lowByte s.arg0) notes durs))

/-- ENC_LEDS, OP 0x06 (R187). -/
def execEncLeds (s : State) : Result :=
  accept .encLeds s fun s => .next (s.launch .encLeds (ledsSeq s.cfg (lowByte s.arg0)))

/-- ENC_MOTORS, OP 0x07 (R188). -/
def execEncMotors (s : State) : Result :=
  accept .encMotors s fun s => .next (s.launch .encMotors (motorsSeq s.cfg (lowByte s.arg0)))

/-- ENC_BUTTONS, OP 0x08 (R189). -/
def execEncButtons (s : State) : Result :=
  accept .encButtons s fun s => .next (s.launch .encButtons (buttonsSeq s.cfg (lowByte s.arg0)))

/-- ENC_BAUD, OP 0x09 (R191). -/
def execEncBaud (s : State) : Result :=
  accept .encBaud s fun s => .next (launchOrRaise .encBaud s (baudSeq s.cfg s.arg0))

/-- ENC_QUERY_LIST, OP 0x0A (R192): m is checked before any ABUF byte is read. -/
def execEncQueryList (s : State) : Result :=
  accept .encQueryList s fun s =>
    if 256 < u32 s.arg0 then .next (s.raise .arg (u32 s.arg0) 0)
    else
      withBytes (abufBytes s 0 (2 * u32 s.arg0)) fun bytes =>
        .next (launchOrRaise .encQueryList s (queryListSeq s.cfg (pairUp bytes)))

/-- The handoff step (R180, 20_memory.md R99): the whole sequence goes to the transport, or its error ends the operation. With
nothing pending, PYRB holds. -/
def handoffStep (s : State) : State :=
  match s.txpend with
  | none => s
  | some seq =>
    match s.terr with
    | some c => s.raise .transport c.val.toNat seq.length
    | none =>
      { s with txout := s.txout ++ seq, txpend := none, res0 := BitVec.ofNat 32 seq.length }.complete

end Sys2Proof.Machine
end

