-- ==== Sys2Proof/Machine/Pose.lean ====
section
/-!
DEFINITION. The pose integrator (43_pose_integrator.md): the wheel-point readout, and the three DYN operations, each accepted and
completed in one step.
-/

namespace Sys2Proof.Machine

/-- The wheel points, as the four registers read them (R282, 10_state.md R42). -/
structure WheelPoints where
  wlX : Word
  wlY : Word
  wrX : Word
  wrY : Word
  deriving DecidableEq, Repr

/-- R_RAW as an integer (00_scope.md R10). -/
def rRawInt (c : Config) : Int := c.rRaw.toNat

/-- The readout of the wheel points from a pose (R282). -/
def wheelPoints (c : Config) (x y th : Word) : WheelPoints :=
  let px := rnd (rRawInt c * fxSin c th) 16
  let py := rnd (rRawInt c * fxCos c th) 16
  { wlX := wrap32 (x.toInt - px)
    wlY := wrap32 (y.toInt + py)
    wrX := wrap32 (x.toInt + px)
    wrY := wrap32 (y.toInt - py) }

/-- DELTA16(p, n) (R288). -/
def delta16 (p n : BitVec 16) : Int :=
  if p.toNat ≤ n.toNat then (n.toNat : Int) - p.toNat else (n.toNat : Int) - ((p.toNat : Int) - 65536)

/-- A tick delta scaled by K, in Q (R289). -/
def scaleTicks (c : Config) (raw : Int) : Int := rnd (raw * c.kRaw.toNat) 8

/-- DYN_NORMALIZE of a raw sample (R287). -/
def normalizeSample (s : State) (newL newR : BitVec 16) : State :=
  if s.priorValid then
    let rawL := delta16 s.priorL newL
    let rawR := delta16 s.priorR newR
    let dL := scaleTicks s.cfg rawL
    let dR := scaleTicks s.cfg rawR
    { (s.loadPrior newL newR).noteOverflow (!fits32 dL || !fits32 dR) with
      res0 := wrap32 dL
      res1 := wrap32 dR
      res2 := wrap32 rawL
      res3 := wrap32 rawR }.complete
  else (s.loadPrior newL newR).raise .noPrior newL.toNat newR.toNat

/-- What an update moves the pose by: mx, my, phi, and whether phi did not fit (R290). -/
structure Motion where
  mx : Int
  my : Int
  phi : Word
  overflow : Bool
  deriving DecidableEq, Repr

/-- The translation branch, dL = dR = d (R290, R292). -/
def translationMotion (c : Config) (th : Word) (d : Int) : Motion :=
  { mx := rnd (d * fxCos c th) 16, my := rnd (d * fxSin c th) 16, phi := 0, overflow := false }

/-- The heading change before wrapping: DIVR((dR - dL)·2^16, 2·R_RAW) (R290, R293). -/
def turnAngle (c : Config) (dL dR : Int) : Int := divr ((dR - dL) * 2 ^ 16) (2 * rRawInt c)

/-- The rotation branch, dL ≠ dR (R290, R293). -/
def rotationMotion (c : Config) (th : Word) (dL dR : Int) : Motion :=
  let phi := wrap32 (turnAngle c dL dR)
  let cosTh := fxCos c th
  let sinTh := fxSin c th
  let si := fxSinc c phi
  let ve := fxVersc c phi
  { mx := rnd ((dL + dR) * (si * cosTh - ve * sinTh)) 33
    my := rnd ((dL + dR) * (si * sinTh + ve * cosTh)) 33
    phi := phi
    overflow := !fits32 (turnAngle c dL dR) }

/-- The motion of an update (R290): the branch is chosen by exact equality of the operands (R292). -/
def motion (c : Config) (th : Word) (dL dR : Int) : Motion :=
  if dL = dR then translationMotion c th dL else rotationMotion c th dL dR

/-- The pose after a motion, RES0 to RES2, and OVF (R290, R295). -/
def applyMotion (s : State) (m : Motion) : State :=
  let x := s.poseX.toInt + m.mx
  let y := s.poseY.toInt + m.my
  let t := s.poseTh.toInt + m.phi.toInt
  { (s.noteOverflow (m.overflow || !(fits32 x && fits32 y && fits32 t))).setPose (wrap32 x) (wrap32 y) (wrap32 t) with
    res0 := wrap32 m.mx
    res1 := wrap32 m.my
    res2 := m.phi }.complete

/-- DYN_UPDATE on its operands (R290, R291). -/
def updatePose (s : State) (dL dR : Int) (dt : Nat) : State :=
  if dt = 0 then s.raise .zeroTime 0 0 else applyMotion s (motion s.cfg s.poseTh dL dR)

/-- DYN_NORMALIZE, OP 0x30 (R287). -/
def execDynNormalize (s : State) : Result :=
  accept .dynNormalize s fun s => .next (normalizeSample s (lowHalf s.arg0) (lowHalf s.arg1))

/-- DYN_UPDATE, OP 0x31 (R290). -/
def execDynUpdate (s : State) : Result :=
  accept .dynUpdate s fun s => .next (updatePose s (int32 s.arg0) (int32 s.arg1) (u32 s.arg2))

/-- DYN_RESET, OP 0x32 (R297). -/
def execDynReset (s : State) : Result :=
  accept .dynReset s fun s => .next (s.setPose 0 0 0).complete

end Sys2Proof.Machine
end

