-- ==== Sys2Proof/Machine/Dispatch.lean ====
section
/-!
DEFINITION. What a host write of CMD with an operation's word does, operation by operation (30_encoding.md R111).
-/

namespace Sys2Proof.Machine

def exec (i : Instr) (s : State) : Host.Outcome State Fault Refusal :=
  match i with
  | .encDrive => Sys2Proof.Machine.execEncDrive s
  | .encDrivePwm => Sys2Proof.Machine.execEncDrivePwm s
  | .encMotorsPwm => Sys2Proof.Machine.execEncMotorsPwm s
  | .encDisplayAscii => Sys2Proof.Machine.execEncDisplayAscii s
  | .encDefineSong => Sys2Proof.Machine.execEncDefineSong s
  | .encLeds => Sys2Proof.Machine.execEncLeds s
  | .encMotors => Sys2Proof.Machine.execEncMotors s
  | .encButtons => Sys2Proof.Machine.execEncButtons s
  | .encBaud => Sys2Proof.Machine.execEncBaud s
  | .encQueryList => Sys2Proof.Machine.execEncQueryList s
  | .decDecode => Sys2Proof.Machine.execDecDecode s
  | .regById => Sys2Proof.Machine.execRegById s
  | .regByName => Sys2Proof.Machine.execRegByName s
  | .regBulkMember => Sys2Proof.Machine.execRegBulkMember s
  | .dynNormalize => Sys2Proof.Machine.execDynNormalize s
  | .dynUpdate => Sys2Proof.Machine.execDynUpdate s
  | .dynReset => Sys2Proof.Machine.execDynReset s

end Sys2Proof.Machine
end

