-- ==== Sys2Proof/Machine/Bus.lean ====
section
/-!
DEFINITION. The register window (10_state.md R30 to R50, 20_memory.md R80 to R85): which register an offset names, what a read
returns, what a write does, and which accesses are refused.
-/

namespace Sys2Proof.Machine

/-- The registers and buffer words of the window (R30). -/
inductive Reg where
  | cmd
  | status
  | arg (k : Fin 3)
  | res (k : Fin 4)
  | poseX
  | poseY
  | poseTh
  | wlX
  | wlY
  | wrX
  | wrY
  | prior
  | frameInfo
  | id
  /-- Word k of NBUF. -/
  | nbuf (k : Fin 8)
  /-- Word k of ABUF. -/
  | abuf (k : Fin 128)
  /-- Word k of PBUF. -/
  | pbuf (k : Fin 64)
  /-- Word k of FBUF: entry k / 2, word 0 or 1 of it. -/
  | fbuf (k : Fin 256)
  /-- A reserved offset (R50). -/
  | reserved
  deriving DecidableEq, Repr

/-- The register below 0x0C0 at an offset (R30). -/
def lowRegAt (off : Nat) : Reg :=
  match off with
  | 0x000 => .cmd
  | 0x004 => .status
  | 0x008 => .arg 0
  | 0x00C => .arg 1
  | 0x010 => .arg 2
  | 0x018 => .res 0
  | 0x01C => .res 1
  | 0x020 => .res 2
  | 0x024 => .res 3
  | 0x028 => .poseX
  | 0x02C => .poseY
  | 0x030 => .poseTh
  | 0x034 => .wlX
  | 0x038 => .wlY
  | 0x03C => .wrX
  | 0x040 => .wrY
  | 0x044 => .prior
  | 0x048 => .frameInfo
  | 0x04C => .id
  | _ => .reserved

/-- The register at a word-aligned offset of the window (R30, R50). -/
def regAt (off : Nat) : Reg :=
  if off < 0x0C0 then lowRegAt off
  else if h : off < 0x0E0 then .nbuf ⟨(off - 0x0C0) / 4, by omega⟩
  else if off < 0x100 then .reserved
  else if h : off < 0x300 then .abuf ⟨(off - 0x100) / 4, by omega⟩
  else if h : off < 0x400 then .pbuf ⟨(off - 0x300) / 4, by omega⟩
  else if h : off < 0x800 then .fbuf ⟨(off - 0x400) / 4, by omega⟩
  else .reserved

/-- The offset of a register (R30); for `reserved`, the first reserved offset. -/
def regOffset : Reg → Nat
  | .cmd => 0x000
  | .status => 0x004
  | .arg k => 0x008 + 4 * k.val
  | .reserved => 0x014
  | .res k => 0x018 + 4 * k.val
  | .poseX => 0x028
  | .poseY => 0x02C
  | .poseTh => 0x030
  | .wlX => 0x034
  | .wlY => 0x038
  | .wrX => 0x03C
  | .wrY => 0x040
  | .prior => 0x044
  | .frameInfo => 0x048
  | .id => 0x04C
  | .nbuf k => 0x0C0 + 4 * k.val
  | .abuf k => 0x100 + 4 * k.val
  | .pbuf k => 0x300 + 4 * k.val
  | .fbuf k => 0x400 + 4 * k.val

/-- The constant of the ID register (R49). -/
def idWord : Word := 0x50594207

/-- A word of a byte buffer given by its byte function (20_memory.md R85). -/
def bufferWord (byte : Nat → Byte) (k : Nat) : Word :=
  wordOfLanes (byte (4 * k)) (byte (4 * k + 1)) (byte (4 * k + 2)) (byte (4 * k + 3))

namespace State

/-- Byte i of NBUF (R45). -/
def nbufByte (s : State) (i : Nat) : Byte := if i < s.nameLen.toNat then s.name.toList.getD i 0 else 0

/-- Byte j of PBUF (R47). -/
def pbufByte (s : State) (j : Nat) : Byte :=
  if s.valid && decide (j < s.len.toNat) then s.body.toList.getD j 0 else 0

/-- Entry e as FBUF shows it (R48). -/
def fbufEntry (s : State) (e : Nat) : Entry :=
  if s.valid && decide (e < s.count.toNat) then s.entry.toList.getD e ⟨0, 0⟩ else ⟨0, 0⟩

/-- Word k of FBUF (R48). -/
def fbufWord (s : State) (k : Nat) : Word :=
  if k % 2 = 0 then (s.fbufEntry (k / 2)).word0 else (s.fbufEntry (k / 2)).word1

/-- The wheel points of the pose (R42). -/
def wheels (s : State) : WheelPoints := wheelPoints s.cfg s.poseX s.poseY s.poseTh

end State

/-- What an aligned 32-bit read of a register returns (R30 to R50). Only an ABUF word can fault (R46). -/
def readReg (s : State) : Reg → Except Fault Word
  | .cmd => .ok 0
  | .status => .ok s.statusWord
  | .arg 0 => .ok s.arg0
  | .arg 1 => .ok s.arg1
  | .arg 2 => .ok s.arg2
  | .res 0 => .ok s.res0
  | .res 1 => .ok s.res1
  | .res 2 => .ok s.res2
  | .res 3 => .ok s.res3
  | .poseX => .ok s.poseX
  | .poseY => .ok s.poseY
  | .poseTh => .ok s.poseTh
  | .wlX => .ok s.wheels.wlX
  | .wlY => .ok s.wheels.wlY
  | .wrX => .ok s.wheels.wrX
  | .wrY => .ok s.wheels.wrY
  | .prior => .ok s.priorWord
  | .frameInfo => .ok s.frameInfoWord
  | .id => .ok idWord
  | .nbuf k => .ok (bufferWord s.nbufByte k.val)
  | .abuf k => Memory.readWord s.abuf (abufOffset (4 * k.val))
  | .pbuf k => .ok (bufferWord s.pbufByte k.val)
  | .fbuf k => .ok (s.fbufWord k.val)
  | .reserved => .ok 0

/-- A CMD write whose word is illegal (30_encoding.md R112, 60_exceptions.md R336). -/
def illegalCommand (w : Word) (s : State) : Result :=
  acceptOp (cmdOp w) s fun s => .next (s.raise .illegalOp w.toNat 0)

/-- A host write of CMD (R31): the operation it selects, or ILLEGAL_OP; either is dropped while BUSY = 1. -/
def writeCmd (w : Word) (s : State) : Result :=
  match decodeWord w with
  | .ok i => exec i s
  | .error _ => illegalCommand w s

/-- What an aligned 32-bit write of a register does (R30 to R50, R84): CMD starts an operation, STATUS clears sticky bits, ARG and
ABUF store, and everything else ignores the write (R82). -/
def writeReg (s : State) (w : Word) : Reg → Result
  | .cmd => writeCmd w s
  | .status => .next (s.clearSticky w)
  | .arg 0 => .next { s with arg0 := w }
  | .arg 1 => .next { s with arg1 := w }
  | .arg 2 => .next { s with arg2 := w }
  | .abuf k => .next { s with abuf := Memory.writeWord s.abuf (abufOffset (4 * k.val)) w }
  | .res _ => .next s
  | .poseX => .next s
  | .poseY => .next s
  | .poseTh => .next s
  | .wlX => .next s
  | .wlY => .next s
  | .wrX => .next s
  | .wrY => .next s
  | .prior => .next s
  | .frameInfo => .next s
  | .id => .next s
  | .nbuf _ => .next s
  | .pbuf _ => .next s
  | .fbuf _ => .next s
  | .reserved => .next s

/-- A bus address inside BASE to BASE + 0x7FF (R80). -/
def inWindow (c : Config) (addr : Nat) : Bool := decide (c.base ≤ addr) && decide (addr < c.base + 0x800)

/-- Only a 32-bit access at an offset that is a multiple of 4 is accepted (R81). -/
def accessOk (off bytes : Nat) : Bool := decide (bytes = 4) && decide (off % 4 = 0)

/-- The HOST's own record of what a read returned (log entry 11). -/
def logRead (s : State) (addr : Nat) (v : Word) : State := { s with reads := (addr, v) :: s.reads }

/-- A host read (R81 to R84). A refused read returns 0 and sets ACCERR. -/
def hostRead (s : State) (addr bytes : Nat) : Result :=
  if inWindow s.cfg addr then
    if accessOk (addr - s.cfg.base) bytes then
      match readReg s (regAt (addr - s.cfg.base)) with
      | .ok v => .next (logRead s addr v)
      | .error f => .fault f
    else .next (logRead s.refuseAccess addr 0)
  else .fault (.outsideWindow addr)

/-- A host write (R81 to R84). A refused write changes nothing but ACCERR. -/
def hostWrite (s : State) (addr bytes : Nat) (w : Word) : Result :=
  if inWindow s.cfg addr then
    if accessOk (addr - s.cfg.base) bytes then writeReg s w (regAt (addr - s.cfg.base))
    else .next s.refuseAccess
  else .fault (.outsideWindow addr)

end Sys2Proof.Machine
end

