-- ==== Sys2Proof/Machine/Agents.lean ====
section
/-!
DEFINITION. The steps of the agents (00_scope.md R6): HOST, PYRB, TRANSPORT, and the platform's RST (70_reset_and_hazards.md R360
to R362).
-/

namespace Sys2Proof.Machine

/-- The HOST step: the head of its actions; with none left, it does nothing. A WAIT reads STATUS and stays until BUSY = 0
(30_encoding.md R131). -/
def hostStep (s : State) : Result :=
  match s.todo with
  | [] => .next s
  | .read addr bytes :: rest => hostRead { s with todo := rest } addr bytes
  | .write addr bytes w :: rest => hostWrite { s with todo := rest } addr bytes w
  | .wait :: rest =>
    .next (logRead { s with todo := if s.busy then .wait :: rest else rest } (s.cfg.base + 4) s.statusWord)

/-- The PYRB step: the decoder step of DSTATE (42_stream_decoder.md R230), else the handoff (41_command_encoder.md R180). Where no
step is enabled, PYRB holds (20_memory.md R96, R99). -/
def pyrbStep (s : State) : State :=
  match s.dstate with
  | .idle => handoffStep s
  | .seek => byteStep s seekByte
  | .len => byteStep s lenByte
  | .body => byteStep s bodyByte
  | .validate => validateStep s

/-- RST: PYRB's state is that of R361, ABUF's bytes are unwritten again, and the transport and the HOST keep theirs (R362). DESIGN
CHOICE (log entry 21): RST is asserted and released in one step, with no state in between. The sticky bits are cleared with the
rest, and the fault marks stay (R35; log entry 20). -/
def rst (s : State) : State :=
  { State.reset with
    cfg := s.cfg
    marks := s.marks
    rxq := s.rxq
    terr := s.terr
    txout := s.txout
    todo := s.todo
    reads := s.reads
    turns := s.turns }

/-- One turn. -/
def runTurn (t : Turn) (s : State) : Result :=
  match t with
  | .host => hostStep s
  | .pyrb => .next (pyrbStep s)
  | .arrive b => .next { s with rxq := s.rxq ++ [b] }
  | .error c => .next { s with terr := c }
  | .rst => .next (rst s)

end Sys2Proof.Machine
end

