-- ==== Sys2Proof/Machine/Step.lean ====
section
/-!
DEFINITION. One step of the machine: the next turn of the schedule (00_scope.md R6; log entry 5).
-/

namespace Sys2Proof.Machine

/-- The head of the schedule is taken and run. With no turn left no agent moves. A configuration that breaks its constraints is
refused (93 I8, I9). -/
def step (s : State) : Host.Outcome State Fault Refusal :=
  match s.turns with
  | [] => .next s
  | t :: rest => if s.cfg.wf then runTurn t { s with turns := rest } else .refused .illFormedConfig

/-- PYRB fetches no instruction (20_memory.md R93): an operation runs when the HOST writes its word to CMD. So the next turn is the
HOST's, and its next action is that write (log entry 6). -/
def State.withFetchWord (s : State) (nbits w : Nat) : State :=
  { s with
    todo := .write s.cfg.base 4 (tableWord nbits w) :: s.todo
    turns := .host :: s.turns }

end Sys2Proof.Machine
end

