-- ==== Sys2Proof/Machine/Frames.lean ====
section
/-!
DEFINITION. The streaming sensor frame as a builder makes it (30_encoding.md R120 to R122), the query response (R125, given as
information), and the mapping view of a decoded frame (42_stream_decoder.md R244).
-/

namespace Sys2Proof.Machine

/-- The sum of the bytes of a list as a number. -/
def natSum : List Byte → Nat
  | [] => 0
  | b :: bs => b.toNat + natSum bs

/-- The frame-building helper's checksum byte (R121, 90_conflicts.md C3). -/
def frameChecksum (payload : List Byte) : Byte :=
  BitVec.ofNat 8 ((256 - (19 + payload.length + natSum payload) % 256) % 256)

/-- A streaming sensor frame around a payload of at most 255 bytes (R120, R121). -/
def buildFrame (payload : List Byte) : List Byte :=
  [magic, BitVec.ofNat 8 payload.length] ++ payload ++ [frameChecksum payload]

/-- A field of a payload: an id, the format its descriptor gives it, and a value. -/
structure SensorField where
  id : Byte
  fmt : Fmt
  value : Value
  deriving DecidableEq, Repr

/-- `[id] ++ ENCVAL(fmt(id), x)` (R122). -/
def fieldBytes (f : SensorField) : List Byte := f.id :: encVal f.fmt f.value

/-- A well-formed payload: its fields one after the other (R122). -/
def payloadOf (fields : List SensorField) : List Byte := fields.flatMap fieldBytes

/-- A field the registry knows, with a value its format can carry (R117, R122). -/
def fieldOk (c : Config) (f : SensorField) : Bool :=
  decide ((sensorAt c f.id).map ScalarDesc.fmt = some f.fmt) && inRange f.fmt f.value

/-- A payload's fields all known and in range (R122). -/
def fieldsOk (c : Config) (fields : List SensorField) : Bool := fields.all (fieldOk c)

/-- The response to a query list: each value's bytes in request order, no id, no frame (R125). PYRB does not read it. -/
def queryResponse (fields : List SensorField) : List Byte := fields.flatMap fun f => encVal f.fmt f.value

/-- The entry a field at payload offset `off` decodes to (30_encoding.md R126, 42_stream_decoder.md R237). -/
def entryOf (f : SensorField) (off : Nat) : Entry :=
  ⟨word0Of f.id f.fmt (off + 1), word1Of f.fmt (encVal f.fmt f.value)⟩

/-- The entries of a payload's fields, the first field at payload offset `off`. -/
def entriesFrom (off : Nat) : List SensorField → List Entry
  | [] => []
  | f :: fs => entryOf f off :: entriesFrom (off + 1 + fmtWidth f.fmt) fs

/-- ID of an entry (R126). -/
def entryId (e : Entry) : Byte := e.word0.extractLsb' 0 8

/-- OFF of an entry (R126). -/
def entryOff (e : Entry) : Nat := (e.word0.extractLsb' 24 8).toNat

/-- WIDTH of an entry (R126). -/
def entryWidth (e : Entry) : Nat := (e.word0.extractLsb' 16 8).toNat

/-- FMT of an entry (R126, codes of R115). -/
def entryFmt (e : Entry) : Nat := (e.word0.extractLsb' 8 3).toNat

/-- The value a consumer reads from a shown entry (R126, R244): a BLOCK's bytes are those of PBUF from OFF up; a signed number is
word 1 as two's complement, an unsigned one is word 1 as it is. -/
def entryValue (s : State) (e : Entry) : Value :=
  match entryFmt e with
  | 4 => .bytes ((List.range (entryWidth e)).map fun i => s.pbufByte (entryOff e + i))
  | 1 => .num e.word1.toInt
  | 3 => .num e.word1.toInt
  | _ => .num e.word1.toNat

/-- The frame as FBUF shows it: its entries in wire order (R244, 10_state.md R48). -/
def shownEntries (s : State) : List Entry :=
  if s.valid then (List.range s.count.toNat).map s.fbufEntry else []

/-- Insert into a map kept in insertion order: a known key keeps its place and takes the new value. -/
def insertOrdered (m : List (Byte × Value)) (id : Byte) (v : Value) : List (Byte × Value) :=
  match m with
  | [] => [(id, v)]
  | (k, old) :: rest => if k = id then (k, v) :: rest else (k, old) :: insertOrdered rest id v

/-- The frame as a mapping: ids in order of first occurrence, each with the value of its last entry (R244). -/
def frameMapping (s : State) : List (Byte × Value) :=
  (shownEntries s).foldl (fun m e => insertOrdered m (entryId e) (entryValue s e)) []

end Sys2Proof.Machine
end

