-- ==== Sys2Proof/Machine/HostProgram.lean ====
section
/-!
DEFINITION. The host program syntax (30_encoding.md R131) and the pseudo-instructions (R132): what bus actions a line stands for.
A real operand q(r) of R132 is given here as its Q encoding, a string as its bytes (log entry 15).
-/

namespace Sys2Proof.Machine

/-- A line of a host program (R131). -/
inductive HostLine where
  /-- `WR reg, v`. -/
  | wr (r : Reg) (v : Word)
  /-- `RD reg`. -/
  | rd (r : Reg)
  /-- `WRBUF i, b0, b1, …`: i is a multiple of 4. -/
  | wrbuf (i : Nat) (bytes : List Byte)
  /-- `WAIT`. -/
  | wait
  /-- `EXPECT reg, v`: an assertion about the last read of reg, not a bus access. -/
  | expect (r : Reg) (v : Word)
  deriving DecidableEq, Repr

/-- Bytes as whole words in the lane order of 20_memory.md R85, missing bytes of the last word 0 (R131). -/
def packWords : List Byte → List Word
  | [] => []
  | [b0] => [wordOfLanes b0 0 0 0]
  | [b0, b1] => [wordOfLanes b0 b1 0 0]
  | [b0, b1, b2] => [wordOfLanes b0 b1 b2 0]
  | b0 :: b1 :: b2 :: b3 :: rest => wordOfLanes b0 b1 b2 b3 :: packWords rest

/-- Whole-word writes of consecutive words from a bus address up. -/
def wordWrites (addr : Nat) : List Word → List HostAction
  | [] => []
  | w :: ws => .write addr 4 w :: wordWrites (addr + 4) ws

/-- The bus actions of a line (R131). -/
def lineActions (base : Nat) : HostLine → List HostAction
  | .wr r v => [.write (base + regOffset r) 4 v]
  | .rd r => [.read (base + regOffset r) 4]
  | .wrbuf i bytes => wordWrites (base + abufOffset i) (packWords bytes)
  | .wait => [.wait]
  | .expect _ _ => []

/-- The encoding of a program: its bus transactions in order (R131). -/
def programActions (base : Nat) (lines : List HostLine) : List HostAction := lines.flatMap (lineActions base)

/-- Whether `EXPECT reg, v` holds: the last read of reg returned v (R131). -/
def expectHolds (s : State) (r : Reg) (v : Word) : Bool :=
  decide (s.reads.lookup (s.cfg.base + regOffset r) = some v)

/-- `WR CMD, <mnemonic>` (R131). -/
def startLine (i : Instr) : HostLine := .wr .cmd (encodeWord i)

/-- The pseudo-instructions (R132). -/
inductive Pseudo where
  | drive (s r : Word)
  | drivePwm (r l : Word)
  | motorsPwm (m s v : Word)
  | text (t : List Byte)
  | song (id : Word) (notes durs : List Byte)
  | leds (f : Word)
  | motors (f : Word)
  | buttons (f : Word)
  | baud (rate : Word)
  | query (refs : List (Byte × Byte))
  | decode
  | byId (id : Word)
  | byName (n : List Byte)
  | member (b p : Word)
  | normalize (l r : Word)
  | update (dl dr dt : Word)
  | resetPose
  | clrFlags
  deriving DecidableEq, Repr

/-- The length of a list as an operand word. -/
def lenWord (bytes : List Byte) : Word := BitVec.ofNat 32 bytes.length

/-- The expansion of a pseudo-instruction (R132). -/
def expandPseudo : Pseudo → List HostLine
  | .drive s r => [.wr (.arg 0) s, .wr (.arg 1) r, startLine .encDrive, .wait]
  | .drivePwm r l => [.wr (.arg 0) r, .wr (.arg 1) l, startLine .encDrivePwm, .wait]
  | .motorsPwm m s v => [.wr (.arg 0) m, .wr (.arg 1) s, .wr (.arg 2) v, startLine .encMotorsPwm, .wait]
  | .text t => [.wrbuf 0 t, .wr (.arg 0) (lenWord t), startLine .encDisplayAscii, .wait]
  | .song id notes durs =>
    [.wrbuf 0 notes, .wrbuf 256 durs, .wr (.arg 0) id, .wr (.arg 1) (lenWord notes), .wr (.arg 2) (lenWord durs),
     startLine .encDefineSong, .wait]
  | .leds f => [.wr (.arg 0) f, startLine .encLeds, .wait]
  | .motors f => [.wr (.arg 0) f, startLine .encMotors, .wait]
  | .buttons f => [.wr (.arg 0) f, startLine .encButtons, .wait]
  | .baud rate => [.wr (.arg 0) rate, startLine .encBaud, .wait]
  | .query refs =>
    [.wrbuf 0 (refs.flatMap fun r => [r.1, r.2]), .wr (.arg 0) (BitVec.ofNat 32 refs.length), startLine .encQueryList, .wait]
  | .decode => [startLine .decDecode, .wait]
  | .byId id => [.wr (.arg 0) id, startLine .regById, .wait]
  | .byName n => [.wrbuf 0 n, .wr (.arg 0) (lenWord n), startLine .regByName, .wait]
  | .member b p => [.wr (.arg 0) b, .wr (.arg 1) p, startLine .regBulkMember, .wait]
  | .normalize l r => [.wr (.arg 0) l, .wr (.arg 1) r, startLine .dynNormalize, .wait]
  | .update dl dr dt => [.wr (.arg 0) dl, .wr (.arg 1) dr, .wr (.arg 2) dt, startLine .dynUpdate, .wait]
  | .resetPose => [startLine .dynReset, .wait]
  | .clrFlags => [.wr .status 0x00000700]

end Sys2Proof.Machine
end

