-- ==== Sys2Proof/Safety.lean ====
section
/-!
DEFINITION. The predicates that claims use: the invariants of PYRB (10_state.md R56 and the rules named below), the accuracy of
TRIG (43_pose_integrator.md R285), and the premises and the end of a host program's run (70_reset_and_hazards.md R365, R375, R376).
-/

namespace Sys2Proof.Machine

/-- The operations of the command encoder (30_encoding.md R111). -/
def isEncoder : Instr → Bool
  | .encDrive | .encDrivePwm | .encMotorsPwm | .encDisplayAscii | .encDefineSong | .encLeds | .encMotors | .encButtons
  | .encBaud | .encQueryList => true
  | .decDecode | .regById | .regByName | .regBulkMember | .dynNormalize | .dynUpdate | .dynReset => false

/-- The operations of the pose integrator (R111). -/
def isPose : Instr → Bool
  | .dynNormalize | .dynUpdate | .dynReset => true
  | .encDrive | .encDrivePwm | .encMotorsPwm | .encDisplayAscii | .encDefineSong | .encLeds | .encMotors | .encButtons
  | .encBaud | .encQueryList | .decDecode | .regById | .regByName | .regBulkMember => false

/-- The operations of the sensor registry (R111). -/
def isRegistry : Instr → Bool
  | .regById | .regByName | .regBulkMember => true
  | .encDrive | .encDrivePwm | .encMotorsPwm | .encDisplayAscii | .encDefineSong | .encLeds | .encMotors | .encButtons
  | .encBaud | .encQueryList | .decDecode | .dynNormalize | .dynUpdate | .dynReset => false

/-- The operation in flight is an encoder operation. -/
def encoderInFlight (s : State) : Bool :=
  match s.cur with
  | some i => isEncoder i
  | none => false

/-- The invariants of 10_state.md R56. -/
structure InFlightInv (s : State) : Prop where
  /-- (a) -/
  decoding : s.cur = some .decDecode ↔ s.dstate ≠ .idle
  /-- (b) -/
  sending : encoderInFlight s = true ↔ s.txpend ≠ none
  /-- (c) -/
  nothing : s.cur = none ↔ s.dstate = .idle ∧ s.txpend = none
  /-- (d) -/
  hidden : s.dstate ≠ .idle → s.valid = false
  /-- (e) -/
  bounds : s.count.toNat ≤ 127 ∧ s.len.toNat ≤ 255

/-- STATUS is consistent (10_state.md R33, R34; 60_exceptions.md R330 to R332): an error has a code, BUSY and DONE exclude each
other, an operation in flight has no error and shows its own OP, and a sticky flag that is set has its fault mark. -/
structure StatusInv (s : State) : Prop where
  coded : s.err = true ↔ s.ecode ≠ .none
  failedIsDone : s.err = true → s.done = true
  inFlightIsFresh : s.busy = true → s.done = false ∧ s.err = false
  inFlightOp : ∀ i, s.cur = some i → s.op = opcode i
  ovrMarked : s.ovr = true → s.marks.ovr = true
  accerrMarked : s.accerr = true → s.marks.accerr = true
  ovfMarked : s.ovf = true → s.marks.ovf = true

/-- The decoder's own counts (42_stream_decoder.md R232 to R235, 10_state.md R44): what SUM, CNT and BODY hold in each state, and
LEN = COUNT = 0 while VALID = 0. -/
structure DecoderInv (s : State) : Prop where
  atLen : s.dstate = .len → s.sum = magic
  atBody : s.dstate = .body →
    s.cnt.toNat ≤ s.n.toNat ∧ s.sum = magic + s.n + byteSum (s.body.toList.take s.cnt.toNat)
  atValidate : s.dstate = .validate →
    s.cnt.toNat = s.n.toNat + 1 ∧ s.sum = magic + s.n + byteSum (s.body.toList.take (s.n.toNat + 1))
  cleared : s.valid = false → s.len = 0 ∧ s.count = 0

/-- The storage of PYRB keeps its form: ABUF canonical (10_state.md R46), NAMELEN at most 32 (R45), TXPEND of 1 to 513 bytes
(R54). -/
structure StorageInv (s : State) : Prop where
  abufForm : Memory.wf s.abuf = true
  nameFits : s.nameLen.toNat ≤ 32
  pendingFits : ∀ seq, s.txpend = some seq → 1 ≤ seq.length ∧ seq.length ≤ 513

/-- TRIG_OK (43_pose_integrator.md R285): each function within 1 of the exact value at every Q angle, and exact at 0. -/
structure TrigOk (c : Config) : Prop where
  sin : ∀ q : Word, |(fxSin c q : ℝ) - 2 ^ 16 * Real.sin ((q.toInt : ℝ) / 2 ^ 16)| ≤ 1
  cos : ∀ q : Word, |(fxCos c q : ℝ) - 2 ^ 16 * Real.cos ((q.toInt : ℝ) / 2 ^ 16)| ≤ 1
  sinc : ∀ q : Word, q ≠ 0 →
    |(fxSinc c q : ℝ) - 2 ^ 16 * (Real.sin ((q.toInt : ℝ) / 2 ^ 16) / ((q.toInt : ℝ) / 2 ^ 16))| ≤ 1
  versc : ∀ q : Word, q ≠ 0 →
    |(fxVersc c q : ℝ) - 2 ^ 16 * ((1 - Real.cos ((q.toInt : ℝ) / 2 ^ 16)) / ((q.toInt : ℝ) / 2 ^ 16))| ≤ 1
  atZero : fxSin c 0 = 0 ∧ fxCos c 0 = 65536 ∧ fxSinc c 0 = 65536 ∧ fxVersc c 0 = 0

/-- No fault mark is set (10_state.md R35, 70_reset_and_hazards.md R365): no command was dropped, no access refused and no pose result
overflowed so far in the run, whatever has cleared the flags since. -/
def noMarks (s : State) : Bool := !s.marks.ovr && !s.marks.accerr && !s.marks.ovf

/-- OVR = ACCERR = OVF = 0 (R365). -/
def flagsClear (s : State) : Bool := !s.ovr && !s.accerr && !s.ovf

/-- The clean-entry premise for a program whose operations read the ABUF bytes `needed`, with the receive buffer and the error
indication the claim names (R365). The run of the claim starts here, so no fault mark is set yet (log entry 20). The model has no
mark for an unwritten ABUF byte: the run stops there instead (log entry 8). -/
structure CleanEntry (s : State) (needed : List Nat) (rxq : List Byte) (terr : Option TransportCode) : Prop where
  idle : s.busy = false
  clear : flagsClear s = true
  unmarked : noMarks s = true
  written : ∀ i, i ∈ needed → Memory.read s.abuf (abufOffset i) ≠ none
  received : s.rxq = rxq
  indicated : s.terr = terr

/-- The premise at the end of a claim about a program (R365): the flags are still 0, and no fault mark was set on the way. -/
def cleanEnd (s : State) : Bool := flagsClear s && noMarks s

/-- The HOST's action of the next step, if the turn is the HOST's. -/
def hostNext (s : State) : Option HostAction :=
  match s.turns, s.todo with
  | .host :: _, a :: _ => some a
  | _, _ => none

/-- A host action that would write CMD. -/
def writesCmd (c : Config) : HostAction → Bool
  | .write addr bytes _ => inWindow c addr && accessOk (addr - c.base) bytes && decide (regAt (addr - c.base) = .cmd)
  | .read _ _ => false
  | .wait => false

/-- The registers in which a host gets an operation's results back (R375, last row); STATUS is what it waits on. -/
def isResult : Reg → Bool
  | .res _ | .frameInfo | .pbuf _ | .fbuf _ => true
  | .cmd | .status | .arg _ | .poseX | .poseY | .poseTh | .wlX | .wlY | .wrX | .wrY | .prior | .id | .nbuf _ | .abuf _
  | .reserved => false

/-- A host action that would read a result. -/
def readsResult (c : Config) : HostAction → Bool
  | .read addr bytes => inWindow c addr && accessOk (addr - c.base) bytes && isResult (regAt (addr - c.base))
  | .write _ _ _ => false
  | .wait => false

/-- The first duty of R375: the HOST writes no CMD while an operation is BUSY (R366). -/
def writesNoCmdWhileBusy (s : State) : Bool := (hostNext s).all fun a => !(writesCmd s.cfg a && s.busy)

/-- The second duty of R375: while an operation is BUSY, the HOST waits for DONE = 1 before it reads a result (93 I21). -/
def waitsForDone (s : State) : Bool := (hostNext s).all fun a => !(readsResult s.cfg a && s.busy && !s.done)

/-- The HOST keeps both duties in the next step (R375). The model gives it the moves that break them too, with the effects of R337
and R368, so a claim about a host that keeps them takes this as a premise (log entry 22). -/
def keepsDuties (s : State) : Bool := writesNoCmdWhileBusy s && waitsForDone s

/-- The HOST keeps both duties in each of the next k steps. -/
def KeepsDutiesFor : Nat → State → Prop
  | 0, _ => True
  | k + 1, s => keepsDuties s = true ∧ ∀ t, step s = .next t → KeepsDutiesFor k t

/-- The RES registers hold the results of the operation the host started (70_reset_and_hazards.md R368). -/
def resultsMeaningful (i : Instr) (s : State) : Bool := s.done && decide (s.op = opcode i)

/-- The end of a run (R376): the host has executed its last line, and nothing is in flight or pending. -/
def runEnded (s : State) : Bool := s.todo.isEmpty && !s.busy && decide (s.txpend = none)

/-- A fresh decode or encode waits on a transport that gives it nothing (93 I18, 42_stream_decoder.md R243): RXQ is empty and
TERR = none while a byte is needed. -/
def decoderHolds (s : State) : Bool :=
  decide (s.dstate = .seek ∨ s.dstate = .len ∨ s.dstate = .body) && s.rxq.isEmpty && decide (s.terr = none)

/-- The accept of an operation that fails at once (60_exceptions.md R332): DONE, ERR and the code, the info in RES0 and RES1, and
nothing else changed but what an idle PYRB has anyway. -/
def failedAtAccept (i : Instr) (s : State) (code : ECode) (info0 info1 : Nat) : State :=
  { s with
    op := opcode i
    done := true
    err := true
    ecode := code
    cur := none
    dstate := .idle
    txpend := none
    res0 := BitVec.ofNat 32 info0
    res1 := BitVec.ofNat 32 info1 }

/-- The life of an encoder operation whose byte sequence is `seq` (41_command_encoder.md R180): the accept makes it pending and sets
BUSY, with nothing else changed but the cleared status; the handoff then appends the whole of it to TXOUT with RES0 = its length,
or ends with TRANSPORT(c, len) and TXOUT unchanged. -/
def EncoderRuns (i : Instr) (s : State) (seq : List Byte) : Prop :=
  ∃ t, exec i s = .next t ∧
    t = { s with op := opcode i, done := false, err := false, ecode := .none, cur := some i, txpend := some seq } ∧
    (s.terr = none →
      pyrbStep t =
        { t with txpend := none, cur := none, done := true, txout := s.txout ++ seq
                 res0 := BitVec.ofNat 32 seq.length }) ∧
    ∀ c, s.terr = some c →
      pyrbStep t =
        { t with txpend := none, cur := none, done := true, err := true, ecode := .transport
                 res0 := BitVec.ofNat 32 c.val.toNat, res1 := BitVec.ofNat 32 seq.length }

/-- The host has written exactly these bytes from ABUF byte `start` up (10_state.md R46). -/
def AbufHolds (s : State) (start : Nat) (bytes : List Byte) : Prop :=
  ∀ i, i < bytes.length → Memory.read s.abuf (0x100 + start + i) = bytes[i]?

/-- The ids a query reference stands for, if it stands for any (30_encoding.md R129, 40_registry.md R169). -/
def refIds (c : Config) (r : Byte × Byte) : Option (List Byte) :=
  if r.1 = 0 then (sensorAt c r.2).map fun _ => [r.2]
  else if r.1 = 1 then (bulkAt c r.2.toNat).map BulkDesc.members
  else none

/-- The operation the next step accepts: the HOST's next action is an accepted write of CMD with an operation's word, and BUSY = 0
(10_state.md R31). -/
def acceptsNext (s : State) : Option Instr :=
  match s.turns, s.todo with
  | .host :: _, .write addr bytes w :: _ =>
    if inWindow s.cfg addr && accessOk (addr - s.cfg.base) bytes && decide (regAt (addr - s.cfg.base) = .cmd) && !s.busy then
      (decodeWord w).toOption
    else none
  | _, _ => none

/-- The value the next step writes to a register, if the HOST's next action is an accepted write of that register. -/
def writesNext (s : State) (r : Reg) : Option Word :=
  match s.turns, s.todo with
  | .host :: _, .write addr bytes w :: _ =>
    if inWindow s.cfg addr && accessOk (addr - s.cfg.base) bytes && decide (regAt (addr - s.cfg.base) = r) then some w
    else none
  | _, _ => none

/-- The next step is a host access that PYRB refuses (20_memory.md R81). -/
def refusesNext (s : State) : Bool :=
  match s.turns, s.todo with
  | .host :: _, .write addr bytes _ :: _ => inWindow s.cfg addr && !accessOk (addr - s.cfg.base) bytes
  | .host :: _, .read addr bytes :: _ => inWindow s.cfg addr && !accessOk (addr - s.cfg.base) bytes
  | _, _ => false

/-- The next step is RST. -/
def resetsNext (s : State) : Bool := decide (s.turns.head? = some .rst)

end Sys2Proof.Machine
end

