-- ==== Sys2Proof/Certificates/Slice0/Obligations.lean ====
section
/-!
DEFINITION. The statements for the provers, from the spec's numbered rules. Every statement holds for every configuration that meets
its constraints (`cfg.wf`), and none rests on the configuration State.reset happens to carry, but for those about State.reset
itself. Each premise has a witness in Tests/Slice0.lean.
-/

open Sys2Proof Sys2Proof.Machine

/-! ### Decoding and the step -/

/-- R110 to R112: the CMD words that select an operation are the seventeen words OP with RSV = 0, each its own operation; the byte
decoder reads the encoder's bytes back and leaves the rest. -/
def Obligations.CmdWordsDecodeAsEncoded : Prop :=
  (∀ i : Instr, ∀ rest : List Byte, i.wf = true → decode (encode i ++ rest) = .ok (i, rest)) ∧
    ∀ (w : Word) (i : Instr), decodeWord w = .ok i ↔ w = encodeWord i

/-- R111, R112: samples, five words of the operation map with the operations they select, and three illegal words (0x00, 0x0B and
0x101) that select none. CmdWordsDecodeAsEncoded has the general claim. -/
def Obligations.OperationMapSamples : Prop :=
  decodeTableWord 32 0x00000001 = some .encDrive ∧
  decodeTableWord 32 0x0000000A = some .encQueryList ∧
  decodeTableWord 32 0x00000010 = some .decDecode ∧
  decodeTableWord 32 0x00000021 = some .regByName ∧
  decodeTableWord 32 0x00000032 = some .dynReset ∧
  decodeTableWord 32 0x00000000 = none ∧
  decodeTableWord 32 0x0000000B = none ∧
  decodeTableWord 32 0x00000101 = none

/-- R31, R110 (with the model's schedule, log entries 5 and 6): when the next turn is the HOST's and its next action writes a word
that decodes to i to CMD, the step is exec of i at the state with that turn and that action taken off. -/
def Obligations.StepRunsTheWrittenOperation : Prop :=
  ∀ (s : State) (ts : List Turn) (as : List HostAction) (w : Word) (i : Instr),
    s.cfg.wf = true → s.turns = .host :: ts → s.todo = .write s.cfg.base 4 w :: as → decodeWord w = .ok i →
      step s = exec i { s with turns := ts, todo := as }

/-- R112, R336: an illegal command word written while BUSY = 0 completes at once with ILLEGAL_OP(the word, 0) and changes nothing
but STATUS and RES0 to RES1 (DSTATE and TXPEND are those of an idle PYRB already, R56). -/
def Obligations.IllegalCommandCompletesAtOnce : Prop :=
  ∀ (s : State) (w : Word) (e : DecodeError),
    s.cfg.wf = true → InFlightInv s → s.busy = false → decodeWord w = .error e →
      writeReg s w .cmd =
        .next { s with op := cmdOp w, done := true, err := true, ecode := .illegalOp, res0 := w, res1 := 0 }

/-- R337: any word written to CMD while BUSY = 1 is dropped and sets OVR with its fault mark (R35), and nothing else
changes. The fault marks are bits of the model's own (log entry 20). -/
def Obligations.BusyCommandIsDropped : Prop :=
  ∀ (s : State) (w : Word), s.cfg.wf = true → s.busy = true →
    writeReg s w .cmd = .next { s with ovr := true, marks := { s.marks with ovr := true } } ∧
      ∀ i : Instr, exec i s = .next { s with ovr := true, marks := { s.marks with ovr := true } }

/-- No operation is refused, and the one way an operation stops is the unwritten ABUF byte of R46 (93 I3). -/
def Obligations.EveryOperationRuns : Prop :=
  ∀ (i : Instr) (s : State), s.cfg.wf = true →
    (∃ t, exec i s = .next t) ∨ ∃ off, 0x100 ≤ off ∧ off < 0x300 ∧ Memory.read s.abuf off = none ∧
      exec i s = .fault (.abufUnwritten off)

/-! ### Command encoder -/

/-- R182: ENC_DRIVE. Only +32768 is the sentinel. -/
def Obligations.EncDriveSendsClampedSpeedAndRadius : Prop :=
  decodeWord 0x00000001 = .ok .encDrive ∧
  ∀ s : State, s.cfg.wf = true → InFlightInv s → s.busy = false →
    EncoderRuns .encDrive s
      ([137] ++ be16 (clamp s.arg0.toInt (-500) 500) ++
        (if s.arg1 = 0x00008000 then [0x80, 0x00] else be16 (clamp s.arg1.toInt (-2000) 2000)))

/-- R183: ENC_DRIVE_PWM, right first. -/
def Obligations.EncDrivePwmSendsClampedWheels : Prop :=
  decodeWord 0x00000002 = .ok .encDrivePwm ∧
  ∀ s : State, s.cfg.wf = true → InFlightInv s → s.busy = false →
    EncoderRuns .encDrivePwm s
      ([s.cfg.wireOpc.drivePwm] ++ be16 (clamp s.arg0.toInt (-255) 255) ++ be16 (clamp s.arg1.toInt (-255) 255))

/-- R184: ENC_MOTORS_PWM, one byte each. -/
def Obligations.EncMotorsPwmSendsClampedBytes : Prop :=
  decodeWord 0x00000003 = .ok .encMotorsPwm ∧
  ∀ s : State, s.cfg.wf = true → InFlightInv s → s.busy = false →
    EncoderRuns .encMotorsPwm s
      [s.cfg.wireOpc.motorsPwm, u8 (clamp s.arg0.toInt (-127) 127), u8 (clamp s.arg1.toInt (-127) 127),
        u8 (clamp s.arg2.toInt 0 127)]

/-- R12: be16 is the two bytes of the value modulo 65536, high byte first. -/
def Obligations.BigEndianSixteenBits : Prop :=
  ∀ v : Int, ∃ hi lo : Byte, be16 v = [hi, lo] ∧ (hi.toNat * 256 + lo.toNat : Int) = v % 65536

/-- R185: ENC_DISPLAY_ASCII. The first min(n, 4) bytes are read, a..z are upper-cased, and the text is space-padded. -/
def Obligations.EncDisplayAsciiSendsFourCharacters : Prop :=
  decodeWord 0x00000004 = .ok .encDisplayAscii ∧
  ∀ (s : State) (text : List Byte), s.cfg.wf = true → InFlightInv s → s.busy = false →
    text.length = min s.arg0.toNat 4 → AbufHolds s 0 text →
    EncoderRuns .encDisplayAscii s
      ([s.cfg.wireOpc.displayAscii] ++
        (text.map fun b => if 0x61 ≤ b.toNat ∧ b.toNat ≤ 0x7A then BitVec.ofNat 8 (b.toNat - 0x20) else b) ++
        List.replicate (4 - text.length) 0x20)

/-- R186: ENC_DEFINE_SONG. Unequal counts, and counts over 255, fail with ARG before any ABUF byte is read; otherwise notes and
durations are sent in pairs. -/
def Obligations.EncDefineSongSendsPairs : Prop :=
  decodeWord 0x00000005 = .ok .encDefineSong ∧
  ∀ s : State, s.cfg.wf = true → InFlightInv s → s.busy = false →
    (s.arg1 ≠ s.arg2 →
      exec .encDefineSong s = .next (failedAtAccept .encDefineSong s .arg s.arg1.toNat s.arg2.toNat)) ∧
    (255 < s.arg1.toNat →
      exec .encDefineSong s = .next (failedAtAccept .encDefineSong s .arg s.arg1.toNat s.arg2.toNat)) ∧
    ∀ notes durs : List Byte, s.arg1 = s.arg2 → s.arg1.toNat ≤ 255 →
      notes.length = s.arg1.toNat → durs.length = s.arg2.toNat → AbufHolds s 0 notes → AbufHolds s 256 durs →
      EncoderRuns .encDefineSong s
        ([s.cfg.wireOpc.song, s.arg0.extractLsb' 0 8, s.arg1.extractLsb' 0 8] ++
          (notes.zip durs).flatMap fun p => [p.1, p.2])

/-- R187 to R190: each bit-flag command sends its opcode and one status byte, whose bit j is set exactly when j is the position of
a set flag among the command's k flags. -/
def Obligations.BitFlagCommandsSendOneStatusByte : Prop :=
  decodeWord 0x00000006 = .ok .encLeds ∧ decodeWord 0x00000007 = .ok .encMotors ∧ decodeWord 0x00000008 = .ok .encButtons ∧
  ∀ s : State, s.cfg.wf = true → InFlightInv s → s.busy = false →
    ∀ row ∈ [(Instr.encLeds, s.cfg.wireOpc.leds, s.cfg.flagPos.leds),
             (Instr.encMotors, s.cfg.wireOpc.motors, s.cfg.flagPos.motors),
             (Instr.encButtons, s.cfg.wireOpc.buttons, s.cfg.flagPos.buttons)],
      ∃ status : Byte, EncoderRuns row.1 s [row.2.1, status] ∧
        ∀ j : Fin 8, status.getLsbD j.val = true ↔ ∃ i, i < 8 ∧ row.2.2[i]? = some j ∧ s.arg0.getLsbD i = true

/-- R191: ENC_BAUD sends the code of a listed rate and fails with CONFIG(rate, 0) for any other rate. -/
def Obligations.EncBaudSendsCodeOrFails : Prop :=
  decodeWord 0x00000009 = .ok .encBaud ∧
  ∀ s : State, s.cfg.wf = true → InFlightInv s → s.busy = false →
    (∀ code : Byte, (s.arg0, code) ∈ s.cfg.baud → EncoderRuns .encBaud s [s.cfg.wireOpc.baud, code]) ∧
    ((∀ code : Byte, (s.arg0, code) ∉ s.cfg.baud) →
      exec .encBaud s = .next (failedAtAccept .encBaud s .config s.arg0.toNat 0))

/-- R192, R169, R129: ENC_QUERY_LIST. More than 256 references fail with ARG(m, 0); the first reference that stands for no id
decides the error; more than 255 ids fail with ARG(count, 1); otherwise the ids are sent in reference order. -/
def Obligations.EncQueryListExpandsReferencesInOrder : Prop :=
  decodeWord 0x0000000A = .ok .encQueryList ∧
  ∀ s : State, s.cfg.wf = true → InFlightInv s → s.busy = false →
    (256 < s.arg0.toNat →
      exec .encQueryList s = .next (failedAtAccept .encQueryList s .arg s.arg0.toNat 0)) ∧
    ∀ refs : List (Byte × Byte), s.arg0.toNat ≤ 256 → refs.length = s.arg0.toNat →
      AbufHolds s 0 (refs.flatMap fun r => [r.1, r.2]) →
      (∀ (j : Nat) (k x : Byte), refs[j]? = some (k, x) → refIds s.cfg (k, x) = none →
        (∀ i r, i < j → refs[i]? = some r → refIds s.cfg r ≠ none) →
          exec .encQueryList s = .next
            (if k = 0 then failedAtAccept .encQueryList s .unknownSensor x.toNat j
             else if k = 1 then failedAtAccept .encQueryList s .unknownSensor (256 + x.toNat) j
             else failedAtAccept .encQueryList s .arg k.toNat j)) ∧
      ((∀ r ∈ refs, refIds s.cfg r ≠ none) →
        let ids := refs.flatMap fun r => (refIds s.cfg r).getD []
        if ids.length ≤ 255 then
          EncoderRuns .encQueryList s ([s.cfg.wireOpc.queryList, BitVec.ofNat 8 ids.length] ++ ids)
        else exec .encQueryList s = .next (failedAtAccept .encQueryList s .arg ids.length 1))

/-- R46, 93 I3: an operation that would read an ABUF byte the host has not written stops there. Which byte the fault names, the first
unwritten one in the order of reading, notes before durations, is the model's choice (log entry 8). -/
def Obligations.UnwrittenOperandByteFaults : Prop :=
  (∀ (s : State) (j : Nat), s.cfg.wf = true → s.busy = false →
    (∀ i, i < j → Memory.read s.abuf (0x100 + i) ≠ none) → Memory.read s.abuf (0x100 + j) = none →
    (j < min s.arg0.toNat 4 → exec .encDisplayAscii s = .fault (.abufUnwritten (0x100 + j))) ∧
    (s.arg1 = s.arg2 → s.arg1.toNat ≤ 255 → j < s.arg1.toNat →
      exec .encDefineSong s = .fault (.abufUnwritten (0x100 + j))) ∧
    (s.arg0.toNat ≤ 256 → j < 2 * s.arg0.toNat → exec .encQueryList s = .fault (.abufUnwritten (0x100 + j))) ∧
    (s.arg0.toNat ≤ 32 → j < s.arg0.toNat → exec .regByName s = .fault (.abufUnwritten (0x100 + j)))) ∧
  ∀ (s : State) (j : Nat), s.cfg.wf = true → s.busy = false → s.arg1 = s.arg2 → s.arg1.toNat ≤ 255 → j < s.arg1.toNat →
    (∀ i, i < s.arg1.toNat → Memory.read s.abuf (0x100 + i) ≠ none) →
    (∀ i, i < j → Memory.read s.abuf (0x200 + i) ≠ none) → Memory.read s.abuf (0x200 + j) = none →
      exec .encDefineSong s = .fault (.abufUnwritten (0x200 + j))

/-- The frame of the encoder operations: an accept changes STATUS and TXPEND, and on a failure RES0 and RES1; every other register
and every byte of ABUF stays. The fault marks are bits of the model's own (log entry 20). -/
def Obligations.EncoderAcceptFrame : Prop :=
  ∀ (i : Instr) (s t : State), isEncoder i = true → exec i s = .next t →
    (t.arg0 = s.arg0 ∧ t.arg1 = s.arg1 ∧ t.arg2 = s.arg2) ∧ (t.res2 = s.res2 ∧ t.res3 = s.res3) ∧
    (t.err = false → t.res0 = s.res0 ∧ t.res1 = s.res1) ∧
    (t.poseX = s.poseX ∧ t.poseY = s.poseY ∧ t.poseTh = s.poseTh) ∧
    (t.priorL = s.priorL ∧ t.priorR = s.priorR ∧ t.priorValid = s.priorValid) ∧
    (t.n = s.n ∧ t.cnt = s.cnt ∧ t.sum = s.sum ∧ t.body = s.body ∧ t.entry = s.entry) ∧
    (t.valid = s.valid ∧ t.len = s.len ∧ t.count = s.count ∧ t.junk = s.junk) ∧
    (t.nameLen = s.nameLen ∧ t.name = s.name) ∧ (t.accerr = s.accerr ∧ t.ovf = s.ovf) ∧
    (s.busy = false → t.ovr = s.ovr ∧ t.marks = s.marks) ∧ (t.rxq = s.rxq ∧ t.terr = s.terr ∧ t.txout = s.txout) ∧
    ∀ a, Memory.read t.abuf a = Memory.read s.abuf a

/-! ### Stream decoder -/

/-- R231: the accept of DEC_DECODE, in full; in the state after it PBUF and FBUF read 0. -/
def Obligations.DecDecodeBeginsInSeek : Prop :=
  decodeWord 0x00000010 = .ok .decDecode ∧
  ∀ s : State, s.cfg.wf = true → s.busy = false →
    ∃ t, exec .decDecode s = .next t ∧
      t = { s with op := 0x10, done := false, err := false, ecode := .none, cur := some .decDecode, dstate := .seek
                   valid := false, len := 0, count := 0, junk := 0 } ∧
      (∀ k : Fin 64, readReg t (.pbuf k) = .ok 0) ∧ ∀ k : Fin 256, readReg t (.fbuf k) = .ok 0

/-- R232 to R234: the byte steps. -/
def Obligations.ByteStepsFollowTheFrame : Prop :=
  ∀ (s : State) (b : Byte) (rest : List Byte), s.rxq = b :: rest →
    (s.dstate = .seek → b = 19 → pyrbStep s = { s with rxq := rest, sum := 19, dstate := .len }) ∧
    (s.dstate = .seek → b ≠ 19 →
      pyrbStep s = { s with rxq := rest, junk := BitVec.ofNat 16 (min (s.junk.toNat + 1) 65535) }) ∧
    (s.dstate = .len → pyrbStep s = { s with rxq := rest, n := b, sum := s.sum + b, cnt := 0, dstate := .body }) ∧
    (s.dstate = .body → s.cnt.toNat ≤ s.n.toNat →
      ∃ t, pyrbStep s = t ∧
        t = { s with rxq := rest, sum := s.sum + b, cnt := t.cnt, body := t.body, dstate := t.dstate } ∧
        t.cnt.toNat = s.cnt.toNat + 1 ∧
        (∀ j, t.body.toList[j]? = if j = s.cnt.toNat then some b else s.body.toList[j]?) ∧
        (t.dstate = .validate ↔ s.cnt.toNat = s.n.toNat) ∧ (t.dstate = .body ↔ s.cnt.toNat ≠ s.n.toNat))

/-- R96, R241, R243: with RXQ empty, a transport error ends the decode with TRANSPORT(code, the state it failed in), and without
one PYRB holds. A byte that has arrived is used whatever TERR holds. -/
def Obligations.EmptyReceiveBufferFailsOrHolds : Prop :=
  ∀ s : State, s.dstate = .seek ∨ s.dstate = .len ∨ s.dstate = .body →
    (∀ c, s.rxq = [] → s.terr = some c →
      pyrbStep s =
        { s with dstate := .idle, txpend := none, cur := none, done := true, err := true, ecode := .transport
                 res0 := BitVec.ofNat 32 c.val.toNat, res1 := (dstateBits s.dstate).setWidth 32 }) ∧
    (s.rxq = [] → s.terr = none → pyrbStep s = s) ∧
    ∀ c, s.rxq ≠ [] → pyrbStep { s with terr := c } = { pyrbStep s with terr := c }

/-- R236, R98: a nonzero sum flushes RXQ and fails with CHECKSUM(SUM, N). -/
def Obligations.ChecksumFailureFlushes : Prop :=
  ∀ s : State, s.dstate = .validate → s.sum ≠ 0 →
    pyrbStep s =
      { s with rxq := [], dstate := .idle, txpend := none, cur := none, done := true, err := true, ecode := .checksum
               res0 := s.sum.setWidth 32, res1 := s.n.setWidth 32 }

/-- R238 to R240: with a zero sum, the first field that is unknown, or that passes the payload's end, decides; no frame is shown
and RXQ is kept. `good` are the fields before it. -/
def Obligations.FirstBadFieldDecidesTheError : Prop :=
  ∀ (s : State) (good : List SensorField) (id : Byte) (tail : List Byte),
    s.cfg.wf = true → s.dstate = .validate → s.sum = 0 → s.valid = false → fieldsOk s.cfg good = true →
    s.n.toNat = (payloadOf good ++ id :: tail).length →
    s.body.toList.take s.n.toNat = payloadOf good ++ id :: tail →
    (sensorAt s.cfg id = none →
      ∃ table, pyrbStep s =
        { s with entry := table, dstate := .idle, txpend := none, cur := none, done := true, err := true
                 ecode := .unknownSensor, res0 := id.setWidth 32
                 res1 := BitVec.ofNat 32 (payloadOf good).length }) ∧
    ∀ d, sensorAt s.cfg id = some d → tail.length < fmtWidth d.fmt →
      ∃ table, pyrbStep s =
        { s with entry := table, dstate := .idle, txpend := none, cur := none, done := true, err := true
                 ecode := .malformedFrame, res0 := id.setWidth 32
                 res1 := BitVec.ofNat 32 (payloadOf good).length }

/-- R246: a frame built around any payload passes the checksum. -/
def Obligations.BuiltFramePassesTheChecksum : Prop :=
  ∀ (s : State) (payload rest : List Byte),
    s.dstate = .seek → payload.length ≤ 255 → s.rxq = buildFrame payload ++ rest →
      let t := pyrbStep^[payload.length + 3] s
      t.dstate = .validate ∧ t.sum = 0 ∧ t.n.toNat = payload.length ∧ t.rxq = rest ∧
        t.body.toList.take payload.length = payload ∧ (s.ecode ≠ .checksum → (pyrbStep t).ecode ≠ .checksum)

/-- R247, 90_conflicts.md C2: junk without the magic byte changes the outcome in JUNK alone, which counts it, saturating. -/
def Obligations.JunkWithoutMagicChangesOnlyTheJunkCount : Prop :=
  ∀ (s : State) (junk frame : List Byte) (k : Nat),
    s.dstate = .seek → (19 : Byte) ∉ junk →
      let with_junk := pyrbStep^[junk.length + k] { s with rxq := junk ++ frame }
      let without := pyrbStep^[k] { s with rxq := frame }
      with_junk = { without with junk := with_junk.junk } ∧
        (frame.head? = some 19 → with_junk.junk.toNat = min (s.junk.toNat + junk.length) 65535)

/-- R248, R237, R377: a frame built from fields the registry knows, with values in the range of their formats, decodes in N + 4 PYRB
steps after the accept, to one entry per field in order, each with the field's value; PBUF shows the payload. -/
def Obligations.BuiltFrameDecodesToItsFields : Prop :=
  ∀ (s : State) (fields : List SensorField) (rest : List Byte),
    s.cfg.wf = true → s.dstate = .seek → s.cur = some .decDecode → fieldsOk s.cfg fields = true →
    (payloadOf fields).length ≤ 255 → s.rxq = buildFrame (payloadOf fields) ++ rest →
      let t := pyrbStep^[(payloadOf fields).length + 4] s
      t.dstate = .idle ∧ t.cur = none ∧ t.done = true ∧ t.err = false ∧ t.ecode = .none ∧ t.rxq = rest ∧
      t.valid = true ∧ t.len.toNat = (payloadOf fields).length ∧ t.count.toNat = fields.length ∧
      t.res0.toNat = fields.length ∧ t.res1.toNat = (payloadOf fields).length ∧ t.res2 = s.res2 ∧ t.res3 = s.res3 ∧
      (∀ e, e < fields.length → (entriesFrom 0 fields)[e]? = some (t.fbufEntry e)) ∧
      (∀ e f, fields[e]? = some f → ∀ x, f.value = .num x →
        (t.fbufEntry e).word1 = BitVec.ofInt 32 x ∧ entryId (t.fbufEntry e) = f.id) ∧
      (∀ e f, fields[e]? = some f → ∀ v, f.value = .bytes v →
        (List.range v.length).map (fun i => t.pbufByte (entryOff (t.fbufEntry e) + i)) = v) ∧
      ∀ j, j < (payloadOf fields).length → (payloadOf fields)[j]? = some (t.pbufByte j)

/-- R244, R126: the mapping view of the frame FBUF shows. Its keys are the distinct ids in the order of their first occurrence, and
each id has the value of its last entry; a block's value is its bytes in PBUF. -/
def Obligations.FrameMappingIsOrderedByFirstOccurrence : Prop :=
  ∀ s : State,
    let entries := shownEntries s
    let keys := (frameMapping s).map Prod.fst
    let value := fun (e : Entry) =>
      if (e.word0.extractLsb' 8 3).toNat = 4 then
        Value.bytes ((List.range (e.word0.extractLsb' 16 8).toNat).map fun i => s.pbufByte ((e.word0.extractLsb' 24 8).toNat + i))
      else if (e.word0.extractLsb' 8 3).toNat = 1 ∨ (e.word0.extractLsb' 8 3).toNat = 3 then Value.num e.word1.toInt
      else Value.num e.word1.toNat
    (∀ i : Nat, entries[i]? = if s.valid = true ∧ i < s.count.toNat then some (s.fbufEntry i) else none) ∧
    keys.Nodup ∧ (∀ id, id ∈ keys ↔ ∃ e ∈ entries, entryId e = id) ∧
    (∀ (i j : Nat) (a b : Byte), i < j → keys[i]? = some a → keys[j]? = some b →
      (entries.map entryId).idxOf a < (entries.map entryId).idxOf b) ∧
    ∀ before after e, entries = before ++ e :: after → (∀ f ∈ after, entryId f ≠ entryId e) →
      (entryId e, value e) ∈ frameMapping s

/-- R230: DSTATE moves through the table's transitions only, and RST puts it to IDLE. -/
def Obligations.DecoderStateTransitions : Prop :=
  ∀ s t : State, InFlightInv s → step s = .next t → t.dstate ≠ s.dstate →
    (s.dstate, t.dstate) ∈ [(DState.seek, DState.len), (.len, .body), (.body, .validate), (.validate, .idle)] ∨
    (s.dstate = .idle ∧ t.dstate = .seek ∧ acceptsNext s = some .decDecode) ∨
    (t.dstate = .idle ∧ t.ecode = .transport ∧ s.rxq = [] ∧ s.terr ≠ none) ∨
    (t.dstate = .idle ∧ resetsNext s = true)

/-- The frame of DEC_DECODE's accept: results, pose, prior, name, operands, transport and every byte of ABUF stay. The fault marks
are bits of the model's own (log entry 20). -/
def Obligations.DecDecodeAcceptFrame : Prop :=
  ∀ s t : State, exec .decDecode s = .next t →
    (t.arg0 = s.arg0 ∧ t.arg1 = s.arg1 ∧ t.arg2 = s.arg2) ∧
    (t.res0 = s.res0 ∧ t.res1 = s.res1 ∧ t.res2 = s.res2 ∧ t.res3 = s.res3) ∧
    (t.poseX = s.poseX ∧ t.poseY = s.poseY ∧ t.poseTh = s.poseTh) ∧
    (t.priorL = s.priorL ∧ t.priorR = s.priorR ∧ t.priorValid = s.priorValid) ∧
    (t.nameLen = s.nameLen ∧ t.name = s.name) ∧ (t.accerr = s.accerr ∧ t.ovf = s.ovf) ∧
    (s.busy = false → t.ovr = s.ovr ∧ t.marks = s.marks) ∧ t.txpend = s.txpend ∧
    (t.rxq = s.rxq ∧ t.terr = s.terr ∧ t.txout = s.txout) ∧
    ∀ a, Memory.read t.abuf a = Memory.read s.abuf a

/-! ### Sensor registry -/

/-- R164: REG_BY_ID, both outcomes. -/
def Obligations.RegByIdReturnsTheDescriptor : Prop :=
  decodeWord 0x00000020 = .ok .regById ∧
  ∀ s : State, s.cfg.wf = true → InFlightInv s → s.busy = false →
    let id : Byte := s.arg0.extractLsb' 0 8
    ((∀ d, (id, d) ∉ s.cfg.sensors) →
      exec .regById s = .next { failedAtAccept .regById s .unknownSensor id.toNat 0 with nameLen := 0 }) ∧
    ∀ d, (id, d) ∈ s.cfg.sensors →
      ∃ t, exec .regById s = .next t ∧
        t = { s with op := 0x20, done := true, err := false, ecode := .none, cur := none, res0 := t.res0, res1 := t.res1
                     nameLen := t.nameLen, name := t.name } ∧
        t.res0.toNat = fmtWidth d.fmt * 65536 + (fmtCode d.fmt).toNat * 256 + id.toNat ∧
        t.res1.toNat = d.name.length ∧ ∀ i, t.nbufByte i = d.name.getD i 0

/-- R165: REG_BY_NAME. The length is checked first; the name is compared exactly; a bulk descriptor is tagged with bit 31. -/
def Obligations.RegByNameFindsTheExactName : Prop :=
  decodeWord 0x00000021 = .ok .regByName ∧
  ∀ s : State, s.cfg.wf = true → InFlightInv s → s.busy = false →
    (s.arg0.toNat = 0 ∨ 32 < s.arg0.toNat →
      exec .regByName s = .next { failedAtAccept .regByName s .arg s.arg0.toNat 0 with nameLen := 0 }) ∧
    ∀ name : List Byte, name.length = s.arg0.toNat → 1 ≤ name.length → name.length ≤ 32 → AbufHolds s 0 name →
      ((∀ e ∈ s.cfg.sensors, e.2.name ≠ name) → (∀ b ∈ s.cfg.bulks, b.name ≠ name) →
        exec .regByName s =
          .next { failedAtAccept .regByName s .unknownSensor 0xFFFFFFFF name.length with nameLen := 0 }) ∧
      ∀ w : Nat,
        (∃ id d, (id, d) ∈ s.cfg.sensors ∧ d.name = name ∧
          w = fmtWidth d.fmt * 65536 + (fmtCode d.fmt).toNat * 256 + id.toNat) ∨
        (∃ (b : Nat) (bd : BulkDesc), s.cfg.bulks[b]? = some bd ∧ bd.name = name ∧
          w = 2147483648 + bd.members.length * 65536 + b) →
        ∃ t, exec .regByName s = .next t ∧
          t = { s with op := 0x21, done := true, err := false, ecode := .none, cur := none, res0 := t.res0, res1 := t.res1
                       nameLen := t.nameLen, name := t.name } ∧
          t.res0.toNat = w ∧ t.res1.toNat = name.length ∧ ∀ i, t.nbufByte i = name.getD i 0

/-- R166: REG_BULK_MEMBER, all three outcomes. -/
def Obligations.RegBulkMemberReturnsTheMember : Prop :=
  decodeWord 0x00000022 = .ok .regBulkMember ∧
  ∀ s : State, s.cfg.wf = true → InFlightInv s → s.busy = false →
    let b := s.arg0.toNat
    let p := s.arg1.toNat
    (s.cfg.bulks[b]? = none → exec .regBulkMember s = .next (failedAtAccept .regBulkMember s .unknownSensor b p)) ∧
    ∀ bd, s.cfg.bulks[b]? = some bd →
      (bd.members.length ≤ p →
        exec .regBulkMember s = .next (failedAtAccept .regBulkMember s .arg p bd.members.length)) ∧
      ∀ id, bd.members[p]? = some id →
        ∃ d, (id, d) ∈ s.cfg.sensors ∧
          exec .regBulkMember s = .next
            { s with op := 0x22, done := true, err := false, ecode := .none, cur := none
                     res0 := BitVec.ofNat 32 (fmtWidth d.fmt * 65536 + (fmtCode d.fmt).toNat * 256 + id.toNat)
                     res1 := s.arg1 }

/-- R168: if REG_BY_NAME finds a scalar entry with RES0 = w, REG_BY_ID of w[7:0] gives the same RES0, RES1 and NBUF. -/
def Obligations.LookupByNameAndByIdAgree : Prop :=
  ∀ (s t : State), s.cfg.wf = true → InFlightInv s → s.busy = false → exec .regByName s = .next t →
    t.err = false → t.res0.getLsbD 31 = false →
      ∃ u, exec .regById { t with arg0 := (t.res0.extractLsb' 0 8).setWidth 32 } = .next u ∧
        u.err = false ∧ u.res0 = t.res0 ∧ u.res1 = t.res1 ∧ ∀ k : Fin 8, readReg u (.nbuf k) = readReg t (.nbuf k)

/-- The frame of the registry operations: only STATUS, RES0, RES1 and the name register change. The fault marks are bits of the
model's own (log entry 20). -/
def Obligations.RegistryFrame : Prop :=
  ∀ (i : Instr) (s t : State), isRegistry i = true → exec i s = .next t →
    (t.arg0 = s.arg0 ∧ t.arg1 = s.arg1 ∧ t.arg2 = s.arg2) ∧ (t.res2 = s.res2 ∧ t.res3 = s.res3) ∧
    (t.poseX = s.poseX ∧ t.poseY = s.poseY ∧ t.poseTh = s.poseTh) ∧
    (t.priorL = s.priorL ∧ t.priorR = s.priorR ∧ t.priorValid = s.priorValid) ∧
    (t.n = s.n ∧ t.cnt = s.cnt ∧ t.sum = s.sum ∧ t.body = s.body ∧ t.entry = s.entry) ∧
    (t.valid = s.valid ∧ t.len = s.len ∧ t.count = s.count ∧ t.junk = s.junk) ∧
    (i = .regBulkMember → t.nameLen = s.nameLen ∧ t.name = s.name) ∧
    (t.accerr = s.accerr ∧ t.ovf = s.ovf) ∧ (s.busy = false → t.ovr = s.ovr ∧ t.marks = s.marks) ∧
    (t.rxq = s.rxq ∧ t.terr = s.terr ∧ t.txout = s.txout) ∧ t.cfg = s.cfg ∧
    ∀ a, Memory.read t.abuf a = Memory.read s.abuf a

/-! ### Pose integrator -/

/-- R287: DYN_NORMALIZE, the first sample and any later one. The tick delta is (new - prior) modulo 65536 (R288). The fault marks
are bits of the model's own (log entry 20). -/
def Obligations.DynNormalizeGivesWheelDistances : Prop :=
  decodeWord 0x00000030 = .ok .dynNormalize ∧
  ∀ s : State, s.cfg.wf = true → InFlightInv s → s.busy = false →
    let newL : BitVec 16 := s.arg0.extractLsb' 0 16
    let newR : BitVec 16 := s.arg1.extractLsb' 0 16
    let rawL := (newL - s.priorL).toNat
    let rawR := (newR - s.priorR).toNat
    let dL := rnd ((rawL : Int) * s.cfg.kRaw.toNat) 8
    let dR := rnd ((rawR : Int) * s.cfg.kRaw.toNat) 8
    (s.priorValid = false →
      exec .dynNormalize s = .next
        { failedAtAccept .dynNormalize s .noPrior newL.toNat newR.toNat with
          priorL := newL, priorR := newR, priorValid := true }) ∧
    (s.priorValid = true →
      exec .dynNormalize s = .next
        { s with op := 0x30, done := true, err := false, ecode := .none, cur := none
                 priorL := newL, priorR := newR, priorValid := true
                 res0 := wrap32 dL, res1 := wrap32 dR, res2 := BitVec.ofNat 32 rawL, res3 := BitVec.ofNat 32 rawR
                 ovf := s.ovf || !(fits32 dL && fits32 dR)
                 marks := { s.marks with ovf := s.marks.ovf || !(fits32 dL && fits32 dR) } })

/-- R288: DELTA16 is in 0 to 65535, congruent to the difference of the samples, and 46 for the source's rollover example. -/
def Obligations.WrapHeuristicDelta : Prop :=
  (∀ p n : BitVec 16, 0 ≤ delta16 p n ∧ delta16 p n ≤ 65535 ∧
    (p.toNat ≤ n.toNat → delta16 p n = (n.toNat : Int) - p.toNat) ∧
    (n.toNat < p.toNat → delta16 p n = (n.toNat : Int) - ((p.toNat : Int) - 65536))) ∧
  delta16 65500 10 = 46

/-- R290: DYN_UPDATE, with dt = 0 checked first, and the translation and the rotation branch by exact equality of the
two distances. The fault marks are bits of the model's own (log entry 20). -/
def Obligations.DynUpdateMovesThePose : Prop :=
  decodeWord 0x00000031 = .ok .dynUpdate ∧
  ∀ s : State, s.cfg.wf = true → InFlightInv s → s.busy = false →
    let dL := s.arg0.toInt
    let dR := s.arg1.toInt
    let cosTh := fxCos s.cfg s.poseTh
    let sinTh := fxSin s.cfg s.poseTh
    let moved := fun (mx my : Int) (phi : Word) (wraps : Bool) =>
      let x := s.poseX.toInt + mx
      let y := s.poseY.toInt + my
      let th := s.poseTh.toInt + phi.toInt
      { s with op := 0x31, done := true, err := false, ecode := .none, cur := none
               poseX := wrap32 x, poseY := wrap32 y, poseTh := wrap32 th
               res0 := wrap32 mx, res1 := wrap32 my, res2 := phi
               ovf := s.ovf || wraps || !(fits32 x && fits32 y && fits32 th)
               marks := { s.marks with ovf := s.marks.ovf || wraps || !(fits32 x && fits32 y && fits32 th) } }
    (s.arg2 = 0 → exec .dynUpdate s = .next (failedAtAccept .dynUpdate s .zeroTime 0 0)) ∧
    (s.arg2 ≠ 0 → dL = dR →
      exec .dynUpdate s = .next (moved (rnd (dL * cosTh) 16) (rnd (dL * sinTh) 16) 0 false)) ∧
    (s.arg2 ≠ 0 → dL ≠ dR →
      let angle := divr ((dR - dL) * 65536) (2 * (s.cfg.rRaw.toNat : Int))
      let phi := wrap32 angle
      let si := fxSinc s.cfg phi
      let ve := fxVersc s.cfg phi
      exec .dynUpdate s = .next
        (moved (rnd ((dL + dR) * (si * cosTh - ve * sinTh)) 33) (rnd ((dL + dR) * (si * sinTh + ve * cosTh)) 33) phi
          (!fits32 angle)))

/-- R296, R290: standing still changes no pose register and no OVF; a spin in place keeps the position. The fault marks are bits of
the model's own (log entry 20). -/
def Obligations.StandstillAndSpinKeepThePosition : Prop :=
  ∀ s : State, s.cfg.wf = true → s.busy = false → s.arg2 ≠ 0 →
    (s.arg0 = 0 → s.arg1 = 0 →
      ∃ t, exec .dynUpdate s = .next t ∧ t.poseX = s.poseX ∧ t.poseY = s.poseY ∧ t.poseTh = s.poseTh ∧
        t.res0 = 0 ∧ t.res1 = 0 ∧ t.res2 = 0 ∧ t.ovf = s.ovf ∧ t.marks = s.marks ∧ t.err = false) ∧
    (s.arg0.toInt = -s.arg1.toInt →
      ∃ t, exec .dynUpdate s = .next t ∧ t.poseX = s.poseX ∧ t.poseY = s.poseY ∧
        t.poseTh = s.poseTh + t.res2 ∧ t.err = false)

/-- R297, R42: DYN_RESET changes the pose alone; the wheel points then read (0, R_RAW) and (0, -R_RAW). -/
def Obligations.DynResetPutsThePoseAtTheOrigin : Prop :=
  decodeWord 0x00000032 = .ok .dynReset ∧
  ∀ s : State, s.cfg.wf = true → s.busy = false →
    ∃ t, exec .dynReset s = .next t ∧
      t = { s with op := 0x32, done := true, err := false, ecode := .none, cur := none, poseX := 0, poseY := 0
                   poseTh := 0 } ∧
      readReg t .wlX = .ok 0 ∧ readReg t .wlY = .ok s.cfg.rRaw ∧ readReg t .wrX = .ok 0 ∧
      readReg t .wrY = .ok (-s.cfg.rRaw)

/-- The frame of the pose operations: besides STATUS and the RES registers only the pose, the prior sample and OVF change, and
DYN_RESET keeps RES, the prior and OVF, DYN_UPDATE the prior and RES3, DYN_NORMALIZE the pose. The fault marks are bits of the
model's own (log entry 20). -/
def Obligations.PoseFrame : Prop :=
  ∀ (i : Instr) (s t : State), isPose i = true → exec i s = .next t →
    (t.arg0 = s.arg0 ∧ t.arg1 = s.arg1 ∧ t.arg2 = s.arg2) ∧
    (t.n = s.n ∧ t.cnt = s.cnt ∧ t.sum = s.sum ∧ t.body = s.body ∧ t.entry = s.entry) ∧
    (t.valid = s.valid ∧ t.len = s.len ∧ t.count = s.count ∧ t.junk = s.junk) ∧
    (t.nameLen = s.nameLen ∧ t.name = s.name) ∧ t.accerr = s.accerr ∧ t.marks.accerr = s.marks.accerr ∧
    (s.busy = false → t.ovr = s.ovr ∧ t.marks.ovr = s.marks.ovr) ∧
    (t.rxq = s.rxq ∧ t.terr = s.terr ∧ t.txout = s.txout) ∧ t.cfg = s.cfg ∧
    (i = .dynNormalize → t.poseX = s.poseX ∧ t.poseY = s.poseY ∧ t.poseTh = s.poseTh) ∧
    (i = .dynUpdate → t.priorL = s.priorL ∧ t.priorR = s.priorR ∧ t.priorValid = s.priorValid ∧ t.res3 = s.res3) ∧
    (i = .dynReset → t.priorL = s.priorL ∧ t.priorR = s.priorR ∧ t.priorValid = s.priorValid ∧ t.ovf = s.ovf ∧
      t.marks.ovf = s.marks.ovf ∧
      t.res0 = s.res0 ∧ t.res1 = s.res1 ∧ t.res2 = s.res2 ∧ t.res3 = s.res3) ∧
    ∀ a, Memory.read t.abuf a = Memory.read s.abuf a

/-- R13: RND and DIVR give the nearest integer, ties toward positive infinity. -/
def Obligations.RoundingIsToNearestTiesUp : Prop :=
  (∀ (v : Int) (s : Nat), 1 ≤ s → 2 ^ s * (2 * rnd v s - 1) ≤ 2 * v ∧ 2 * v < 2 ^ s * (2 * rnd v s + 1)) ∧
  ∀ n d : Int, 0 < d → d * (2 * divr n d - 1) ≤ 2 * n ∧ 2 * n < d * (2 * divr n d + 1)

/-- R283: where no readout wraps, the midpoint of the wheel points is the position exactly, and their half-distance is R_RAW to
within R_RAW·2^-15 + 1, wherever TRIG has the accuracy of R285 at the heading. -/
def Obligations.WheelPointsKeepTheirDistance : Prop :=
  ∀ s : State, s.cfg.wf = true →
    let w := s.wheels
    let px := rnd ((s.cfg.rRaw.toNat : Int) * fxSin s.cfg s.poseTh) 16
    let py := rnd ((s.cfg.rRaw.toNat : Int) * fxCos s.cfg s.poseTh) 16
    fits32 (s.poseX.toInt + px) = true → fits32 (s.poseX.toInt - px) = true →
    fits32 (s.poseY.toInt + py) = true → fits32 (s.poseY.toInt - py) = true →
      w.wlX.toInt + w.wrX.toInt = 2 * s.poseX.toInt ∧ w.wlY.toInt + w.wrY.toInt = 2 * s.poseY.toInt ∧
      (|(fxSin s.cfg s.poseTh : ℝ) - 2 ^ 16 * Real.sin ((s.poseTh.toInt : ℝ) / 2 ^ 16)| ≤ 1 →
       |(fxCos s.cfg s.poseTh : ℝ) - 2 ^ 16 * Real.cos ((s.poseTh.toInt : ℝ) / 2 ^ 16)| ≤ 1 →
        |Real.sqrt (((w.wrX.toInt : ℝ) - w.wlX.toInt) ^ 2 + ((w.wrY.toInt : ℝ) - w.wlY.toInt) ^ 2) / 2 - s.cfg.rRaw.toNat|
          ≤ (s.cfg.rRaw.toNat : ℝ) / 2 ^ 15 + 1)

/-- R285, R286: the default TRIG of the model, the computed TRIG_RN (log entry 4), is TRIG_OK. -/
def Obligations.ComputedDefaultTrigIsAccurate : Prop :=
  ∀ c : Config, c.trig = [] → TrigOk c

/-! ### Registers, the bus and the agents -/

/-- R32, R37, R43, R44, R55, R330: every field of STATUS, FRAME_INFO and PRIOR at its place, the codes of ECODE and DSTATE, reserved
bits 0; these words are what the registers read; and the W1C write of STATUS. -/
def Obligations.StatusFieldsAndTheirClearing : Prop :=
  ∀ s : State,
    (readReg s .status = .ok s.statusWord ∧ readReg s .frameInfo = .ok s.frameInfoWord ∧
      readReg s .prior = .ok s.priorWord) ∧
    (let w := s.statusWord
     (w.getLsbD 0 = true ↔ s.cur ≠ none) ∧ w.getLsbD 1 = s.done ∧ w.getLsbD 2 = s.err ∧ w.getLsbD 3 = false ∧
     (w.extractLsb' 4 4 = match s.ecode with
        | .none => 0 | .checksum => 1 | .unknownSensor => 2 | .malformedFrame => 3 | .transport => 4
        | .config => 5 | .arg => 6 | .illegalOp => 7 | .noPrior => 8 | .zeroTime => 9) ∧
     w.getLsbD 8 = s.ovr ∧ w.getLsbD 9 = s.accerr ∧ w.getLsbD 10 = s.ovf ∧
     w.getLsbD 11 = s.priorValid ∧ w.extractLsb' 12 4 = 0 ∧
     (w.extractLsb' 16 3 = match s.dstate with
        | .idle => 0 | .seek => 1 | .len => 2 | .body => 3 | .validate => 4) ∧
     w.extractLsb' 19 5 = 0 ∧ w.extractLsb' 24 8 = s.op) ∧
    (let w := s.frameInfoWord
     w.extractLsb' 0 8 = s.len ∧ w.extractLsb' 8 7 = s.count ∧ w.getLsbD 15 = s.valid ∧ w.extractLsb' 16 16 = s.junk) ∧
    (s.priorWord.extractLsb' 0 16 = s.priorL ∧ s.priorWord.extractLsb' 16 16 = s.priorR) ∧
    ∀ v : Word, writeReg s v .status = .next
      { s with ovr := s.ovr && !v.getLsbD 8, accerr := s.accerr && !v.getLsbD 9, ovf := s.ovf && !v.getLsbD 10 }

/-- R81, R82, R84, R50: an access inside the window that is not an aligned 32-bit one is refused; a read of a reserved offset or of
CMD returns 0; a write of a read-only or reserved register is ignored; a write of ARG0 to ARG2 stores; a write of CMD, STATUS or an
ABUF word is that register's; an accepted read returns its register's value, or stops with its fault, and changes nothing but the
HOST's record. The fault marks are bits of the model's own (log entry 20). -/
def Obligations.WindowAccessRules : Prop :=
  ∀ (s : State) (off bytes : Nat) (w : Word), off < 0x800 →
    (bytes ≠ 4 ∨ off % 4 ≠ 0 →
      hostRead s (s.cfg.base + off) bytes =
        .next { s with accerr := true, marks := { s.marks with accerr := true }
                       reads := (s.cfg.base + off, 0) :: s.reads } ∧
      hostWrite s (s.cfg.base + off) bytes w = .next { s with accerr := true, marks := { s.marks with accerr := true } }) ∧
    (off % 4 = 0 → off = 0x014 ∨ (0x050 ≤ off ∧ off < 0x0C0) ∨ (0x0E0 ≤ off ∧ off < 0x100) →
      hostRead s (s.cfg.base + off) 4 = .next { s with reads := (s.cfg.base + off, 0) :: s.reads }) ∧
    hostRead s s.cfg.base 4 = .next { s with reads := (s.cfg.base, 0) :: s.reads } ∧
    (off % 4 = 0 → 0x014 ≤ off → off < 0x100 ∨ 0x300 ≤ off → hostWrite s (s.cfg.base + off) 4 w = .next s) ∧
    hostWrite s (s.cfg.base + 0x008) 4 w = .next { s with arg0 := w } ∧
    hostWrite s (s.cfg.base + 0x00C) 4 w = .next { s with arg1 := w } ∧
    hostWrite s (s.cfg.base + 0x010) 4 w = .next { s with arg2 := w } ∧
    hostWrite s s.cfg.base 4 w = writeReg s w .cmd ∧
    hostWrite s (s.cfg.base + 0x004) 4 w = writeReg s w .status ∧
    (∀ k : Fin 128, hostWrite s (s.cfg.base + 0x100 + 4 * k.val) 4 w = writeReg s w (.abuf k)) ∧
    (off % 4 = 0 →
      (∀ v, readReg s (regAt off) = .ok v →
        hostRead s (s.cfg.base + off) 4 = .next { s with reads := (s.cfg.base + off, v) :: s.reads }) ∧
      ∀ f, readReg s (regAt off) = .error f → hostRead s (s.cfg.base + off) 4 = .fault f)

/-- R30, R38 to R49, R282: what a read of each register and of each word of NBUF, PBUF and FBUF returns, at the offset of the
register map. The words of STATUS, PRIOR and FRAME_INFO are those of StatusFieldsAndTheirClearing; ABUF is that of
AbufStoresByteLanes. -/
def Obligations.RegisterMapReads : Prop :=
  ∀ s : State,
    let px := rnd ((s.cfg.rRaw.toNat : Int) * fxSin s.cfg s.poseTh) 16
    let py := rnd ((s.cfg.rRaw.toNat : Int) * fxCos s.cfg s.poseTh) 16
    let reads := fun (off : Nat) (v : Word) =>
      hostRead s (s.cfg.base + off) 4 = .next { s with reads := (s.cfg.base + off, v) :: s.reads }
    (∀ r ∈ [(0x000, (0 : Word)), (0x004, s.statusWord), (0x008, s.arg0), (0x00C, s.arg1), (0x010, s.arg2), (0x014, 0),
            (0x018, s.res0), (0x01C, s.res1), (0x020, s.res2), (0x024, s.res3), (0x028, s.poseX), (0x02C, s.poseY),
            (0x030, s.poseTh), (0x034, wrap32 (s.poseX.toInt - px)), (0x038, wrap32 (s.poseY.toInt + py)),
            (0x03C, wrap32 (s.poseX.toInt + px)), (0x040, wrap32 (s.poseY.toInt - py)), (0x044, s.priorWord),
            (0x048, s.frameInfoWord), (0x04C, 0x50594207)], reads r.1 r.2) ∧
    (∀ k : Fin 8, ∃ v, reads (0x0C0 + 4 * k.val) v ∧ ∀ i, i < 4 →
      v.extractLsb' (8 * i) 8 = if 4 * k.val + i < s.nameLen.toNat then s.name.toList.getD (4 * k.val + i) 0 else 0) ∧
    (∀ k : Fin 64, ∃ v, reads (0x300 + 4 * k.val) v ∧ ∀ i, i < 4 →
      v.extractLsb' (8 * i) 8 =
        if s.valid = true ∧ 4 * k.val + i < s.len.toNat then s.body.toList.getD (4 * k.val + i) 0 else 0) ∧
    ∀ e : Fin 128,
      let entry : Entry := if s.valid = true ∧ e.val < s.count.toNat then s.entry.toList.getD e.val ⟨0, 0⟩ else ⟨0, 0⟩
      reads (0x400 + 8 * e.val) entry.word0 ∧ reads (0x404 + 8 * e.val) entry.word1

/-- R46, R85: a write of an ABUF word stores its four byte lanes, low byte first, and nothing else; it then reads back; an ABUF word
with an unwritten byte faults; the canonical form is kept. -/
def Obligations.AbufStoresByteLanes : Prop :=
  ∀ (s : State) (k : Fin 128) (w : Word),
    ∃ t, writeReg s w (.abuf k) = .next t ∧ t = { s with abuf := t.abuf } ∧
      (∀ i, i < 4 → Memory.read t.abuf (0x100 + 4 * k.val + i) = some (w.extractLsb' (8 * i) 8)) ∧
      (∀ a, a < 0x100 + 4 * k.val ∨ 0x100 + 4 * k.val + 3 < a → Memory.read t.abuf a = Memory.read s.abuf a) ∧
      readReg t (.abuf k) = .ok w ∧ (Memory.wf s.abuf = true → Memory.wf t.abuf = true) ∧
      ∀ i, i < 4 → Memory.read s.abuf (0x100 + 4 * k.val + i) = none → ∃ off, readReg s (.abuf k) = .error (.abufUnwritten off)

/-- R35, R32: each sticky flag is cleared only by a W1C write of STATUS or by RST, and set only by a CMD write while BUSY = 1 (OVR),
by a refused access (ACCERR), or in an accepted DYN_NORMALIZE or DYN_UPDATE (OVF; that a result did not fit is said by
DynNormalizeGivesWheelDistances and DynUpdateMovesThePose). A flag is set together with its fault mark, a mark is set only so, and
no step erases one; that RST keeps the marks too is the model's choice (log entry 20). -/
def Obligations.StickyFlagsChangeOnlyByTheirEvents : Prop :=
  ∀ s t : State, step s = .next t →
    (s.ovr = true → t.ovr = false → resetsNext s = true ∨ ∃ v, writesNext s .status = some v ∧ v.getLsbD 8 = true) ∧
    (s.accerr = true → t.accerr = false → resetsNext s = true ∨ ∃ v, writesNext s .status = some v ∧ v.getLsbD 9 = true) ∧
    (s.ovf = true → t.ovf = false → resetsNext s = true ∨ ∃ v, writesNext s .status = some v ∧ v.getLsbD 10 = true) ∧
    (s.ovr = false → t.ovr = true → s.busy = true ∧ ∃ v, writesNext s .cmd = some v) ∧
    (s.accerr = false → t.accerr = true → refusesNext s = true) ∧
    (s.ovf = false → t.ovf = true → acceptsNext s = some .dynNormalize ∨ acceptsNext s = some .dynUpdate) ∧
    ((s.marks.ovr = true → t.marks.ovr = true) ∧ (s.marks.accerr = true → t.marks.accerr = true) ∧
      (s.marks.ovf = true → t.marks.ovf = true)) ∧
    (s.ovr = false → t.ovr = true → t.marks.ovr = true) ∧ (s.marks.ovr = false → t.marks.ovr = true → t.ovr = true) ∧
    (s.accerr = false → t.accerr = true → t.marks.accerr = true) ∧
    (s.marks.accerr = false → t.marks.accerr = true → t.accerr = true) ∧
    (s.ovf = false → t.ovf = true → t.marks.ovf = true) ∧ (s.marks.ovf = false → t.marks.ovf = true → t.ovf = true)

/-- R38, R40, R41, R52: ARG registers change only by a host write or RST, the pose only by DYN_UPDATE, DYN_RESET or RST, the prior
sample only by DYN_NORMALIZE or RST. -/
def Obligations.RegistersChangeOnlyByTheirWriters : Prop :=
  ∀ s t : State, step s = .next t → resetsNext s = false →
    (t.arg0 ≠ s.arg0 → writesNext s (.arg 0) = some t.arg0) ∧
    (t.arg1 ≠ s.arg1 → writesNext s (.arg 1) = some t.arg1) ∧
    (t.arg2 ≠ s.arg2 → writesNext s (.arg 2) = some t.arg2) ∧
    ((t.poseX, t.poseY, t.poseTh) ≠ (s.poseX, s.poseY, s.poseTh) →
      acceptsNext s = some .dynUpdate ∨ acceptsNext s = some .dynReset) ∧
    ((t.priorL, t.priorR, t.priorValid) ≠ (s.priorL, s.priorR, s.priorValid) → acceptsNext s = some .dynNormalize) ∧
    (t.abuf ≠ s.abuf → ∃ k v, writesNext s (.abuf k) = some v)

/-- R163, R95 to R100, R362: no step changes the parameters; only a TRANSPORT error step changes TERR, to the value it gives, also not
RST; a TRANSPORT arrive step appends its byte to RXQ, which changes otherwise only when a PYRB step takes its head or the checksum
failure flushes it; TXOUT only grows, also across RST. -/
def Obligations.ParametersAndTransportAreKept : Prop :=
  ∀ s t : State, step s = .next t →
    t.cfg = s.cfg ∧ (t.terr ≠ s.terr → s.turns.head? = some (.error t.terr)) ∧
      (∀ c, s.turns.head? = some (.error c) → t.terr = c) ∧
      (∀ b, s.turns.head? = some (.arrive b) → t.rxq = s.rxq ++ [b]) ∧
      (t.rxq ≠ s.rxq →
        (∃ b, s.turns.head? = some (.arrive b)) ∨
        s.turns.head? = some .pyrb ∧
          ((∃ b, s.rxq = b :: t.rxq ∧ (s.dstate = .seek ∨ s.dstate = .len ∨ s.dstate = .body)) ∨
            (t.rxq = [] ∧ s.dstate = .validate ∧ s.sum ≠ 0))) ∧
      s.txout <+: t.txout ∧ (resetsNext s = true → t.rxq = s.rxq ∧ t.txout = s.txout)

/-- R89, R367: what a host writes to ARG0 to ARG2 and ABUF after the accept has no effect on the operation in flight. -/
def Obligations.OperandsAreLatchedAtAccept : Prop :=
  ∀ (s : State) (a0 a1 a2 : Word) (m : List Host.Cell),
    pyrbStep { s with arg0 := a0, arg1 := a1, arg2 := a2, abuf := m } =
      { pyrbStep s with arg0 := a0, arg1 := a1, arg2 := a2, abuf := m }

/-- R90: a step of PYRB itself changes no register but STATUS, RES0, RES1, FRAME_INFO, PBUF and FBUF. -/
def Obligations.PyrbStepChangesOnlyResultsAndFrame : Prop :=
  ∀ s : State,
    let t := pyrbStep s
    t = { s with
          done := t.done, err := t.err, ecode := t.ecode, cur := t.cur, res0 := t.res0, res1 := t.res1
          dstate := t.dstate, n := t.n, cnt := t.cnt, sum := t.sum, body := t.body, entry := t.entry
          valid := t.valid, len := t.len, count := t.count, junk := t.junk, txpend := t.txpend
          rxq := t.rxq, txout := t.txout } ∧
      (t.res0 ≠ s.res0 ∨ t.res1 ≠ s.res1 ∨ t.valid ≠ s.valid ∨ t.len ≠ s.len ∨ t.count ≠ s.count → t.done = true)

/-- R45, R47, R48, 93 I4: while VALID = 0 no register shows BODY or ENTRY, and while NAMELEN = 0 none shows NAME. -/
def Obligations.UnspecifiedBuffersAreNeverShown : Prop :=
  (∀ (s : State) (body : Vector Byte 256) (entry : Vector Entry 127) (r : Reg),
    s.valid = false → readReg { s with body := body, entry := entry } r = readReg s r) ∧
  ∀ (s : State) (name : Vector Byte 32) (r : Reg), s.nameLen = 0 → readReg { s with name := name } r = readReg s r

/-- R366, R368, R337: a HOST that keeps its two duties loses no command, and starts no operation and reads no result while one is in
flight; a HOST that breaks the first has its command dropped with OVR. That the HOST has the moves that break a duty, where R375
gives it none, and which registers count as results, is the model's choice (log entry 22). The fault marks, and that RST keeps them,
are the model's own (log entry 20). -/
def Obligations.DutiesPreventLostCommands : Prop :=
  ∀ s t : State, StatusInv s → step s = .next t →
    (keepsDuties s = true → (s.ovr = false → t.ovr = false) ∧ t.marks.ovr = s.marks.ovr) ∧
    (keepsDuties s = true → s.busy = true → ∀ a, hostNext s = some a →
      writesCmd s.cfg a = false ∧ readsResult s.cfg a = false) ∧
    (writesNoCmdWhileBusy s = false → t.ovr = true ∧ t.marks.ovr = true ∧ t.cur = s.cur ∧ t.op = s.op ∧ t.done = s.done ∧
      t.res0 = s.res0 ∧ t.res1 = s.res1 ∧ t.res2 = s.res2 ∧ t.res3 = s.res3)

/-- R131: a WAIT reads STATUS, and stays the HOST's next action exactly while BUSY = 1. -/
def Obligations.WaitStaysWhileBusy : Prop :=
  ∀ (s : State) (ts : List Turn) (as : List HostAction),
    s.cfg.wf = true → s.turns = .host :: ts → s.todo = .wait :: as →
      step s = .next
        { s with turns := ts, reads := (s.cfg.base + 4, s.statusWord) :: s.reads
                 todo := if s.cur = none then as else .wait :: as }

/-! ### Reset and invariants -/

/-- R361, R362, R42, R46: RST in any state. The model's choices in it: RST is one step (log entry 21), every ABUF byte is unwritten
afterwards, where R361 says only unspecified (log entry 8), and the fault marks are kept (log entry 20). Nothing is said of BODY,
ENTRY and NAME, whose values no register shows. -/
def Obligations.RstPutsEveryRegisterToItsResetValue : Prop :=
  ∀ (s : State) (ts : List Turn), s.cfg.wf = true → s.turns = .rst :: ts →
    ∃ t, step s = .next t ∧ readReg t .status = .ok 0 ∧ t.cur = none ∧ t.txpend = none ∧ t.dstate = .idle ∧
      t.n = 0 ∧ t.cnt = 0 ∧ t.sum = 0 ∧ t.nameLen = 0 ∧
      (∀ k, readReg t (.arg k) = .ok 0) ∧ (∀ k, readReg t (.res k) = .ok 0) ∧
      readReg t .poseX = .ok 0 ∧ readReg t .poseY = .ok 0 ∧ readReg t .poseTh = .ok 0 ∧
      readReg t .wlX = .ok 0 ∧ readReg t .wlY = .ok s.cfg.rRaw ∧ readReg t .wrX = .ok 0 ∧
      readReg t .wrY = .ok (-s.cfg.rRaw) ∧ readReg t .prior = .ok 0 ∧ readReg t .frameInfo = .ok 0 ∧
      readReg t .id = .ok 0x50594207 ∧ (∀ k, readReg t (.nbuf k) = .ok 0) ∧ (∀ k, readReg t (.pbuf k) = .ok 0) ∧
      (∀ k, readReg t (.fbuf k) = .ok 0) ∧ (∀ a, Memory.read t.abuf a = none) ∧ t.cfg = s.cfg ∧
      t.rxq = s.rxq ∧ t.terr = s.terr ∧ t.txout = s.txout ∧ t.marks = s.marks

/-- The reset state has a legal configuration and meets all four invariants, and STATUS and FRAME_INFO read 0 there. The fault marks
are bits of the model's own (log entry 20). -/
def Obligations.ResetStateMeetsTheInvariants : Prop :=
  State.reset.cfg.wf = true ∧ InFlightInv State.reset ∧ StatusInv State.reset ∧ DecoderInv State.reset ∧
    StorageInv State.reset ∧ State.reset.statusWord = 0 ∧ State.reset.frameInfoWord = 0 ∧ flagsClear State.reset = true ∧
    noMarks State.reset = true

/-- R56: every step keeps the in-flight invariants. -/
def Obligations.StepKeepsInFlightInvariants : Prop :=
  ∀ s t : State, InFlightInv s → step s = .next t → InFlightInv t

/-- R232 to R235, R44: every step keeps the decoder's counts; in VALIDATE, SUM is the sum of the magic byte, the length byte and all
N + 1 body bytes. -/
def Obligations.StepKeepsDecoderCounts : Prop :=
  ∀ s t : State, DecoderInv s → step s = .next t → DecoderInv t

/-- R33, R34, R35, R330 to R332: every step keeps STATUS consistent, and every set sticky flag marked. The fault marks are bits of
the model's own (log entry 20). -/
def Obligations.StepKeepsStatusConsistent : Prop :=
  ∀ s t : State, StatusInv s → step s = .next t → StatusInv t

/-- R45, R46, R54: every step keeps ABUF canonical, NAMELEN at most 32, and TXPEND of 1 to 513 bytes. -/
def Obligations.StepKeepsStorageForm : Prop :=
  ∀ s t : State, StorageInv s → step s = .next t → StorageInv t
end

