-- ==== Sys2Proof/Laws/Memory.lean ====
section
/-!
SUPPORT. The laws of ABUF's cells: a read after a write, the canonical form kept by every write, and what a range read gives.
-/

namespace Sys2Proof.Machine.Memory

/-- A read of the byte just written gives it. -/
@[simp] theorem read_write_same (m : List Host.Cell) (a : Nat) (b : Byte) : read (write m a b) a = some b := by
  induction m with
  | nil => simp [write, read]
  | cons c m ih =>
    obtain ⟨k, v⟩ := c
    by_cases h1 : a < k
    · simp [write, h1, read]
    · by_cases h2 : a = k
      · simp [write, h2, read]
      · simp [write, h1, h2, read, ih]

/-- A write leaves every other byte alone. -/
theorem read_write_other (m : List Host.Cell) {a c : Nat} (b : Byte) (h : c ≠ a) : read (write m a b) c = read m c := by
  induction m with
  | nil => simp [write, read, h]
  | cons cell m ih =>
    obtain ⟨k, v⟩ := cell
    by_cases h1 : a < k
    · simp [write, h1, read, h]
    · by_cases h2 : a = k
      · simp [write, h2, read, h2 ▸ h]
      · simp [write, h1, h2, read, ih]

/-- Both cases at once. -/
theorem read_write (m : List Host.Cell) (a c : Nat) (b : Byte) :
    read (write m a b) c = if c = a then some b else read m c := by
  by_cases h : c = a
  · subst h; simp
  · simp [read_write_other m b h, h]

/-- A write at or above the lower bound keeps offsets rising from it. -/
theorem rising_write (m : List Host.Cell) (lo a : Nat) (b : Byte) (h : rising lo m = true) (ha : lo ≤ a) :
    rising lo (write m a b) = true := by
  induction m generalizing lo with
  | nil => simp [write, rising, ha]
  | cons cell m ih =>
    obtain ⟨k, v⟩ := cell
    simp only [rising, Bool.and_eq_true, decide_eq_true_eq] at h
    by_cases h1 : a < k
    · simp only [write, h1, if_true, rising, Bool.and_eq_true, decide_eq_true_eq]
      exact ⟨ha, by omega, h.2⟩
    · by_cases h2 : a = k
      · subst h2
        simp [write, rising, ha, h.2]
      · simp only [write, h1, h2, if_false, rising, Bool.and_eq_true, decide_eq_true_eq]
        exact ⟨h.1, ih (k + 1) h.2 (by omega)⟩

/-- A write below a bound keeps every offset below it. -/
theorem all_lt_write (m : List Host.Cell) (hi a : Nat) (b : Byte) (h : (m.all fun c => decide (c.1 < hi)) = true)
    (ha : a < hi) : ((write m a b).all fun c => decide (c.1 < hi)) = true := by
  induction m with
  | nil => simp [write, ha]
  | cons cell m ih =>
    obtain ⟨k, v⟩ := cell
    simp only [List.all_cons, Bool.and_eq_true, decide_eq_true_eq] at h
    by_cases h1 : a < k
    · simp only [write, h1, if_true, List.all_cons, Bool.and_eq_true, decide_eq_true_eq]
      exact ⟨ha, h.1, h.2⟩
    · by_cases h2 : a = k
      · simp only [write, h2, if_true, Nat.lt_irrefl, if_false, List.all_cons, Bool.and_eq_true, decide_eq_true_eq]
        exact ⟨h.1, h.2⟩
      · simp only [write, h1, h2, if_false, List.all_cons, Bool.and_eq_true, decide_eq_true_eq]
        exact ⟨h.1, ih h.2⟩

/-- A write inside ABUF keeps the canonical form. -/
theorem wf_write (m : List Host.Cell) (a : Nat) (b : Byte) (h : wf m = true) (lo : 0x100 ≤ a) (hi : a < 0x300) :
    wf (write m a b) = true := by
  simp only [wf, Bool.and_eq_true] at h ⊢
  exact ⟨rising_write m _ a b h.1 lo, all_lt_write m _ a b h.2 hi⟩

/-- A word write inside ABUF keeps the canonical form. -/
theorem wf_writeWord (m : List Host.Cell) (a : Nat) (w : Word) (h : wf m = true) (lo : 0x100 ≤ a) (hi : a + 3 < 0x300) :
    wf (writeWord m a w) = true := by
  unfold writeWord
  refine wf_write _ _ _ (wf_write _ _ _ (wf_write _ _ _ (wf_write _ _ _ h ?_ ?_) ?_ ?_) ?_ ?_) ?_ ?_ <;> omega

/-- What each byte reads as after a word write. -/
theorem read_writeWord (m : List Host.Cell) (a c : Nat) (w : Word) :
    read (writeWord m a w) c =
      if c = a then some (laneOf w 0)
      else if c = a + 1 then some (laneOf w 1)
      else if c = a + 2 then some (laneOf w 2)
      else if c = a + 3 then some (laneOf w 3)
      else read m c := by
  unfold writeWord
  simp only [read_write]
  split_ifs <;> first | rfl | omega

/-- The lanes of a word put together are the word (20_memory.md R85). -/
theorem wordOfLanes_laneOf (w : Word) : wordOfLanes (laneOf w 0) (laneOf w 1) (laneOf w 2) (laneOf w 3) = w := by
  apply BitVec.eq_of_getLsbD_eq
  intro i hi
  show (BitVec.extractLsb' (8 * 3) 8 w ++ BitVec.extractLsb' (8 * 2) 8 w ++ BitVec.extractLsb' (8 * 1) 8 w ++
    BitVec.extractLsb' (8 * 0) 8 w).getLsbD i = w.getLsbD i
  simp only [BitVec.getLsbD_append, BitVec.getLsbD_extractLsb']
  split_ifs with h1 h2 h3
  · simp [h1]
  · rw [show 8 * 1 + (i - 8) = i by omega]; simp [h2]
  · rw [show 8 * 2 + (i - 8 - 8) = i by omega]; simp [h3]
  · rw [show 8 * 3 + (i - 8 - 8 - 8) = i by omega]
    simp only [Bool.and_eq_right_iff_imp, decide_eq_true_eq]; omega

/-- A range read succeeds exactly on written bytes, and gives them in order. -/
theorem readBytes_eq_ok (m : List Host.Cell) (a count : Nat) (bs : List Byte) :
    readBytes m a count = .ok bs ↔ bs.length = count ∧ ∀ i, i < count → read m (a + i) = bs[i]? := by
  induction count generalizing a bs with
  | zero => cases bs <;> simp [readBytes]
  | succ count ih =>
    cases hr : read m a with
    | none =>
      simp only [readBytes, hr, reduceCtorEq, false_iff, not_and]
      intro hlen h
      have := h 0 (by omega)
      cases bs with
      | nil => simp at hlen
      | cons b bs => simp [hr] at this
    | some b =>
      cases hb : readBytes m (a + 1) count with
      | error f =>
        simp only [readBytes, hr, hb, reduceCtorEq, false_iff, not_and]
        intro hlen h
        cases bs with
        | nil => simp at hlen
        | cons b' bs =>
          have hih := (ih (a + 1) bs).mpr ⟨by simpa using hlen, fun i hi => by
            have := h (i + 1) (by omega)
            simpa [Nat.add_assoc, Nat.add_comm 1 i] using this⟩
          simp [hb] at hih
      | ok rest =>
        have hih := (ih (a + 1) rest).mp hb
        simp only [readBytes, hr, hb, Except.ok.injEq]
        constructor
        · rintro rfl
          refine ⟨by simp [hih.1], fun i hi => ?_⟩
          cases i with
          | zero => simp [hr]
          | succ i =>
            have := hih.2 i (by omega)
            simpa [Nat.add_assoc, Nat.add_comm 1 i] using this
        · rintro ⟨hlen, h⟩
          cases bs with
          | nil => simp at hlen
          | cons b' bs =>
            have h0 := h 0 (by omega)
            simp only [Nat.add_zero, hr, List.getElem?_cons_zero, Option.some.injEq] at h0
            have hbs := (ih (a + 1) bs).mpr ⟨by simpa using hlen, fun i hi => by
              have := h (i + 1) (by omega)
              simpa [Nat.add_assoc, Nat.add_comm 1 i] using this⟩
            rw [hb] at hbs
            cases hbs
            rw [h0]

/-- A word read after the word write of the same offset gives the word. -/
theorem readWord_writeWord (m : List Host.Cell) (a : Nat) (w : Word) : readWord (writeWord m a w) a = .ok w := by
  have h : readBytes (writeWord m a w) a 4 = .ok [laneOf w 0, laneOf w 1, laneOf w 2, laneOf w 3] := by
    rw [readBytes_eq_ok]
    refine ⟨rfl, fun i hi => ?_⟩
    rw [read_writeWord]
    have : i = 0 ∨ i = 1 ∨ i = 2 ∨ i = 3 := by omega
    rcases this with rfl | rfl | rfl | rfl <;> simp
  simp [readWord, h, wordOfLanes_laneOf]

end Sys2Proof.Machine.Memory
end

