-- ==== Sys2Proof/Laws/State.lean ====
section
/-!
SUPPORT. One lemma per field per named update of State, each true by rfl: a later proof rewrites with these and does not unfold an
update.
-/

namespace Sys2Proof.Machine

variable (s : State)

/-! ### acceptMark -/

@[simp] theorem State.acceptMark_cfg (op : Byte) : (s.acceptMark op).cfg = s.cfg := rfl
@[simp] theorem State.acceptMark_op (op : Byte) : (s.acceptMark op).op = op := rfl
@[simp] theorem State.acceptMark_done (op : Byte) : (s.acceptMark op).done = false := rfl
@[simp] theorem State.acceptMark_err (op : Byte) : (s.acceptMark op).err = false := rfl
@[simp] theorem State.acceptMark_ecode (op : Byte) : (s.acceptMark op).ecode = .none := rfl
@[simp] theorem State.acceptMark_ovr (op : Byte) : (s.acceptMark op).ovr = s.ovr := rfl
@[simp] theorem State.acceptMark_accerr (op : Byte) : (s.acceptMark op).accerr = s.accerr := rfl
@[simp] theorem State.acceptMark_ovf (op : Byte) : (s.acceptMark op).ovf = s.ovf := rfl
@[simp] theorem State.acceptMark_marks (op : Byte) : (s.acceptMark op).marks = s.marks := rfl
@[simp] theorem State.acceptMark_cur (op : Byte) : (s.acceptMark op).cur = s.cur := rfl
@[simp] theorem State.acceptMark_arg0 (op : Byte) : (s.acceptMark op).arg0 = s.arg0 := rfl
@[simp] theorem State.acceptMark_arg1 (op : Byte) : (s.acceptMark op).arg1 = s.arg1 := rfl
@[simp] theorem State.acceptMark_arg2 (op : Byte) : (s.acceptMark op).arg2 = s.arg2 := rfl
@[simp] theorem State.acceptMark_res0 (op : Byte) : (s.acceptMark op).res0 = s.res0 := rfl
@[simp] theorem State.acceptMark_res1 (op : Byte) : (s.acceptMark op).res1 = s.res1 := rfl
@[simp] theorem State.acceptMark_res2 (op : Byte) : (s.acceptMark op).res2 = s.res2 := rfl
@[simp] theorem State.acceptMark_res3 (op : Byte) : (s.acceptMark op).res3 = s.res3 := rfl
@[simp] theorem State.acceptMark_abuf (op : Byte) : (s.acceptMark op).abuf = s.abuf := rfl
@[simp] theorem State.acceptMark_poseX (op : Byte) : (s.acceptMark op).poseX = s.poseX := rfl
@[simp] theorem State.acceptMark_poseY (op : Byte) : (s.acceptMark op).poseY = s.poseY := rfl
@[simp] theorem State.acceptMark_poseTh (op : Byte) : (s.acceptMark op).poseTh = s.poseTh := rfl
@[simp] theorem State.acceptMark_priorL (op : Byte) : (s.acceptMark op).priorL = s.priorL := rfl
@[simp] theorem State.acceptMark_priorR (op : Byte) : (s.acceptMark op).priorR = s.priorR := rfl
@[simp] theorem State.acceptMark_priorValid (op : Byte) : (s.acceptMark op).priorValid = s.priorValid := rfl
@[simp] theorem State.acceptMark_dstate (op : Byte) : (s.acceptMark op).dstate = s.dstate := rfl
@[simp] theorem State.acceptMark_n (op : Byte) : (s.acceptMark op).n = s.n := rfl
@[simp] theorem State.acceptMark_cnt (op : Byte) : (s.acceptMark op).cnt = s.cnt := rfl
@[simp] theorem State.acceptMark_sum (op : Byte) : (s.acceptMark op).sum = s.sum := rfl
@[simp] theorem State.acceptMark_body (op : Byte) : (s.acceptMark op).body = s.body := rfl
@[simp] theorem State.acceptMark_entry (op : Byte) : (s.acceptMark op).entry = s.entry := rfl
@[simp] theorem State.acceptMark_valid (op : Byte) : (s.acceptMark op).valid = s.valid := rfl
@[simp] theorem State.acceptMark_len (op : Byte) : (s.acceptMark op).len = s.len := rfl
@[simp] theorem State.acceptMark_count (op : Byte) : (s.acceptMark op).count = s.count := rfl
@[simp] theorem State.acceptMark_junk (op : Byte) : (s.acceptMark op).junk = s.junk := rfl
@[simp] theorem State.acceptMark_nameLen (op : Byte) : (s.acceptMark op).nameLen = s.nameLen := rfl
@[simp] theorem State.acceptMark_name (op : Byte) : (s.acceptMark op).name = s.name := rfl
@[simp] theorem State.acceptMark_txpend (op : Byte) : (s.acceptMark op).txpend = s.txpend := rfl
@[simp] theorem State.acceptMark_rxq (op : Byte) : (s.acceptMark op).rxq = s.rxq := rfl
@[simp] theorem State.acceptMark_terr (op : Byte) : (s.acceptMark op).terr = s.terr := rfl
@[simp] theorem State.acceptMark_txout (op : Byte) : (s.acceptMark op).txout = s.txout := rfl
@[simp] theorem State.acceptMark_todo (op : Byte) : (s.acceptMark op).todo = s.todo := rfl
@[simp] theorem State.acceptMark_reads (op : Byte) : (s.acceptMark op).reads = s.reads := rfl
@[simp] theorem State.acceptMark_turns (op : Byte) : (s.acceptMark op).turns = s.turns := rfl

/-! ### complete -/

@[simp] theorem State.complete_cfg : (s.complete).cfg = s.cfg := rfl
@[simp] theorem State.complete_op : (s.complete).op = s.op := rfl
@[simp] theorem State.complete_done : (s.complete).done = true := rfl
@[simp] theorem State.complete_err : (s.complete).err = false := rfl
@[simp] theorem State.complete_ecode : (s.complete).ecode = .none := rfl
@[simp] theorem State.complete_ovr : (s.complete).ovr = s.ovr := rfl
@[simp] theorem State.complete_accerr : (s.complete).accerr = s.accerr := rfl
@[simp] theorem State.complete_ovf : (s.complete).ovf = s.ovf := rfl
@[simp] theorem State.complete_marks : (s.complete).marks = s.marks := rfl
@[simp] theorem State.complete_cur : (s.complete).cur = none := rfl
@[simp] theorem State.complete_arg0 : (s.complete).arg0 = s.arg0 := rfl
@[simp] theorem State.complete_arg1 : (s.complete).arg1 = s.arg1 := rfl
@[simp] theorem State.complete_arg2 : (s.complete).arg2 = s.arg2 := rfl
@[simp] theorem State.complete_res0 : (s.complete).res0 = s.res0 := rfl
@[simp] theorem State.complete_res1 : (s.complete).res1 = s.res1 := rfl
@[simp] theorem State.complete_res2 : (s.complete).res2 = s.res2 := rfl
@[simp] theorem State.complete_res3 : (s.complete).res3 = s.res3 := rfl
@[simp] theorem State.complete_abuf : (s.complete).abuf = s.abuf := rfl
@[simp] theorem State.complete_poseX : (s.complete).poseX = s.poseX := rfl
@[simp] theorem State.complete_poseY : (s.complete).poseY = s.poseY := rfl
@[simp] theorem State.complete_poseTh : (s.complete).poseTh = s.poseTh := rfl
@[simp] theorem State.complete_priorL : (s.complete).priorL = s.priorL := rfl
@[simp] theorem State.complete_priorR : (s.complete).priorR = s.priorR := rfl
@[simp] theorem State.complete_priorValid : (s.complete).priorValid = s.priorValid := rfl
@[simp] theorem State.complete_dstate : (s.complete).dstate = s.dstate := rfl
@[simp] theorem State.complete_n : (s.complete).n = s.n := rfl
@[simp] theorem State.complete_cnt : (s.complete).cnt = s.cnt := rfl
@[simp] theorem State.complete_sum : (s.complete).sum = s.sum := rfl
@[simp] theorem State.complete_body : (s.complete).body = s.body := rfl
@[simp] theorem State.complete_entry : (s.complete).entry = s.entry := rfl
@[simp] theorem State.complete_valid : (s.complete).valid = s.valid := rfl
@[simp] theorem State.complete_len : (s.complete).len = s.len := rfl
@[simp] theorem State.complete_count : (s.complete).count = s.count := rfl
@[simp] theorem State.complete_junk : (s.complete).junk = s.junk := rfl
@[simp] theorem State.complete_nameLen : (s.complete).nameLen = s.nameLen := rfl
@[simp] theorem State.complete_name : (s.complete).name = s.name := rfl
@[simp] theorem State.complete_txpend : (s.complete).txpend = s.txpend := rfl
@[simp] theorem State.complete_rxq : (s.complete).rxq = s.rxq := rfl
@[simp] theorem State.complete_terr : (s.complete).terr = s.terr := rfl
@[simp] theorem State.complete_txout : (s.complete).txout = s.txout := rfl
@[simp] theorem State.complete_todo : (s.complete).todo = s.todo := rfl
@[simp] theorem State.complete_reads : (s.complete).reads = s.reads := rfl
@[simp] theorem State.complete_turns : (s.complete).turns = s.turns := rfl

/-! ### raise -/

@[simp] theorem State.raise_cfg (e : ECode) (i0 i1 : Nat) : (s.raise e i0 i1).cfg = s.cfg := rfl
@[simp] theorem State.raise_op (e : ECode) (i0 i1 : Nat) : (s.raise e i0 i1).op = s.op := rfl
@[simp] theorem State.raise_done (e : ECode) (i0 i1 : Nat) : (s.raise e i0 i1).done = true := rfl
@[simp] theorem State.raise_err (e : ECode) (i0 i1 : Nat) : (s.raise e i0 i1).err = true := rfl
@[simp] theorem State.raise_ecode (e : ECode) (i0 i1 : Nat) : (s.raise e i0 i1).ecode = e := rfl
@[simp] theorem State.raise_ovr (e : ECode) (i0 i1 : Nat) : (s.raise e i0 i1).ovr = s.ovr := rfl
@[simp] theorem State.raise_accerr (e : ECode) (i0 i1 : Nat) : (s.raise e i0 i1).accerr = s.accerr := rfl
@[simp] theorem State.raise_ovf (e : ECode) (i0 i1 : Nat) : (s.raise e i0 i1).ovf = s.ovf := rfl
@[simp] theorem State.raise_marks (e : ECode) (i0 i1 : Nat) : (s.raise e i0 i1).marks = s.marks := rfl
@[simp] theorem State.raise_cur (e : ECode) (i0 i1 : Nat) : (s.raise e i0 i1).cur = none := rfl
@[simp] theorem State.raise_arg0 (e : ECode) (i0 i1 : Nat) : (s.raise e i0 i1).arg0 = s.arg0 := rfl
@[simp] theorem State.raise_arg1 (e : ECode) (i0 i1 : Nat) : (s.raise e i0 i1).arg1 = s.arg1 := rfl
@[simp] theorem State.raise_arg2 (e : ECode) (i0 i1 : Nat) : (s.raise e i0 i1).arg2 = s.arg2 := rfl
@[simp] theorem State.raise_res0 (e : ECode) (i0 i1 : Nat) : (s.raise e i0 i1).res0 = BitVec.ofNat 32 i0 := rfl
@[simp] theorem State.raise_res1 (e : ECode) (i0 i1 : Nat) : (s.raise e i0 i1).res1 = BitVec.ofNat 32 i1 := rfl
@[simp] theorem State.raise_res2 (e : ECode) (i0 i1 : Nat) : (s.raise e i0 i1).res2 = s.res2 := rfl
@[simp] theorem State.raise_res3 (e : ECode) (i0 i1 : Nat) : (s.raise e i0 i1).res3 = s.res3 := rfl
@[simp] theorem State.raise_abuf (e : ECode) (i0 i1 : Nat) : (s.raise e i0 i1).abuf = s.abuf := rfl
@[simp] theorem State.raise_poseX (e : ECode) (i0 i1 : Nat) : (s.raise e i0 i1).poseX = s.poseX := rfl
@[simp] theorem State.raise_poseY (e : ECode) (i0 i1 : Nat) : (s.raise e i0 i1).poseY = s.poseY := rfl
@[simp] theorem State.raise_poseTh (e : ECode) (i0 i1 : Nat) : (s.raise e i0 i1).poseTh = s.poseTh := rfl
@[simp] theorem State.raise_priorL (e : ECode) (i0 i1 : Nat) : (s.raise e i0 i1).priorL = s.priorL := rfl
@[simp] theorem State.raise_priorR (e : ECode) (i0 i1 : Nat) : (s.raise e i0 i1).priorR = s.priorR := rfl
@[simp] theorem State.raise_priorValid (e : ECode) (i0 i1 : Nat) : (s.raise e i0 i1).priorValid = s.priorValid := rfl
@[simp] theorem State.raise_dstate (e : ECode) (i0 i1 : Nat) : (s.raise e i0 i1).dstate = .idle := rfl
@[simp] theorem State.raise_n (e : ECode) (i0 i1 : Nat) : (s.raise e i0 i1).n = s.n := rfl
@[simp] theorem State.raise_cnt (e : ECode) (i0 i1 : Nat) : (s.raise e i0 i1).cnt = s.cnt := rfl
@[simp] theorem State.raise_sum (e : ECode) (i0 i1 : Nat) : (s.raise e i0 i1).sum = s.sum := rfl
@[simp] theorem State.raise_body (e : ECode) (i0 i1 : Nat) : (s.raise e i0 i1).body = s.body := rfl
@[simp] theorem State.raise_entry (e : ECode) (i0 i1 : Nat) : (s.raise e i0 i1).entry = s.entry := rfl
@[simp] theorem State.raise_valid (e : ECode) (i0 i1 : Nat) : (s.raise e i0 i1).valid = s.valid := rfl
@[simp] theorem State.raise_len (e : ECode) (i0 i1 : Nat) : (s.raise e i0 i1).len = s.len := rfl
@[simp] theorem State.raise_count (e : ECode) (i0 i1 : Nat) : (s.raise e i0 i1).count = s.count := rfl
@[simp] theorem State.raise_junk (e : ECode) (i0 i1 : Nat) : (s.raise e i0 i1).junk = s.junk := rfl
@[simp] theorem State.raise_nameLen (e : ECode) (i0 i1 : Nat) : (s.raise e i0 i1).nameLen = s.nameLen := rfl
@[simp] theorem State.raise_name (e : ECode) (i0 i1 : Nat) : (s.raise e i0 i1).name = s.name := rfl
@[simp] theorem State.raise_txpend (e : ECode) (i0 i1 : Nat) : (s.raise e i0 i1).txpend = none := rfl
@[simp] theorem State.raise_rxq (e : ECode) (i0 i1 : Nat) : (s.raise e i0 i1).rxq = s.rxq := rfl
@[simp] theorem State.raise_terr (e : ECode) (i0 i1 : Nat) : (s.raise e i0 i1).terr = s.terr := rfl
@[simp] theorem State.raise_txout (e : ECode) (i0 i1 : Nat) : (s.raise e i0 i1).txout = s.txout := rfl
@[simp] theorem State.raise_todo (e : ECode) (i0 i1 : Nat) : (s.raise e i0 i1).todo = s.todo := rfl
@[simp] theorem State.raise_reads (e : ECode) (i0 i1 : Nat) : (s.raise e i0 i1).reads = s.reads := rfl
@[simp] theorem State.raise_turns (e : ECode) (i0 i1 : Nat) : (s.raise e i0 i1).turns = s.turns := rfl

/-! ### launch -/

@[simp] theorem State.launch_cfg (i : Instr) (seq : List Byte) : (s.launch i seq).cfg = s.cfg := rfl
@[simp] theorem State.launch_op (i : Instr) (seq : List Byte) : (s.launch i seq).op = s.op := rfl
@[simp] theorem State.launch_done (i : Instr) (seq : List Byte) : (s.launch i seq).done = s.done := rfl
@[simp] theorem State.launch_err (i : Instr) (seq : List Byte) : (s.launch i seq).err = s.err := rfl
@[simp] theorem State.launch_ecode (i : Instr) (seq : List Byte) : (s.launch i seq).ecode = s.ecode := rfl
@[simp] theorem State.launch_ovr (i : Instr) (seq : List Byte) : (s.launch i seq).ovr = s.ovr := rfl
@[simp] theorem State.launch_accerr (i : Instr) (seq : List Byte) : (s.launch i seq).accerr = s.accerr := rfl
@[simp] theorem State.launch_ovf (i : Instr) (seq : List Byte) : (s.launch i seq).ovf = s.ovf := rfl
@[simp] theorem State.launch_marks (i : Instr) (seq : List Byte) : (s.launch i seq).marks = s.marks := rfl
@[simp] theorem State.launch_cur (i : Instr) (seq : List Byte) : (s.launch i seq).cur = some i := rfl
@[simp] theorem State.launch_arg0 (i : Instr) (seq : List Byte) : (s.launch i seq).arg0 = s.arg0 := rfl
@[simp] theorem State.launch_arg1 (i : Instr) (seq : List Byte) : (s.launch i seq).arg1 = s.arg1 := rfl
@[simp] theorem State.launch_arg2 (i : Instr) (seq : List Byte) : (s.launch i seq).arg2 = s.arg2 := rfl
@[simp] theorem State.launch_res0 (i : Instr) (seq : List Byte) : (s.launch i seq).res0 = s.res0 := rfl
@[simp] theorem State.launch_res1 (i : Instr) (seq : List Byte) : (s.launch i seq).res1 = s.res1 := rfl
@[simp] theorem State.launch_res2 (i : Instr) (seq : List Byte) : (s.launch i seq).res2 = s.res2 := rfl
@[simp] theorem State.launch_res3 (i : Instr) (seq : List Byte) : (s.launch i seq).res3 = s.res3 := rfl
@[simp] theorem State.launch_abuf (i : Instr) (seq : List Byte) : (s.launch i seq).abuf = s.abuf := rfl
@[simp] theorem State.launch_poseX (i : Instr) (seq : List Byte) : (s.launch i seq).poseX = s.poseX := rfl
@[simp] theorem State.launch_poseY (i : Instr) (seq : List Byte) : (s.launch i seq).poseY = s.poseY := rfl
@[simp] theorem State.launch_poseTh (i : Instr) (seq : List Byte) : (s.launch i seq).poseTh = s.poseTh := rfl
@[simp] theorem State.launch_priorL (i : Instr) (seq : List Byte) : (s.launch i seq).priorL = s.priorL := rfl
@[simp] theorem State.launch_priorR (i : Instr) (seq : List Byte) : (s.launch i seq).priorR = s.priorR := rfl
@[simp] theorem State.launch_priorValid (i : Instr) (seq : List Byte) : (s.launch i seq).priorValid = s.priorValid := rfl
@[simp] theorem State.launch_dstate (i : Instr) (seq : List Byte) : (s.launch i seq).dstate = s.dstate := rfl
@[simp] theorem State.launch_n (i : Instr) (seq : List Byte) : (s.launch i seq).n = s.n := rfl
@[simp] theorem State.launch_cnt (i : Instr) (seq : List Byte) : (s.launch i seq).cnt = s.cnt := rfl
@[simp] theorem State.launch_sum (i : Instr) (seq : List Byte) : (s.launch i seq).sum = s.sum := rfl
@[simp] theorem State.launch_body (i : Instr) (seq : List Byte) : (s.launch i seq).body = s.body := rfl
@[simp] theorem State.launch_entry (i : Instr) (seq : List Byte) : (s.launch i seq).entry = s.entry := rfl
@[simp] theorem State.launch_valid (i : Instr) (seq : List Byte) : (s.launch i seq).valid = s.valid := rfl
@[simp] theorem State.launch_len (i : Instr) (seq : List Byte) : (s.launch i seq).len = s.len := rfl
@[simp] theorem State.launch_count (i : Instr) (seq : List Byte) : (s.launch i seq).count = s.count := rfl
@[simp] theorem State.launch_junk (i : Instr) (seq : List Byte) : (s.launch i seq).junk = s.junk := rfl
@[simp] theorem State.launch_nameLen (i : Instr) (seq : List Byte) : (s.launch i seq).nameLen = s.nameLen := rfl
@[simp] theorem State.launch_name (i : Instr) (seq : List Byte) : (s.launch i seq).name = s.name := rfl
@[simp] theorem State.launch_txpend (i : Instr) (seq : List Byte) : (s.launch i seq).txpend = some seq := rfl
@[simp] theorem State.launch_rxq (i : Instr) (seq : List Byte) : (s.launch i seq).rxq = s.rxq := rfl
@[simp] theorem State.launch_terr (i : Instr) (seq : List Byte) : (s.launch i seq).terr = s.terr := rfl
@[simp] theorem State.launch_txout (i : Instr) (seq : List Byte) : (s.launch i seq).txout = s.txout := rfl
@[simp] theorem State.launch_todo (i : Instr) (seq : List Byte) : (s.launch i seq).todo = s.todo := rfl
@[simp] theorem State.launch_reads (i : Instr) (seq : List Byte) : (s.launch i seq).reads = s.reads := rfl
@[simp] theorem State.launch_turns (i : Instr) (seq : List Byte) : (s.launch i seq).turns = s.turns := rfl

/-! ### beginDecode -/

@[simp] theorem State.beginDecode_cfg : (s.beginDecode).cfg = s.cfg := rfl
@[simp] theorem State.beginDecode_op : (s.beginDecode).op = s.op := rfl
@[simp] theorem State.beginDecode_done : (s.beginDecode).done = s.done := rfl
@[simp] theorem State.beginDecode_err : (s.beginDecode).err = s.err := rfl
@[simp] theorem State.beginDecode_ecode : (s.beginDecode).ecode = s.ecode := rfl
@[simp] theorem State.beginDecode_ovr : (s.beginDecode).ovr = s.ovr := rfl
@[simp] theorem State.beginDecode_accerr : (s.beginDecode).accerr = s.accerr := rfl
@[simp] theorem State.beginDecode_ovf : (s.beginDecode).ovf = s.ovf := rfl
@[simp] theorem State.beginDecode_marks : (s.beginDecode).marks = s.marks := rfl
@[simp] theorem State.beginDecode_cur : (s.beginDecode).cur = some .decDecode := rfl
@[simp] theorem State.beginDecode_arg0 : (s.beginDecode).arg0 = s.arg0 := rfl
@[simp] theorem State.beginDecode_arg1 : (s.beginDecode).arg1 = s.arg1 := rfl
@[simp] theorem State.beginDecode_arg2 : (s.beginDecode).arg2 = s.arg2 := rfl
@[simp] theorem State.beginDecode_res0 : (s.beginDecode).res0 = s.res0 := rfl
@[simp] theorem State.beginDecode_res1 : (s.beginDecode).res1 = s.res1 := rfl
@[simp] theorem State.beginDecode_res2 : (s.beginDecode).res2 = s.res2 := rfl
@[simp] theorem State.beginDecode_res3 : (s.beginDecode).res3 = s.res3 := rfl
@[simp] theorem State.beginDecode_abuf : (s.beginDecode).abuf = s.abuf := rfl
@[simp] theorem State.beginDecode_poseX : (s.beginDecode).poseX = s.poseX := rfl
@[simp] theorem State.beginDecode_poseY : (s.beginDecode).poseY = s.poseY := rfl
@[simp] theorem State.beginDecode_poseTh : (s.beginDecode).poseTh = s.poseTh := rfl
@[simp] theorem State.beginDecode_priorL : (s.beginDecode).priorL = s.priorL := rfl
@[simp] theorem State.beginDecode_priorR : (s.beginDecode).priorR = s.priorR := rfl
@[simp] theorem State.beginDecode_priorValid : (s.beginDecode).priorValid = s.priorValid := rfl
@[simp] theorem State.beginDecode_dstate : (s.beginDecode).dstate = .seek := rfl
@[simp] theorem State.beginDecode_n : (s.beginDecode).n = s.n := rfl
@[simp] theorem State.beginDecode_cnt : (s.beginDecode).cnt = s.cnt := rfl
@[simp] theorem State.beginDecode_sum : (s.beginDecode).sum = s.sum := rfl
@[simp] theorem State.beginDecode_body : (s.beginDecode).body = s.body := rfl
@[simp] theorem State.beginDecode_entry : (s.beginDecode).entry = s.entry := rfl
@[simp] theorem State.beginDecode_valid : (s.beginDecode).valid = false := rfl
@[simp] theorem State.beginDecode_len : (s.beginDecode).len = 0 := rfl
@[simp] theorem State.beginDecode_count : (s.beginDecode).count = 0 := rfl
@[simp] theorem State.beginDecode_junk : (s.beginDecode).junk = 0 := rfl
@[simp] theorem State.beginDecode_nameLen : (s.beginDecode).nameLen = s.nameLen := rfl
@[simp] theorem State.beginDecode_name : (s.beginDecode).name = s.name := rfl
@[simp] theorem State.beginDecode_txpend : (s.beginDecode).txpend = s.txpend := rfl
@[simp] theorem State.beginDecode_rxq : (s.beginDecode).rxq = s.rxq := rfl
@[simp] theorem State.beginDecode_terr : (s.beginDecode).terr = s.terr := rfl
@[simp] theorem State.beginDecode_txout : (s.beginDecode).txout = s.txout := rfl
@[simp] theorem State.beginDecode_todo : (s.beginDecode).todo = s.todo := rfl
@[simp] theorem State.beginDecode_reads : (s.beginDecode).reads = s.reads := rfl
@[simp] theorem State.beginDecode_turns : (s.beginDecode).turns = s.turns := rfl

/-! ### clearName -/

@[simp] theorem State.clearName_cfg : (s.clearName).cfg = s.cfg := rfl
@[simp] theorem State.clearName_op : (s.clearName).op = s.op := rfl
@[simp] theorem State.clearName_done : (s.clearName).done = s.done := rfl
@[simp] theorem State.clearName_err : (s.clearName).err = s.err := rfl
@[simp] theorem State.clearName_ecode : (s.clearName).ecode = s.ecode := rfl
@[simp] theorem State.clearName_ovr : (s.clearName).ovr = s.ovr := rfl
@[simp] theorem State.clearName_accerr : (s.clearName).accerr = s.accerr := rfl
@[simp] theorem State.clearName_ovf : (s.clearName).ovf = s.ovf := rfl
@[simp] theorem State.clearName_marks : (s.clearName).marks = s.marks := rfl
@[simp] theorem State.clearName_cur : (s.clearName).cur = s.cur := rfl
@[simp] theorem State.clearName_arg0 : (s.clearName).arg0 = s.arg0 := rfl
@[simp] theorem State.clearName_arg1 : (s.clearName).arg1 = s.arg1 := rfl
@[simp] theorem State.clearName_arg2 : (s.clearName).arg2 = s.arg2 := rfl
@[simp] theorem State.clearName_res0 : (s.clearName).res0 = s.res0 := rfl
@[simp] theorem State.clearName_res1 : (s.clearName).res1 = s.res1 := rfl
@[simp] theorem State.clearName_res2 : (s.clearName).res2 = s.res2 := rfl
@[simp] theorem State.clearName_res3 : (s.clearName).res3 = s.res3 := rfl
@[simp] theorem State.clearName_abuf : (s.clearName).abuf = s.abuf := rfl
@[simp] theorem State.clearName_poseX : (s.clearName).poseX = s.poseX := rfl
@[simp] theorem State.clearName_poseY : (s.clearName).poseY = s.poseY := rfl
@[simp] theorem State.clearName_poseTh : (s.clearName).poseTh = s.poseTh := rfl
@[simp] theorem State.clearName_priorL : (s.clearName).priorL = s.priorL := rfl
@[simp] theorem State.clearName_priorR : (s.clearName).priorR = s.priorR := rfl
@[simp] theorem State.clearName_priorValid : (s.clearName).priorValid = s.priorValid := rfl
@[simp] theorem State.clearName_dstate : (s.clearName).dstate = s.dstate := rfl
@[simp] theorem State.clearName_n : (s.clearName).n = s.n := rfl
@[simp] theorem State.clearName_cnt : (s.clearName).cnt = s.cnt := rfl
@[simp] theorem State.clearName_sum : (s.clearName).sum = s.sum := rfl
@[simp] theorem State.clearName_body : (s.clearName).body = s.body := rfl
@[simp] theorem State.clearName_entry : (s.clearName).entry = s.entry := rfl
@[simp] theorem State.clearName_valid : (s.clearName).valid = s.valid := rfl
@[simp] theorem State.clearName_len : (s.clearName).len = s.len := rfl
@[simp] theorem State.clearName_count : (s.clearName).count = s.count := rfl
@[simp] theorem State.clearName_junk : (s.clearName).junk = s.junk := rfl
@[simp] theorem State.clearName_nameLen : (s.clearName).nameLen = 0 := rfl
@[simp] theorem State.clearName_name : (s.clearName).name = s.name := rfl
@[simp] theorem State.clearName_txpend : (s.clearName).txpend = s.txpend := rfl
@[simp] theorem State.clearName_rxq : (s.clearName).rxq = s.rxq := rfl
@[simp] theorem State.clearName_terr : (s.clearName).terr = s.terr := rfl
@[simp] theorem State.clearName_txout : (s.clearName).txout = s.txout := rfl
@[simp] theorem State.clearName_todo : (s.clearName).todo = s.todo := rfl
@[simp] theorem State.clearName_reads : (s.clearName).reads = s.reads := rfl
@[simp] theorem State.clearName_turns : (s.clearName).turns = s.turns := rfl

/-! ### setName -/

@[simp] theorem State.setName_cfg (bytes : List Byte) : (s.setName bytes).cfg = s.cfg := rfl
@[simp] theorem State.setName_op (bytes : List Byte) : (s.setName bytes).op = s.op := rfl
@[simp] theorem State.setName_done (bytes : List Byte) : (s.setName bytes).done = s.done := rfl
@[simp] theorem State.setName_err (bytes : List Byte) : (s.setName bytes).err = s.err := rfl
@[simp] theorem State.setName_ecode (bytes : List Byte) : (s.setName bytes).ecode = s.ecode := rfl
@[simp] theorem State.setName_ovr (bytes : List Byte) : (s.setName bytes).ovr = s.ovr := rfl
@[simp] theorem State.setName_accerr (bytes : List Byte) : (s.setName bytes).accerr = s.accerr := rfl
@[simp] theorem State.setName_ovf (bytes : List Byte) : (s.setName bytes).ovf = s.ovf := rfl
@[simp] theorem State.setName_marks (bytes : List Byte) : (s.setName bytes).marks = s.marks := rfl
@[simp] theorem State.setName_cur (bytes : List Byte) : (s.setName bytes).cur = s.cur := rfl
@[simp] theorem State.setName_arg0 (bytes : List Byte) : (s.setName bytes).arg0 = s.arg0 := rfl
@[simp] theorem State.setName_arg1 (bytes : List Byte) : (s.setName bytes).arg1 = s.arg1 := rfl
@[simp] theorem State.setName_arg2 (bytes : List Byte) : (s.setName bytes).arg2 = s.arg2 := rfl
@[simp] theorem State.setName_res0 (bytes : List Byte) : (s.setName bytes).res0 = s.res0 := rfl
@[simp] theorem State.setName_res1 (bytes : List Byte) : (s.setName bytes).res1 = s.res1 := rfl
@[simp] theorem State.setName_res2 (bytes : List Byte) : (s.setName bytes).res2 = s.res2 := rfl
@[simp] theorem State.setName_res3 (bytes : List Byte) : (s.setName bytes).res3 = s.res3 := rfl
@[simp] theorem State.setName_abuf (bytes : List Byte) : (s.setName bytes).abuf = s.abuf := rfl
@[simp] theorem State.setName_poseX (bytes : List Byte) : (s.setName bytes).poseX = s.poseX := rfl
@[simp] theorem State.setName_poseY (bytes : List Byte) : (s.setName bytes).poseY = s.poseY := rfl
@[simp] theorem State.setName_poseTh (bytes : List Byte) : (s.setName bytes).poseTh = s.poseTh := rfl
@[simp] theorem State.setName_priorL (bytes : List Byte) : (s.setName bytes).priorL = s.priorL := rfl
@[simp] theorem State.setName_priorR (bytes : List Byte) : (s.setName bytes).priorR = s.priorR := rfl
@[simp] theorem State.setName_priorValid (bytes : List Byte) : (s.setName bytes).priorValid = s.priorValid := rfl
@[simp] theorem State.setName_dstate (bytes : List Byte) : (s.setName bytes).dstate = s.dstate := rfl
@[simp] theorem State.setName_n (bytes : List Byte) : (s.setName bytes).n = s.n := rfl
@[simp] theorem State.setName_cnt (bytes : List Byte) : (s.setName bytes).cnt = s.cnt := rfl
@[simp] theorem State.setName_sum (bytes : List Byte) : (s.setName bytes).sum = s.sum := rfl
@[simp] theorem State.setName_body (bytes : List Byte) : (s.setName bytes).body = s.body := rfl
@[simp] theorem State.setName_entry (bytes : List Byte) : (s.setName bytes).entry = s.entry := rfl
@[simp] theorem State.setName_valid (bytes : List Byte) : (s.setName bytes).valid = s.valid := rfl
@[simp] theorem State.setName_len (bytes : List Byte) : (s.setName bytes).len = s.len := rfl
@[simp] theorem State.setName_count (bytes : List Byte) : (s.setName bytes).count = s.count := rfl
@[simp] theorem State.setName_junk (bytes : List Byte) : (s.setName bytes).junk = s.junk := rfl
@[simp] theorem State.setName_nameLen (bytes : List Byte) : (s.setName bytes).nameLen = BitVec.ofNat 6 bytes.length := rfl
@[simp] theorem State.setName_name (bytes : List Byte) : (s.setName bytes).name = Vector.ofFn fun i : Fin 32 => bytes.getD i.val s.name[i] := rfl
@[simp] theorem State.setName_txpend (bytes : List Byte) : (s.setName bytes).txpend = s.txpend := rfl
@[simp] theorem State.setName_rxq (bytes : List Byte) : (s.setName bytes).rxq = s.rxq := rfl
@[simp] theorem State.setName_terr (bytes : List Byte) : (s.setName bytes).terr = s.terr := rfl
@[simp] theorem State.setName_txout (bytes : List Byte) : (s.setName bytes).txout = s.txout := rfl
@[simp] theorem State.setName_todo (bytes : List Byte) : (s.setName bytes).todo = s.todo := rfl
@[simp] theorem State.setName_reads (bytes : List Byte) : (s.setName bytes).reads = s.reads := rfl
@[simp] theorem State.setName_turns (bytes : List Byte) : (s.setName bytes).turns = s.turns := rfl

/-! ### setRes01 -/

@[simp] theorem State.setRes01_cfg (a b : Word) : (s.setRes01 a b).cfg = s.cfg := rfl
@[simp] theorem State.setRes01_op (a b : Word) : (s.setRes01 a b).op = s.op := rfl
@[simp] theorem State.setRes01_done (a b : Word) : (s.setRes01 a b).done = s.done := rfl
@[simp] theorem State.setRes01_err (a b : Word) : (s.setRes01 a b).err = s.err := rfl
@[simp] theorem State.setRes01_ecode (a b : Word) : (s.setRes01 a b).ecode = s.ecode := rfl
@[simp] theorem State.setRes01_ovr (a b : Word) : (s.setRes01 a b).ovr = s.ovr := rfl
@[simp] theorem State.setRes01_accerr (a b : Word) : (s.setRes01 a b).accerr = s.accerr := rfl
@[simp] theorem State.setRes01_ovf (a b : Word) : (s.setRes01 a b).ovf = s.ovf := rfl
@[simp] theorem State.setRes01_marks (a b : Word) : (s.setRes01 a b).marks = s.marks := rfl
@[simp] theorem State.setRes01_cur (a b : Word) : (s.setRes01 a b).cur = s.cur := rfl
@[simp] theorem State.setRes01_arg0 (a b : Word) : (s.setRes01 a b).arg0 = s.arg0 := rfl
@[simp] theorem State.setRes01_arg1 (a b : Word) : (s.setRes01 a b).arg1 = s.arg1 := rfl
@[simp] theorem State.setRes01_arg2 (a b : Word) : (s.setRes01 a b).arg2 = s.arg2 := rfl
@[simp] theorem State.setRes01_res0 (a b : Word) : (s.setRes01 a b).res0 = a := rfl
@[simp] theorem State.setRes01_res1 (a b : Word) : (s.setRes01 a b).res1 = b := rfl
@[simp] theorem State.setRes01_res2 (a b : Word) : (s.setRes01 a b).res2 = s.res2 := rfl
@[simp] theorem State.setRes01_res3 (a b : Word) : (s.setRes01 a b).res3 = s.res3 := rfl
@[simp] theorem State.setRes01_abuf (a b : Word) : (s.setRes01 a b).abuf = s.abuf := rfl
@[simp] theorem State.setRes01_poseX (a b : Word) : (s.setRes01 a b).poseX = s.poseX := rfl
@[simp] theorem State.setRes01_poseY (a b : Word) : (s.setRes01 a b).poseY = s.poseY := rfl
@[simp] theorem State.setRes01_poseTh (a b : Word) : (s.setRes01 a b).poseTh = s.poseTh := rfl
@[simp] theorem State.setRes01_priorL (a b : Word) : (s.setRes01 a b).priorL = s.priorL := rfl
@[simp] theorem State.setRes01_priorR (a b : Word) : (s.setRes01 a b).priorR = s.priorR := rfl
@[simp] theorem State.setRes01_priorValid (a b : Word) : (s.setRes01 a b).priorValid = s.priorValid := rfl
@[simp] theorem State.setRes01_dstate (a b : Word) : (s.setRes01 a b).dstate = s.dstate := rfl
@[simp] theorem State.setRes01_n (a b : Word) : (s.setRes01 a b).n = s.n := rfl
@[simp] theorem State.setRes01_cnt (a b : Word) : (s.setRes01 a b).cnt = s.cnt := rfl
@[simp] theorem State.setRes01_sum (a b : Word) : (s.setRes01 a b).sum = s.sum := rfl
@[simp] theorem State.setRes01_body (a b : Word) : (s.setRes01 a b).body = s.body := rfl
@[simp] theorem State.setRes01_entry (a b : Word) : (s.setRes01 a b).entry = s.entry := rfl
@[simp] theorem State.setRes01_valid (a b : Word) : (s.setRes01 a b).valid = s.valid := rfl
@[simp] theorem State.setRes01_len (a b : Word) : (s.setRes01 a b).len = s.len := rfl
@[simp] theorem State.setRes01_count (a b : Word) : (s.setRes01 a b).count = s.count := rfl
@[simp] theorem State.setRes01_junk (a b : Word) : (s.setRes01 a b).junk = s.junk := rfl
@[simp] theorem State.setRes01_nameLen (a b : Word) : (s.setRes01 a b).nameLen = s.nameLen := rfl
@[simp] theorem State.setRes01_name (a b : Word) : (s.setRes01 a b).name = s.name := rfl
@[simp] theorem State.setRes01_txpend (a b : Word) : (s.setRes01 a b).txpend = s.txpend := rfl
@[simp] theorem State.setRes01_rxq (a b : Word) : (s.setRes01 a b).rxq = s.rxq := rfl
@[simp] theorem State.setRes01_terr (a b : Word) : (s.setRes01 a b).terr = s.terr := rfl
@[simp] theorem State.setRes01_txout (a b : Word) : (s.setRes01 a b).txout = s.txout := rfl
@[simp] theorem State.setRes01_todo (a b : Word) : (s.setRes01 a b).todo = s.todo := rfl
@[simp] theorem State.setRes01_reads (a b : Word) : (s.setRes01 a b).reads = s.reads := rfl
@[simp] theorem State.setRes01_turns (a b : Word) : (s.setRes01 a b).turns = s.turns := rfl

/-! ### loadPrior -/

@[simp] theorem State.loadPrior_cfg (l r : BitVec 16) : (s.loadPrior l r).cfg = s.cfg := rfl
@[simp] theorem State.loadPrior_op (l r : BitVec 16) : (s.loadPrior l r).op = s.op := rfl
@[simp] theorem State.loadPrior_done (l r : BitVec 16) : (s.loadPrior l r).done = s.done := rfl
@[simp] theorem State.loadPrior_err (l r : BitVec 16) : (s.loadPrior l r).err = s.err := rfl
@[simp] theorem State.loadPrior_ecode (l r : BitVec 16) : (s.loadPrior l r).ecode = s.ecode := rfl
@[simp] theorem State.loadPrior_ovr (l r : BitVec 16) : (s.loadPrior l r).ovr = s.ovr := rfl
@[simp] theorem State.loadPrior_accerr (l r : BitVec 16) : (s.loadPrior l r).accerr = s.accerr := rfl
@[simp] theorem State.loadPrior_ovf (l r : BitVec 16) : (s.loadPrior l r).ovf = s.ovf := rfl
@[simp] theorem State.loadPrior_marks (l r : BitVec 16) : (s.loadPrior l r).marks = s.marks := rfl
@[simp] theorem State.loadPrior_cur (l r : BitVec 16) : (s.loadPrior l r).cur = s.cur := rfl
@[simp] theorem State.loadPrior_arg0 (l r : BitVec 16) : (s.loadPrior l r).arg0 = s.arg0 := rfl
@[simp] theorem State.loadPrior_arg1 (l r : BitVec 16) : (s.loadPrior l r).arg1 = s.arg1 := rfl
@[simp] theorem State.loadPrior_arg2 (l r : BitVec 16) : (s.loadPrior l r).arg2 = s.arg2 := rfl
@[simp] theorem State.loadPrior_res0 (l r : BitVec 16) : (s.loadPrior l r).res0 = s.res0 := rfl
@[simp] theorem State.loadPrior_res1 (l r : BitVec 16) : (s.loadPrior l r).res1 = s.res1 := rfl
@[simp] theorem State.loadPrior_res2 (l r : BitVec 16) : (s.loadPrior l r).res2 = s.res2 := rfl
@[simp] theorem State.loadPrior_res3 (l r : BitVec 16) : (s.loadPrior l r).res3 = s.res3 := rfl
@[simp] theorem State.loadPrior_abuf (l r : BitVec 16) : (s.loadPrior l r).abuf = s.abuf := rfl
@[simp] theorem State.loadPrior_poseX (l r : BitVec 16) : (s.loadPrior l r).poseX = s.poseX := rfl
@[simp] theorem State.loadPrior_poseY (l r : BitVec 16) : (s.loadPrior l r).poseY = s.poseY := rfl
@[simp] theorem State.loadPrior_poseTh (l r : BitVec 16) : (s.loadPrior l r).poseTh = s.poseTh := rfl
@[simp] theorem State.loadPrior_priorL (l r : BitVec 16) : (s.loadPrior l r).priorL = l := rfl
@[simp] theorem State.loadPrior_priorR (l r : BitVec 16) : (s.loadPrior l r).priorR = r := rfl
@[simp] theorem State.loadPrior_priorValid (l r : BitVec 16) : (s.loadPrior l r).priorValid = true := rfl
@[simp] theorem State.loadPrior_dstate (l r : BitVec 16) : (s.loadPrior l r).dstate = s.dstate := rfl
@[simp] theorem State.loadPrior_n (l r : BitVec 16) : (s.loadPrior l r).n = s.n := rfl
@[simp] theorem State.loadPrior_cnt (l r : BitVec 16) : (s.loadPrior l r).cnt = s.cnt := rfl
@[simp] theorem State.loadPrior_sum (l r : BitVec 16) : (s.loadPrior l r).sum = s.sum := rfl
@[simp] theorem State.loadPrior_body (l r : BitVec 16) : (s.loadPrior l r).body = s.body := rfl
@[simp] theorem State.loadPrior_entry (l r : BitVec 16) : (s.loadPrior l r).entry = s.entry := rfl
@[simp] theorem State.loadPrior_valid (l r : BitVec 16) : (s.loadPrior l r).valid = s.valid := rfl
@[simp] theorem State.loadPrior_len (l r : BitVec 16) : (s.loadPrior l r).len = s.len := rfl
@[simp] theorem State.loadPrior_count (l r : BitVec 16) : (s.loadPrior l r).count = s.count := rfl
@[simp] theorem State.loadPrior_junk (l r : BitVec 16) : (s.loadPrior l r).junk = s.junk := rfl
@[simp] theorem State.loadPrior_nameLen (l r : BitVec 16) : (s.loadPrior l r).nameLen = s.nameLen := rfl
@[simp] theorem State.loadPrior_name (l r : BitVec 16) : (s.loadPrior l r).name = s.name := rfl
@[simp] theorem State.loadPrior_txpend (l r : BitVec 16) : (s.loadPrior l r).txpend = s.txpend := rfl
@[simp] theorem State.loadPrior_rxq (l r : BitVec 16) : (s.loadPrior l r).rxq = s.rxq := rfl
@[simp] theorem State.loadPrior_terr (l r : BitVec 16) : (s.loadPrior l r).terr = s.terr := rfl
@[simp] theorem State.loadPrior_txout (l r : BitVec 16) : (s.loadPrior l r).txout = s.txout := rfl
@[simp] theorem State.loadPrior_todo (l r : BitVec 16) : (s.loadPrior l r).todo = s.todo := rfl
@[simp] theorem State.loadPrior_reads (l r : BitVec 16) : (s.loadPrior l r).reads = s.reads := rfl
@[simp] theorem State.loadPrior_turns (l r : BitVec 16) : (s.loadPrior l r).turns = s.turns := rfl

/-! ### setPose -/

@[simp] theorem State.setPose_cfg (x y th : Word) : (s.setPose x y th).cfg = s.cfg := rfl
@[simp] theorem State.setPose_op (x y th : Word) : (s.setPose x y th).op = s.op := rfl
@[simp] theorem State.setPose_done (x y th : Word) : (s.setPose x y th).done = s.done := rfl
@[simp] theorem State.setPose_err (x y th : Word) : (s.setPose x y th).err = s.err := rfl
@[simp] theorem State.setPose_ecode (x y th : Word) : (s.setPose x y th).ecode = s.ecode := rfl
@[simp] theorem State.setPose_ovr (x y th : Word) : (s.setPose x y th).ovr = s.ovr := rfl
@[simp] theorem State.setPose_accerr (x y th : Word) : (s.setPose x y th).accerr = s.accerr := rfl
@[simp] theorem State.setPose_ovf (x y th : Word) : (s.setPose x y th).ovf = s.ovf := rfl
@[simp] theorem State.setPose_marks (x y th : Word) : (s.setPose x y th).marks = s.marks := rfl
@[simp] theorem State.setPose_cur (x y th : Word) : (s.setPose x y th).cur = s.cur := rfl
@[simp] theorem State.setPose_arg0 (x y th : Word) : (s.setPose x y th).arg0 = s.arg0 := rfl
@[simp] theorem State.setPose_arg1 (x y th : Word) : (s.setPose x y th).arg1 = s.arg1 := rfl
@[simp] theorem State.setPose_arg2 (x y th : Word) : (s.setPose x y th).arg2 = s.arg2 := rfl
@[simp] theorem State.setPose_res0 (x y th : Word) : (s.setPose x y th).res0 = s.res0 := rfl
@[simp] theorem State.setPose_res1 (x y th : Word) : (s.setPose x y th).res1 = s.res1 := rfl
@[simp] theorem State.setPose_res2 (x y th : Word) : (s.setPose x y th).res2 = s.res2 := rfl
@[simp] theorem State.setPose_res3 (x y th : Word) : (s.setPose x y th).res3 = s.res3 := rfl
@[simp] theorem State.setPose_abuf (x y th : Word) : (s.setPose x y th).abuf = s.abuf := rfl
@[simp] theorem State.setPose_poseX (x y th : Word) : (s.setPose x y th).poseX = x := rfl
@[simp] theorem State.setPose_poseY (x y th : Word) : (s.setPose x y th).poseY = y := rfl
@[simp] theorem State.setPose_poseTh (x y th : Word) : (s.setPose x y th).poseTh = th := rfl
@[simp] theorem State.setPose_priorL (x y th : Word) : (s.setPose x y th).priorL = s.priorL := rfl
@[simp] theorem State.setPose_priorR (x y th : Word) : (s.setPose x y th).priorR = s.priorR := rfl
@[simp] theorem State.setPose_priorValid (x y th : Word) : (s.setPose x y th).priorValid = s.priorValid := rfl
@[simp] theorem State.setPose_dstate (x y th : Word) : (s.setPose x y th).dstate = s.dstate := rfl
@[simp] theorem State.setPose_n (x y th : Word) : (s.setPose x y th).n = s.n := rfl
@[simp] theorem State.setPose_cnt (x y th : Word) : (s.setPose x y th).cnt = s.cnt := rfl
@[simp] theorem State.setPose_sum (x y th : Word) : (s.setPose x y th).sum = s.sum := rfl
@[simp] theorem State.setPose_body (x y th : Word) : (s.setPose x y th).body = s.body := rfl
@[simp] theorem State.setPose_entry (x y th : Word) : (s.setPose x y th).entry = s.entry := rfl
@[simp] theorem State.setPose_valid (x y th : Word) : (s.setPose x y th).valid = s.valid := rfl
@[simp] theorem State.setPose_len (x y th : Word) : (s.setPose x y th).len = s.len := rfl
@[simp] theorem State.setPose_count (x y th : Word) : (s.setPose x y th).count = s.count := rfl
@[simp] theorem State.setPose_junk (x y th : Word) : (s.setPose x y th).junk = s.junk := rfl
@[simp] theorem State.setPose_nameLen (x y th : Word) : (s.setPose x y th).nameLen = s.nameLen := rfl
@[simp] theorem State.setPose_name (x y th : Word) : (s.setPose x y th).name = s.name := rfl
@[simp] theorem State.setPose_txpend (x y th : Word) : (s.setPose x y th).txpend = s.txpend := rfl
@[simp] theorem State.setPose_rxq (x y th : Word) : (s.setPose x y th).rxq = s.rxq := rfl
@[simp] theorem State.setPose_terr (x y th : Word) : (s.setPose x y th).terr = s.terr := rfl
@[simp] theorem State.setPose_txout (x y th : Word) : (s.setPose x y th).txout = s.txout := rfl
@[simp] theorem State.setPose_todo (x y th : Word) : (s.setPose x y th).todo = s.todo := rfl
@[simp] theorem State.setPose_reads (x y th : Word) : (s.setPose x y th).reads = s.reads := rfl
@[simp] theorem State.setPose_turns (x y th : Word) : (s.setPose x y th).turns = s.turns := rfl

/-! ### clearSticky -/

@[simp] theorem State.clearSticky_cfg (v : Word) : (s.clearSticky v).cfg = s.cfg := rfl
@[simp] theorem State.clearSticky_op (v : Word) : (s.clearSticky v).op = s.op := rfl
@[simp] theorem State.clearSticky_done (v : Word) : (s.clearSticky v).done = s.done := rfl
@[simp] theorem State.clearSticky_err (v : Word) : (s.clearSticky v).err = s.err := rfl
@[simp] theorem State.clearSticky_ecode (v : Word) : (s.clearSticky v).ecode = s.ecode := rfl
@[simp] theorem State.clearSticky_ovr (v : Word) : (s.clearSticky v).ovr = (s.ovr && !v.getLsbD 8) := rfl
@[simp] theorem State.clearSticky_accerr (v : Word) : (s.clearSticky v).accerr = (s.accerr && !v.getLsbD 9) := rfl
@[simp] theorem State.clearSticky_ovf (v : Word) : (s.clearSticky v).ovf = (s.ovf && !v.getLsbD 10) := rfl
@[simp] theorem State.clearSticky_marks (v : Word) : (s.clearSticky v).marks = s.marks := rfl
@[simp] theorem State.clearSticky_cur (v : Word) : (s.clearSticky v).cur = s.cur := rfl
@[simp] theorem State.clearSticky_arg0 (v : Word) : (s.clearSticky v).arg0 = s.arg0 := rfl
@[simp] theorem State.clearSticky_arg1 (v : Word) : (s.clearSticky v).arg1 = s.arg1 := rfl
@[simp] theorem State.clearSticky_arg2 (v : Word) : (s.clearSticky v).arg2 = s.arg2 := rfl
@[simp] theorem State.clearSticky_res0 (v : Word) : (s.clearSticky v).res0 = s.res0 := rfl
@[simp] theorem State.clearSticky_res1 (v : Word) : (s.clearSticky v).res1 = s.res1 := rfl
@[simp] theorem State.clearSticky_res2 (v : Word) : (s.clearSticky v).res2 = s.res2 := rfl
@[simp] theorem State.clearSticky_res3 (v : Word) : (s.clearSticky v).res3 = s.res3 := rfl
@[simp] theorem State.clearSticky_abuf (v : Word) : (s.clearSticky v).abuf = s.abuf := rfl
@[simp] theorem State.clearSticky_poseX (v : Word) : (s.clearSticky v).poseX = s.poseX := rfl
@[simp] theorem State.clearSticky_poseY (v : Word) : (s.clearSticky v).poseY = s.poseY := rfl
@[simp] theorem State.clearSticky_poseTh (v : Word) : (s.clearSticky v).poseTh = s.poseTh := rfl
@[simp] theorem State.clearSticky_priorL (v : Word) : (s.clearSticky v).priorL = s.priorL := rfl
@[simp] theorem State.clearSticky_priorR (v : Word) : (s.clearSticky v).priorR = s.priorR := rfl
@[simp] theorem State.clearSticky_priorValid (v : Word) : (s.clearSticky v).priorValid = s.priorValid := rfl
@[simp] theorem State.clearSticky_dstate (v : Word) : (s.clearSticky v).dstate = s.dstate := rfl
@[simp] theorem State.clearSticky_n (v : Word) : (s.clearSticky v).n = s.n := rfl
@[simp] theorem State.clearSticky_cnt (v : Word) : (s.clearSticky v).cnt = s.cnt := rfl
@[simp] theorem State.clearSticky_sum (v : Word) : (s.clearSticky v).sum = s.sum := rfl
@[simp] theorem State.clearSticky_body (v : Word) : (s.clearSticky v).body = s.body := rfl
@[simp] theorem State.clearSticky_entry (v : Word) : (s.clearSticky v).entry = s.entry := rfl
@[simp] theorem State.clearSticky_valid (v : Word) : (s.clearSticky v).valid = s.valid := rfl
@[simp] theorem State.clearSticky_len (v : Word) : (s.clearSticky v).len = s.len := rfl
@[simp] theorem State.clearSticky_count (v : Word) : (s.clearSticky v).count = s.count := rfl
@[simp] theorem State.clearSticky_junk (v : Word) : (s.clearSticky v).junk = s.junk := rfl
@[simp] theorem State.clearSticky_nameLen (v : Word) : (s.clearSticky v).nameLen = s.nameLen := rfl
@[simp] theorem State.clearSticky_name (v : Word) : (s.clearSticky v).name = s.name := rfl
@[simp] theorem State.clearSticky_txpend (v : Word) : (s.clearSticky v).txpend = s.txpend := rfl
@[simp] theorem State.clearSticky_rxq (v : Word) : (s.clearSticky v).rxq = s.rxq := rfl
@[simp] theorem State.clearSticky_terr (v : Word) : (s.clearSticky v).terr = s.terr := rfl
@[simp] theorem State.clearSticky_txout (v : Word) : (s.clearSticky v).txout = s.txout := rfl
@[simp] theorem State.clearSticky_todo (v : Word) : (s.clearSticky v).todo = s.todo := rfl
@[simp] theorem State.clearSticky_reads (v : Word) : (s.clearSticky v).reads = s.reads := rfl
@[simp] theorem State.clearSticky_turns (v : Word) : (s.clearSticky v).turns = s.turns := rfl

/-! ### dropCommand -/

@[simp] theorem State.dropCommand_cfg : (s.dropCommand).cfg = s.cfg := rfl
@[simp] theorem State.dropCommand_op : (s.dropCommand).op = s.op := rfl
@[simp] theorem State.dropCommand_done : (s.dropCommand).done = s.done := rfl
@[simp] theorem State.dropCommand_err : (s.dropCommand).err = s.err := rfl
@[simp] theorem State.dropCommand_ecode : (s.dropCommand).ecode = s.ecode := rfl
@[simp] theorem State.dropCommand_ovr : (s.dropCommand).ovr = true := rfl
@[simp] theorem State.dropCommand_accerr : (s.dropCommand).accerr = s.accerr := rfl
@[simp] theorem State.dropCommand_ovf : (s.dropCommand).ovf = s.ovf := rfl
@[simp] theorem State.dropCommand_marks : (s.dropCommand).marks = ⟨true, s.marks.accerr, s.marks.ovf⟩ := rfl
@[simp] theorem State.dropCommand_cur : (s.dropCommand).cur = s.cur := rfl
@[simp] theorem State.dropCommand_arg0 : (s.dropCommand).arg0 = s.arg0 := rfl
@[simp] theorem State.dropCommand_arg1 : (s.dropCommand).arg1 = s.arg1 := rfl
@[simp] theorem State.dropCommand_arg2 : (s.dropCommand).arg2 = s.arg2 := rfl
@[simp] theorem State.dropCommand_res0 : (s.dropCommand).res0 = s.res0 := rfl
@[simp] theorem State.dropCommand_res1 : (s.dropCommand).res1 = s.res1 := rfl
@[simp] theorem State.dropCommand_res2 : (s.dropCommand).res2 = s.res2 := rfl
@[simp] theorem State.dropCommand_res3 : (s.dropCommand).res3 = s.res3 := rfl
@[simp] theorem State.dropCommand_abuf : (s.dropCommand).abuf = s.abuf := rfl
@[simp] theorem State.dropCommand_poseX : (s.dropCommand).poseX = s.poseX := rfl
@[simp] theorem State.dropCommand_poseY : (s.dropCommand).poseY = s.poseY := rfl
@[simp] theorem State.dropCommand_poseTh : (s.dropCommand).poseTh = s.poseTh := rfl
@[simp] theorem State.dropCommand_priorL : (s.dropCommand).priorL = s.priorL := rfl
@[simp] theorem State.dropCommand_priorR : (s.dropCommand).priorR = s.priorR := rfl
@[simp] theorem State.dropCommand_priorValid : (s.dropCommand).priorValid = s.priorValid := rfl
@[simp] theorem State.dropCommand_dstate : (s.dropCommand).dstate = s.dstate := rfl
@[simp] theorem State.dropCommand_n : (s.dropCommand).n = s.n := rfl
@[simp] theorem State.dropCommand_cnt : (s.dropCommand).cnt = s.cnt := rfl
@[simp] theorem State.dropCommand_sum : (s.dropCommand).sum = s.sum := rfl
@[simp] theorem State.dropCommand_body : (s.dropCommand).body = s.body := rfl
@[simp] theorem State.dropCommand_entry : (s.dropCommand).entry = s.entry := rfl
@[simp] theorem State.dropCommand_valid : (s.dropCommand).valid = s.valid := rfl
@[simp] theorem State.dropCommand_len : (s.dropCommand).len = s.len := rfl
@[simp] theorem State.dropCommand_count : (s.dropCommand).count = s.count := rfl
@[simp] theorem State.dropCommand_junk : (s.dropCommand).junk = s.junk := rfl
@[simp] theorem State.dropCommand_nameLen : (s.dropCommand).nameLen = s.nameLen := rfl
@[simp] theorem State.dropCommand_name : (s.dropCommand).name = s.name := rfl
@[simp] theorem State.dropCommand_txpend : (s.dropCommand).txpend = s.txpend := rfl
@[simp] theorem State.dropCommand_rxq : (s.dropCommand).rxq = s.rxq := rfl
@[simp] theorem State.dropCommand_terr : (s.dropCommand).terr = s.terr := rfl
@[simp] theorem State.dropCommand_txout : (s.dropCommand).txout = s.txout := rfl
@[simp] theorem State.dropCommand_todo : (s.dropCommand).todo = s.todo := rfl
@[simp] theorem State.dropCommand_reads : (s.dropCommand).reads = s.reads := rfl
@[simp] theorem State.dropCommand_turns : (s.dropCommand).turns = s.turns := rfl

/-! ### refuseAccess -/

@[simp] theorem State.refuseAccess_cfg : (s.refuseAccess).cfg = s.cfg := rfl
@[simp] theorem State.refuseAccess_op : (s.refuseAccess).op = s.op := rfl
@[simp] theorem State.refuseAccess_done : (s.refuseAccess).done = s.done := rfl
@[simp] theorem State.refuseAccess_err : (s.refuseAccess).err = s.err := rfl
@[simp] theorem State.refuseAccess_ecode : (s.refuseAccess).ecode = s.ecode := rfl
@[simp] theorem State.refuseAccess_ovr : (s.refuseAccess).ovr = s.ovr := rfl
@[simp] theorem State.refuseAccess_accerr : (s.refuseAccess).accerr = true := rfl
@[simp] theorem State.refuseAccess_ovf : (s.refuseAccess).ovf = s.ovf := rfl
@[simp] theorem State.refuseAccess_marks : (s.refuseAccess).marks = ⟨s.marks.ovr, true, s.marks.ovf⟩ := rfl
@[simp] theorem State.refuseAccess_cur : (s.refuseAccess).cur = s.cur := rfl
@[simp] theorem State.refuseAccess_arg0 : (s.refuseAccess).arg0 = s.arg0 := rfl
@[simp] theorem State.refuseAccess_arg1 : (s.refuseAccess).arg1 = s.arg1 := rfl
@[simp] theorem State.refuseAccess_arg2 : (s.refuseAccess).arg2 = s.arg2 := rfl
@[simp] theorem State.refuseAccess_res0 : (s.refuseAccess).res0 = s.res0 := rfl
@[simp] theorem State.refuseAccess_res1 : (s.refuseAccess).res1 = s.res1 := rfl
@[simp] theorem State.refuseAccess_res2 : (s.refuseAccess).res2 = s.res2 := rfl
@[simp] theorem State.refuseAccess_res3 : (s.refuseAccess).res3 = s.res3 := rfl
@[simp] theorem State.refuseAccess_abuf : (s.refuseAccess).abuf = s.abuf := rfl
@[simp] theorem State.refuseAccess_poseX : (s.refuseAccess).poseX = s.poseX := rfl
@[simp] theorem State.refuseAccess_poseY : (s.refuseAccess).poseY = s.poseY := rfl
@[simp] theorem State.refuseAccess_poseTh : (s.refuseAccess).poseTh = s.poseTh := rfl
@[simp] theorem State.refuseAccess_priorL : (s.refuseAccess).priorL = s.priorL := rfl
@[simp] theorem State.refuseAccess_priorR : (s.refuseAccess).priorR = s.priorR := rfl
@[simp] theorem State.refuseAccess_priorValid : (s.refuseAccess).priorValid = s.priorValid := rfl
@[simp] theorem State.refuseAccess_dstate : (s.refuseAccess).dstate = s.dstate := rfl
@[simp] theorem State.refuseAccess_n : (s.refuseAccess).n = s.n := rfl
@[simp] theorem State.refuseAccess_cnt : (s.refuseAccess).cnt = s.cnt := rfl
@[simp] theorem State.refuseAccess_sum : (s.refuseAccess).sum = s.sum := rfl
@[simp] theorem State.refuseAccess_body : (s.refuseAccess).body = s.body := rfl
@[simp] theorem State.refuseAccess_entry : (s.refuseAccess).entry = s.entry := rfl
@[simp] theorem State.refuseAccess_valid : (s.refuseAccess).valid = s.valid := rfl
@[simp] theorem State.refuseAccess_len : (s.refuseAccess).len = s.len := rfl
@[simp] theorem State.refuseAccess_count : (s.refuseAccess).count = s.count := rfl
@[simp] theorem State.refuseAccess_junk : (s.refuseAccess).junk = s.junk := rfl
@[simp] theorem State.refuseAccess_nameLen : (s.refuseAccess).nameLen = s.nameLen := rfl
@[simp] theorem State.refuseAccess_name : (s.refuseAccess).name = s.name := rfl
@[simp] theorem State.refuseAccess_txpend : (s.refuseAccess).txpend = s.txpend := rfl
@[simp] theorem State.refuseAccess_rxq : (s.refuseAccess).rxq = s.rxq := rfl
@[simp] theorem State.refuseAccess_terr : (s.refuseAccess).terr = s.terr := rfl
@[simp] theorem State.refuseAccess_txout : (s.refuseAccess).txout = s.txout := rfl
@[simp] theorem State.refuseAccess_todo : (s.refuseAccess).todo = s.todo := rfl
@[simp] theorem State.refuseAccess_reads : (s.refuseAccess).reads = s.reads := rfl
@[simp] theorem State.refuseAccess_turns : (s.refuseAccess).turns = s.turns := rfl

/-! ### noteOverflow -/

@[simp] theorem State.noteOverflow_cfg (b : Bool) : (s.noteOverflow b).cfg = s.cfg := rfl
@[simp] theorem State.noteOverflow_op (b : Bool) : (s.noteOverflow b).op = s.op := rfl
@[simp] theorem State.noteOverflow_done (b : Bool) : (s.noteOverflow b).done = s.done := rfl
@[simp] theorem State.noteOverflow_err (b : Bool) : (s.noteOverflow b).err = s.err := rfl
@[simp] theorem State.noteOverflow_ecode (b : Bool) : (s.noteOverflow b).ecode = s.ecode := rfl
@[simp] theorem State.noteOverflow_ovr (b : Bool) : (s.noteOverflow b).ovr = s.ovr := rfl
@[simp] theorem State.noteOverflow_accerr (b : Bool) : (s.noteOverflow b).accerr = s.accerr := rfl
@[simp] theorem State.noteOverflow_ovf (b : Bool) : (s.noteOverflow b).ovf = (s.ovf || b) := rfl
@[simp] theorem State.noteOverflow_marks (b : Bool) : (s.noteOverflow b).marks = ⟨s.marks.ovr, s.marks.accerr, s.marks.ovf || b⟩ := rfl
@[simp] theorem State.noteOverflow_cur (b : Bool) : (s.noteOverflow b).cur = s.cur := rfl
@[simp] theorem State.noteOverflow_arg0 (b : Bool) : (s.noteOverflow b).arg0 = s.arg0 := rfl
@[simp] theorem State.noteOverflow_arg1 (b : Bool) : (s.noteOverflow b).arg1 = s.arg1 := rfl
@[simp] theorem State.noteOverflow_arg2 (b : Bool) : (s.noteOverflow b).arg2 = s.arg2 := rfl
@[simp] theorem State.noteOverflow_res0 (b : Bool) : (s.noteOverflow b).res0 = s.res0 := rfl
@[simp] theorem State.noteOverflow_res1 (b : Bool) : (s.noteOverflow b).res1 = s.res1 := rfl
@[simp] theorem State.noteOverflow_res2 (b : Bool) : (s.noteOverflow b).res2 = s.res2 := rfl
@[simp] theorem State.noteOverflow_res3 (b : Bool) : (s.noteOverflow b).res3 = s.res3 := rfl
@[simp] theorem State.noteOverflow_abuf (b : Bool) : (s.noteOverflow b).abuf = s.abuf := rfl
@[simp] theorem State.noteOverflow_poseX (b : Bool) : (s.noteOverflow b).poseX = s.poseX := rfl
@[simp] theorem State.noteOverflow_poseY (b : Bool) : (s.noteOverflow b).poseY = s.poseY := rfl
@[simp] theorem State.noteOverflow_poseTh (b : Bool) : (s.noteOverflow b).poseTh = s.poseTh := rfl
@[simp] theorem State.noteOverflow_priorL (b : Bool) : (s.noteOverflow b).priorL = s.priorL := rfl
@[simp] theorem State.noteOverflow_priorR (b : Bool) : (s.noteOverflow b).priorR = s.priorR := rfl
@[simp] theorem State.noteOverflow_priorValid (b : Bool) : (s.noteOverflow b).priorValid = s.priorValid := rfl
@[simp] theorem State.noteOverflow_dstate (b : Bool) : (s.noteOverflow b).dstate = s.dstate := rfl
@[simp] theorem State.noteOverflow_n (b : Bool) : (s.noteOverflow b).n = s.n := rfl
@[simp] theorem State.noteOverflow_cnt (b : Bool) : (s.noteOverflow b).cnt = s.cnt := rfl
@[simp] theorem State.noteOverflow_sum (b : Bool) : (s.noteOverflow b).sum = s.sum := rfl
@[simp] theorem State.noteOverflow_body (b : Bool) : (s.noteOverflow b).body = s.body := rfl
@[simp] theorem State.noteOverflow_entry (b : Bool) : (s.noteOverflow b).entry = s.entry := rfl
@[simp] theorem State.noteOverflow_valid (b : Bool) : (s.noteOverflow b).valid = s.valid := rfl
@[simp] theorem State.noteOverflow_len (b : Bool) : (s.noteOverflow b).len = s.len := rfl
@[simp] theorem State.noteOverflow_count (b : Bool) : (s.noteOverflow b).count = s.count := rfl
@[simp] theorem State.noteOverflow_junk (b : Bool) : (s.noteOverflow b).junk = s.junk := rfl
@[simp] theorem State.noteOverflow_nameLen (b : Bool) : (s.noteOverflow b).nameLen = s.nameLen := rfl
@[simp] theorem State.noteOverflow_name (b : Bool) : (s.noteOverflow b).name = s.name := rfl
@[simp] theorem State.noteOverflow_txpend (b : Bool) : (s.noteOverflow b).txpend = s.txpend := rfl
@[simp] theorem State.noteOverflow_rxq (b : Bool) : (s.noteOverflow b).rxq = s.rxq := rfl
@[simp] theorem State.noteOverflow_terr (b : Bool) : (s.noteOverflow b).terr = s.terr := rfl
@[simp] theorem State.noteOverflow_txout (b : Bool) : (s.noteOverflow b).txout = s.txout := rfl
@[simp] theorem State.noteOverflow_todo (b : Bool) : (s.noteOverflow b).todo = s.todo := rfl
@[simp] theorem State.noteOverflow_reads (b : Bool) : (s.noteOverflow b).reads = s.reads := rfl
@[simp] theorem State.noteOverflow_turns (b : Bool) : (s.noteOverflow b).turns = s.turns := rfl

/-! ### logRead -/

@[simp] theorem logRead_cfg (a : Nat) (v : Word) : (logRead s a v).cfg = s.cfg := rfl
@[simp] theorem logRead_op (a : Nat) (v : Word) : (logRead s a v).op = s.op := rfl
@[simp] theorem logRead_done (a : Nat) (v : Word) : (logRead s a v).done = s.done := rfl
@[simp] theorem logRead_err (a : Nat) (v : Word) : (logRead s a v).err = s.err := rfl
@[simp] theorem logRead_ecode (a : Nat) (v : Word) : (logRead s a v).ecode = s.ecode := rfl
@[simp] theorem logRead_ovr (a : Nat) (v : Word) : (logRead s a v).ovr = s.ovr := rfl
@[simp] theorem logRead_accerr (a : Nat) (v : Word) : (logRead s a v).accerr = s.accerr := rfl
@[simp] theorem logRead_ovf (a : Nat) (v : Word) : (logRead s a v).ovf = s.ovf := rfl
@[simp] theorem logRead_marks (a : Nat) (v : Word) : (logRead s a v).marks = s.marks := rfl
@[simp] theorem logRead_cur (a : Nat) (v : Word) : (logRead s a v).cur = s.cur := rfl
@[simp] theorem logRead_arg0 (a : Nat) (v : Word) : (logRead s a v).arg0 = s.arg0 := rfl
@[simp] theorem logRead_arg1 (a : Nat) (v : Word) : (logRead s a v).arg1 = s.arg1 := rfl
@[simp] theorem logRead_arg2 (a : Nat) (v : Word) : (logRead s a v).arg2 = s.arg2 := rfl
@[simp] theorem logRead_res0 (a : Nat) (v : Word) : (logRead s a v).res0 = s.res0 := rfl
@[simp] theorem logRead_res1 (a : Nat) (v : Word) : (logRead s a v).res1 = s.res1 := rfl
@[simp] theorem logRead_res2 (a : Nat) (v : Word) : (logRead s a v).res2 = s.res2 := rfl
@[simp] theorem logRead_res3 (a : Nat) (v : Word) : (logRead s a v).res3 = s.res3 := rfl
@[simp] theorem logRead_abuf (a : Nat) (v : Word) : (logRead s a v).abuf = s.abuf := rfl
@[simp] theorem logRead_poseX (a : Nat) (v : Word) : (logRead s a v).poseX = s.poseX := rfl
@[simp] theorem logRead_poseY (a : Nat) (v : Word) : (logRead s a v).poseY = s.poseY := rfl
@[simp] theorem logRead_poseTh (a : Nat) (v : Word) : (logRead s a v).poseTh = s.poseTh := rfl
@[simp] theorem logRead_priorL (a : Nat) (v : Word) : (logRead s a v).priorL = s.priorL := rfl
@[simp] theorem logRead_priorR (a : Nat) (v : Word) : (logRead s a v).priorR = s.priorR := rfl
@[simp] theorem logRead_priorValid (a : Nat) (v : Word) : (logRead s a v).priorValid = s.priorValid := rfl
@[simp] theorem logRead_dstate (a : Nat) (v : Word) : (logRead s a v).dstate = s.dstate := rfl
@[simp] theorem logRead_n (a : Nat) (v : Word) : (logRead s a v).n = s.n := rfl
@[simp] theorem logRead_cnt (a : Nat) (v : Word) : (logRead s a v).cnt = s.cnt := rfl
@[simp] theorem logRead_sum (a : Nat) (v : Word) : (logRead s a v).sum = s.sum := rfl
@[simp] theorem logRead_body (a : Nat) (v : Word) : (logRead s a v).body = s.body := rfl
@[simp] theorem logRead_entry (a : Nat) (v : Word) : (logRead s a v).entry = s.entry := rfl
@[simp] theorem logRead_valid (a : Nat) (v : Word) : (logRead s a v).valid = s.valid := rfl
@[simp] theorem logRead_len (a : Nat) (v : Word) : (logRead s a v).len = s.len := rfl
@[simp] theorem logRead_count (a : Nat) (v : Word) : (logRead s a v).count = s.count := rfl
@[simp] theorem logRead_junk (a : Nat) (v : Word) : (logRead s a v).junk = s.junk := rfl
@[simp] theorem logRead_nameLen (a : Nat) (v : Word) : (logRead s a v).nameLen = s.nameLen := rfl
@[simp] theorem logRead_name (a : Nat) (v : Word) : (logRead s a v).name = s.name := rfl
@[simp] theorem logRead_txpend (a : Nat) (v : Word) : (logRead s a v).txpend = s.txpend := rfl
@[simp] theorem logRead_rxq (a : Nat) (v : Word) : (logRead s a v).rxq = s.rxq := rfl
@[simp] theorem logRead_terr (a : Nat) (v : Word) : (logRead s a v).terr = s.terr := rfl
@[simp] theorem logRead_txout (a : Nat) (v : Word) : (logRead s a v).txout = s.txout := rfl
@[simp] theorem logRead_todo (a : Nat) (v : Word) : (logRead s a v).todo = s.todo := rfl
@[simp] theorem logRead_reads (a : Nat) (v : Word) : (logRead s a v).reads = (a, v) :: s.reads := rfl
@[simp] theorem logRead_turns (a : Nat) (v : Word) : (logRead s a v).turns = s.turns := rfl

/-! ### BUSY is a view of CUR -/

@[simp] theorem State.acceptMark_busy (op : Byte) : (s.acceptMark op).busy = s.busy := rfl
@[simp] theorem State.complete_busy : s.complete.busy = false := rfl
@[simp] theorem State.raise_busy (e : ECode) (i0 i1 : Nat) : (s.raise e i0 i1).busy = false := rfl
@[simp] theorem State.launch_busy (i : Instr) (seq : List Byte) : (s.launch i seq).busy = true := rfl
@[simp] theorem State.beginDecode_busy : s.beginDecode.busy = true := rfl

/-- BUSY = 0 says that nothing is in flight (R55). -/
theorem State.busy_eq_false : s.busy = false ↔ s.cur = none := by
  unfold State.busy; cases s.cur <;> simp

/-- BUSY = 1 says that something is in flight (R55). -/
theorem State.busy_eq_true : s.busy = true ↔ s.cur ≠ none := by
  unfold State.busy; cases s.cur <;> simp

theorem State.raiseError_eq (e : OpError) : s.raiseError e = s.raise e.code e.info0 e.info1 := rfl

end Sys2Proof.Machine
end

