-- ==== Sys2Proof/Laws/Ops.lean ====
section
/-!
SUPPORT. What the shared operations can do: one lemma for each of accept, withBytes and launchOrRaise, and what NBUF reads after a
name is set.
-/

namespace Sys2Proof.Machine

/-- An accept in a legal configuration with nothing in flight goes on from the marked state. -/
theorem acceptOp_idle {op : Byte} {s : State} {k : State → Result} (hc : s.cfg.wf = true) (hb : s.busy = false) :
    acceptOp op s k = k (s.acceptMark op) := by
  simp [acceptOp, hc, hb]

/-- While BUSY = 1 a CMD write is dropped (60_exceptions.md R337). -/
theorem acceptOp_busy {op : Byte} {s : State} {k : State → Result} (hc : s.cfg.wf = true) (hb : s.busy = true) :
    acceptOp op s k = .next s.dropCommand := by
  simp [acceptOp, hc, hb]

/-- Everything an accept that answers a next state can have done. -/
theorem acceptOp_next {op : Byte} {s t : State} {k : State → Result} (h : acceptOp op s k = .next t) :
    s.cfg.wf = true ∧
      ((s.busy = true ∧ t = s.dropCommand) ∨ (s.busy = false ∧ k (s.acceptMark op) = .next t)) := by
  unfold acceptOp at h
  cases hc : s.cfg.wf <;> simp only [hc, if_true, Bool.false_eq_true, if_false, reduceCtorEq] at h
  refine ⟨rfl, ?_⟩
  cases hb : s.busy <;> simp only [hb, if_true, Bool.false_eq_true, if_false] at h
  · exact .inr ⟨rfl, h⟩
  · exact .inl ⟨rfl, by simpa using h.symm⟩

/-- Everything an accept of operation i that answers a next state can have done. -/
theorem accept_next {i : Instr} {s t : State} {k : State → Result} (h : accept i s k = .next t) :
    s.cfg.wf = true ∧
      ((s.busy = true ∧ t = s.dropCommand) ∨ (s.busy = false ∧ k (s.acceptMark (opcode i)) = .next t)) :=
  acceptOp_next h

/-- An accept of operation i with nothing in flight. -/
theorem accept_idle {i : Instr} {s : State} {k : State → Result} (hc : s.cfg.wf = true) (hb : s.busy = false) :
    accept i s k = k (s.acceptMark (opcode i)) :=
  acceptOp_idle hc hb

/-- Operand bytes were read if the operation goes on to a next state. -/
theorem withBytes_next {r : Except Fault (List Byte)} {k : List Byte → Result} {t : State}
    (h : withBytes r k = .next t) : ∃ bytes, r = .ok bytes ∧ k bytes = .next t := by
  cases r with
  | ok bytes => exact ⟨bytes, rfl, h⟩
  | error f => simp [withBytes] at h

/-- An encoder's accept ends by a launch or by a raise. -/
theorem launchOrRaise_cases (i : Instr) (s : State) (r : Except OpError (List Byte)) :
    (∃ seq, r = .ok seq ∧ launchOrRaise i s r = s.launch i seq) ∨
      ∃ e, r = .error e ∧ launchOrRaise i s r = s.raise e.code e.info0 e.info1 := by
  cases r with
  | ok seq => exact .inl ⟨seq, rfl, rfl⟩
  | error e => exact .inr ⟨e, rfl, rfl⟩

/-- NBUF shows the name just set, and 0 past it (10_state.md R45). -/
theorem nbufByte_setName (s : State) (bytes : List Byte) (h : bytes.length ≤ 32) (i : Nat) :
    (s.setName bytes).nbufByte i = bytes.getD i 0 := by
  have hlen : (BitVec.ofNat 6 bytes.length).toNat = bytes.length := by
    rw [BitVec.toNat_ofNat]; exact Nat.mod_eq_of_lt (by omega)
  simp only [State.nbufByte, State.setName_nameLen, State.setName_name, hlen]
  by_cases hi : i < bytes.length
  · have h32 : i < 32 := by omega
    simp [hi, h32, List.getD]
  · simp [hi, List.getD]

/-- NBUF reads 0 once the name is cleared (R45). -/
@[simp] theorem nbufByte_clearName (s : State) (i : Nat) : s.clearName.nbufByte i = 0 := by
  simp [State.nbufByte]

end Sys2Proof.Machine
end

