-- ==== Sys2Proof/Laws/Exec.lean ====
section
/-!
SUPPORT. What `exec` can do, said once per family: if it answers a next state, that state is one of the forms below. Frames and
invariants are read off from these forms.
-/

namespace Sys2Proof.Machine

/-- The operation was dropped, launched into TXPEND, or ended with an error. -/
inductive EncoderEnds (i : Instr) (s t : State) : Prop where
  | dropped (hb : s.busy = true) (ht : t = s.dropCommand)
  | launched (hb : s.busy = false) (seq : List Byte) (ht : t = (s.acceptMark (opcode i)).launch i seq)
  | failed (hb : s.busy = false) (e : OpError)
      (ht : t = (s.acceptMark (opcode i)).raise e.code e.info0 e.info1)

theorem encoderEnds_of_accept {i : Instr} {s t : State} {k : State → Result} (h : accept i s k = .next t)
    (hk : ∀ u, k u = .next t → (∃ seq, t = u.launch i seq) ∨ ∃ e : OpError, t = u.raise e.code e.info0 e.info1) :
    EncoderEnds i s t := by
  obtain ⟨_, ⟨hb, ht⟩ | ⟨hb, ht⟩⟩ := accept_next h
  · exact .dropped hb ht
  · obtain ⟨seq, ht⟩ | ⟨e, ht⟩ := hk _ ht
    · exact .launched hb seq ht
    · exact .failed hb e ht

theorem execEncDrive_next {s t : State} (h : execEncDrive s = .next t) : EncoderEnds .encDrive s t :=
  encoderEnds_of_accept h fun _ hu => by cases hu; exact .inl ⟨_, rfl⟩

theorem execEncDrivePwm_next {s t : State} (h : execEncDrivePwm s = .next t) : EncoderEnds .encDrivePwm s t :=
  encoderEnds_of_accept h fun _ hu => by cases hu; exact .inl ⟨_, rfl⟩

theorem execEncMotorsPwm_next {s t : State} (h : execEncMotorsPwm s = .next t) : EncoderEnds .encMotorsPwm s t :=
  encoderEnds_of_accept h fun _ hu => by cases hu; exact .inl ⟨_, rfl⟩

theorem execEncLeds_next {s t : State} (h : execEncLeds s = .next t) : EncoderEnds .encLeds s t :=
  encoderEnds_of_accept h fun _ hu => by cases hu; exact .inl ⟨_, rfl⟩

theorem execEncMotors_next {s t : State} (h : execEncMotors s = .next t) : EncoderEnds .encMotors s t :=
  encoderEnds_of_accept h fun _ hu => by cases hu; exact .inl ⟨_, rfl⟩

theorem execEncButtons_next {s t : State} (h : execEncButtons s = .next t) : EncoderEnds .encButtons s t :=
  encoderEnds_of_accept h fun _ hu => by cases hu; exact .inl ⟨_, rfl⟩

theorem execEncDisplayAscii_next {s t : State} (h : execEncDisplayAscii s = .next t) :
    EncoderEnds .encDisplayAscii s t :=
  encoderEnds_of_accept h fun _ hu => by
    obtain ⟨_, _, hu⟩ := withBytes_next hu
    cases hu; exact .inl ⟨_, rfl⟩

theorem execEncDefineSong_next {s t : State} (h : execEncDefineSong s = .next t) : EncoderEnds .encDefineSong s t :=
  encoderEnds_of_accept h fun u hu => by
    split at hu
    · cases hu; exact .inr ⟨⟨.arg, _, _⟩, rfl⟩
    · split at hu
      · cases hu; exact .inr ⟨⟨.arg, _, _⟩, rfl⟩
      · obtain ⟨_, _, hu⟩ := withBytes_next hu
        obtain ⟨_, _, hu⟩ := withBytes_next hu
        cases hu; exact .inl ⟨_, rfl⟩

theorem execEncBaud_next {s t : State} (h : execEncBaud s = .next t) : EncoderEnds .encBaud s t :=
  encoderEnds_of_accept h fun u hu => by
    cases hu
    obtain ⟨seq, _, ht⟩ | ⟨e, _, ht⟩ := launchOrRaise_cases .encBaud u (baudSeq u.cfg u.arg0)
    · exact .inl ⟨seq, ht⟩
    · exact .inr ⟨e, ht⟩

theorem execEncQueryList_next {s t : State} (h : execEncQueryList s = .next t) : EncoderEnds .encQueryList s t :=
  encoderEnds_of_accept h fun u hu => by
    split at hu
    · cases hu; exact .inr ⟨⟨.arg, _, _⟩, rfl⟩
    · obtain ⟨bytes, _, hu⟩ := withBytes_next hu
      cases hu
      obtain ⟨seq, _, ht⟩ | ⟨e, _, ht⟩ := launchOrRaise_cases .encQueryList u (queryListSeq u.cfg (pairUp bytes))
      · exact .inl ⟨seq, ht⟩
      · exact .inr ⟨e, ht⟩

/-- A decode is dropped or begins (42_stream_decoder.md R231). -/
theorem execDecDecode_next {s t : State} (h : execDecDecode s = .next t) :
    (s.busy = true ∧ t = s.dropCommand) ∨
      (s.busy = false ∧ t = (s.acceptMark (opcode .decDecode)).beginDecode) := by
  obtain ⟨_, h | ⟨hb, ht⟩⟩ := accept_next h
  · exact .inl h
  · cases ht; exact .inr ⟨hb, rfl⟩

/-- A registry operation is dropped, fails (by name lookups with the name cleared), or completes with RES0 and RES1 and perhaps a
name. -/
inductive RegistryEnds (i : Instr) (s t : State) : Prop where
  | dropped (hb : s.busy = true) (ht : t = s.dropCommand)
  | failed (hb : s.busy = false) (e : OpError)
      (ht : t = (s.acceptMark (opcode i)).raise e.code e.info0 e.info1)
  | failedNameless (hb : s.busy = false) (e : OpError)
      (ht : t = (s.acceptMark (opcode i)).clearName.raise e.code e.info0 e.info1)
  | found (hb : s.busy = false) (a b : Word) (ht : t = ((s.acceptMark (opcode i)).setRes01 a b).complete)
  | named (hb : s.busy = false) (a b : Word) (name : List Byte)
      (ht : t = (((s.acceptMark (opcode i)).setRes01 a b).setName name).complete)

theorem execRegById_next {s t : State} (h : execRegById s = .next t) : RegistryEnds .regById s t := by
  obtain ⟨_, ⟨hb, ht⟩ | ⟨hb, ht⟩⟩ := accept_next h
  · exact .dropped hb ht
  · cases ht
    unfold lookupById
    split
    · exact .failedNameless hb ⟨.unknownSensor, _, _⟩ rfl
    · exact .named hb _ _ _ rfl

theorem execRegByName_next {s t : State} (h : execRegByName s = .next t) : RegistryEnds .regByName s t := by
  obtain ⟨_, ⟨hb, ht⟩ | ⟨hb, ht⟩⟩ := accept_next h
  · exact .dropped hb ht
  · split at ht
    · cases ht; exact .failedNameless hb ⟨.arg, _, _⟩ rfl
    · obtain ⟨name, _, ht⟩ := withBytes_next ht
      cases ht
      unfold lookupByName
      split
      · exact .failedNameless hb ⟨.unknownSensor, _, _⟩ rfl
      · exact .named hb _ _ _ rfl

theorem execRegBulkMember_next {s t : State} (h : execRegBulkMember s = .next t) : RegistryEnds .regBulkMember s t := by
  obtain ⟨_, ⟨hb, ht⟩ | ⟨hb, ht⟩⟩ := accept_next h
  · exact .dropped hb ht
  · unfold lookupMember at ht
    split at ht
    · cases ht; exact .failed hb ⟨.unknownSensor, _, _⟩ rfl
    · split at ht
      · cases ht; exact .failed hb ⟨.arg, _, _⟩ rfl
      · split at ht
        · cases ht
        · cases ht; exact .found hb _ _ rfl

theorem execDynNormalize_next {s t : State} (h : execDynNormalize s = .next t) :
    (s.busy = true ∧ t = s.dropCommand) ∨
      (s.busy = false ∧ t = normalizeSample (s.acceptMark (opcode .dynNormalize)) (lowHalf s.arg0) (lowHalf s.arg1)) := by
  obtain ⟨_, h | ⟨hb, ht⟩⟩ := accept_next h
  · exact .inl h
  · cases ht; exact .inr ⟨hb, rfl⟩

theorem execDynUpdate_next {s t : State} (h : execDynUpdate s = .next t) :
    (s.busy = true ∧ t = s.dropCommand) ∨
      (s.busy = false ∧
        t = updatePose (s.acceptMark (opcode .dynUpdate)) (int32 s.arg0) (int32 s.arg1) (u32 s.arg2)) := by
  obtain ⟨_, h | ⟨hb, ht⟩⟩ := accept_next h
  · exact .inl h
  · cases ht; exact .inr ⟨hb, rfl⟩

theorem execDynReset_next {s t : State} (h : execDynReset s = .next t) :
    (s.busy = true ∧ t = s.dropCommand) ∨
      (s.busy = false ∧ t = ((s.acceptMark (opcode .dynReset)).setPose 0 0 0).complete) := by
  obtain ⟨_, h | ⟨hb, ht⟩⟩ := accept_next h
  · exact .inl h
  · cases ht; exact .inr ⟨hb, rfl⟩

/-- Every operation is an accept: the checks of BUSY and of the configuration come before anything of its own (60_exceptions.md
R342, first row). -/
theorem exec_eq_accept (i : Instr) : ∃ k : State → Result, ∀ s, exec i s = accept i s k := by
  cases i <;>
    exact ⟨_, fun s => by
      simp only [exec, execEncDrive, execEncDrivePwm, execEncMotorsPwm, execEncDisplayAscii, execEncDefineSong, execEncLeds,
        execEncMotors, execEncButtons, execEncBaud, execEncQueryList, execDecDecode, execRegById, execRegByName,
        execRegBulkMember, execDynNormalize, execDynUpdate, execDynReset]
      rfl⟩

/-- An operation that answers a next state ran in a legal configuration. -/
theorem exec_next_wf {i : Instr} {s t : State} (h : exec i s = .next t) : s.cfg.wf = true := by
  obtain ⟨k, hk⟩ := exec_eq_accept i
  exact (accept_next (hk s ▸ h)).1

end Sys2Proof.Machine
end

