-- ==== Sys2Proof/Laws/Frames.lean ====
section
/-!
SUPPORT. The ordered map of the mapping view (42_stream_decoder.md R244): what an insertion does to the keys and to the pairs.
-/

namespace Sys2Proof.Machine

/-- A known key keeps its place, and a new one goes to the end. -/
theorem keys_insertOrdered (m : List (Byte × Value)) (id : Byte) (v : Value) :
    (insertOrdered m id v).map Prod.fst = if id ∈ m.map Prod.fst then m.map Prod.fst else m.map Prod.fst ++ [id] := by
  induction m with
  | nil => rfl
  | cons p m ih =>
    obtain ⟨k, old⟩ := p
    by_cases h : k = id
    · simp [insertOrdered, h]
    · by_cases hm : id ∈ m.map Prod.fst
      · simp [insertOrdered, h, ih, hm]
      · simp [insertOrdered, h, ih, hm, Ne.symm h]

/-- An insertion keeps the keys distinct. -/
theorem nodup_insertOrdered {m : List (Byte × Value)} (id : Byte) (v : Value) (h : (m.map Prod.fst).Nodup) :
    ((insertOrdered m id v).map Prod.fst).Nodup := by
  rw [keys_insertOrdered]
  split
  · exact h
  · next hn =>
    rw [List.nodup_append]
    exact ⟨h, List.nodup_singleton id, fun a ha b hb hab => hn (by simp_all)⟩

/-- The inserted pair is there. -/
theorem mem_insertOrdered_self (m : List (Byte × Value)) (id : Byte) (v : Value) : (id, v) ∈ insertOrdered m id v := by
  induction m with
  | nil => simp [insertOrdered]
  | cons p m ih =>
    obtain ⟨k, old⟩ := p
    by_cases h : k = id <;> simp [insertOrdered, h, ih]

/-- A pair of another key is there exactly when it was. -/
theorem mem_insertOrdered_of_ne {m : List (Byte × Value)} {id : Byte} {v : Value} {p : Byte × Value} (h : p.1 ≠ id) :
    p ∈ insertOrdered m id v ↔ p ∈ m := by
  induction m with
  | nil =>
    have : p ≠ (id, v) := fun e => h (by rw [e])
    simp [insertOrdered, this]
  | cons q m ih =>
    obtain ⟨k, old⟩ := q
    by_cases hk : k = id
    · have h1 : p ≠ (k, v) := fun e => h (by rw [e, hk])
      have h2 : p ≠ (k, old) := fun e => h (by rw [e, hk])
      simp [insertOrdered, hk] at h1 h2 ⊢
      simp [h1, h2]
    · simp [insertOrdered, hk, ih]

end Sys2Proof.Machine
end

