-- ==== Sys2Proof/Laws/PerInstr.lean ====
section
/-!
SUPPORT. Per-instruction lemmas about the operation as syntax: its CMD word has RSV = 0 and its OP in bits 7:0 (30_encoding.md R110).
-/

namespace Sys2Proof.Laws.CmdWord

/-- The CMD word of an operation has the one format of R110. -/
def Statement (i : Instr) : Prop := cmdRsv (encodeWord i) = 0 ∧ cmdOp (encodeWord i) = opcode i

theorem encDrive : Statement .encDrive := by unfold Statement; decide
theorem encDrivePwm : Statement .encDrivePwm := by unfold Statement; decide
theorem encMotorsPwm : Statement .encMotorsPwm := by unfold Statement; decide
theorem encDisplayAscii : Statement .encDisplayAscii := by unfold Statement; decide
theorem encDefineSong : Statement .encDefineSong := by unfold Statement; decide
theorem encLeds : Statement .encLeds := by unfold Statement; decide
theorem encMotors : Statement .encMotors := by unfold Statement; decide
theorem encButtons : Statement .encButtons := by unfold Statement; decide
theorem encBaud : Statement .encBaud := by unfold Statement; decide
theorem encQueryList : Statement .encQueryList := by unfold Statement; decide
theorem decDecode : Statement .decDecode := by unfold Statement; decide
theorem regById : Statement .regById := by unfold Statement; decide
theorem regByName : Statement .regByName := by unfold Statement; decide
theorem regBulkMember : Statement .regBulkMember := by unfold Statement; decide
theorem dynNormalize : Statement .dynNormalize := by unfold Statement; decide
theorem dynUpdate : Statement .dynUpdate := by unfold Statement; decide
theorem dynReset : Statement .dynReset := by unfold Statement; decide

end Sys2Proof.Laws.CmdWord
end

