-- ==== Sys2Proof/Laws/Step.lean ====
section
/-!
SUPPORT. What a step can do, said once: which turn was taken, and what each agent's step leaves.
-/

namespace Sys2Proof.Machine

/-- Everything a step that answers a next state can have done. -/
theorem step_next {s t : State} (h : step s = .next t) :
    (s.turns = [] ∧ t = s) ∨
      ∃ turn rest, s.turns = turn :: rest ∧ s.cfg.wf = true ∧ runTurn turn { s with turns := rest } = .next t := by
  unfold step at h
  split at h
  · next hs => exact .inl ⟨hs, by simpa using h.symm⟩
  · next turn rest hs =>
    split at h
    · next hc => exact .inr ⟨turn, rest, hs, hc, h⟩
    · cases h

/-- A scheduled turn is run. -/
theorem step_turn {s : State} {turn : Turn} {rest : List Turn} (hs : s.turns = turn :: rest) (hc : s.cfg.wf = true) :
    step s = runTurn turn { s with turns := rest } := by
  simp [step, hs, hc]

/-- Everything a read can have done: a refused access, or a value logged. -/
theorem hostRead_next {s t : State} {addr bytes : Nat} (h : hostRead s addr bytes = .next t) :
    inWindow s.cfg addr = true ∧
      ((accessOk (addr - s.cfg.base) bytes = false ∧ t = logRead s.refuseAccess addr 0) ∨
        (accessOk (addr - s.cfg.base) bytes = true ∧
          ∃ v, readReg s (regAt (addr - s.cfg.base)) = .ok v ∧ t = logRead s addr v)) := by
  unfold hostRead at h
  split at h
  · next hw =>
    refine ⟨hw, ?_⟩
    split at h
    · next ha =>
      split at h
      · next v hv => exact .inr ⟨ha, v, hv, by simpa using h.symm⟩
      · cases h
    · next ha => exact .inl ⟨by simpa using ha, by simpa using h.symm⟩
  · cases h

/-- Everything a write can have done: a refused access, or a register written. -/
theorem hostWrite_next {s t : State} {addr bytes : Nat} {w : Word} (h : hostWrite s addr bytes w = .next t) :
    inWindow s.cfg addr = true ∧
      ((accessOk (addr - s.cfg.base) bytes = false ∧ t = s.refuseAccess) ∨
        (accessOk (addr - s.cfg.base) bytes = true ∧ writeReg s w (regAt (addr - s.cfg.base)) = .next t)) := by
  unfold hostWrite at h
  split at h
  · next hw =>
    refine ⟨hw, ?_⟩
    split at h
    · next ha => exact .inr ⟨ha, h⟩
    · next ha => exact .inl ⟨by simpa using ha, by simpa using h.symm⟩
  · cases h

/-- Everything a write of a register can have done. -/
theorem writeReg_next {s t : State} {w : Word} {r : Reg} (h : writeReg s w r = .next t) :
    (r = .cmd ∧ writeCmd w s = .next t) ∨ (r = .status ∧ t = s.clearSticky w) ∨
      (r = .arg 0 ∧ t = { s with arg0 := w }) ∨ (r = .arg 1 ∧ t = { s with arg1 := w }) ∨
      (r = .arg 2 ∧ t = { s with arg2 := w }) ∨
      (∃ k : Fin 128, r = .abuf k ∧ t = { s with abuf := Memory.writeWord s.abuf (abufOffset (4 * k.val)) w }) ∨ t = s := by
  unfold writeReg at h
  split at h <;> first
    | exact .inl ⟨rfl, h⟩
    | (have h := (by simpa using h.symm : t = _); subst h; simp)

/-- Everything a CMD write can have done: the operation it selects, or ILLEGAL_OP, or the drop of it. -/
theorem writeCmd_next {s t : State} {w : Word} (h : writeCmd w s = .next t) :
    (∃ i, decodeWord w = .ok i ∧ exec i s = .next t) ∨
      (s.busy = true ∧ t = s.dropCommand) ∨
      (s.busy = false ∧ t = (s.acceptMark (cmdOp w)).raise .illegalOp w.toNat 0) := by
  unfold writeCmd at h
  split at h
  · next i hi => exact .inl ⟨i, hi, h⟩
  · obtain ⟨_, ⟨hb, ht⟩ | ⟨hb, ht⟩⟩ := acceptOp_next h
    · exact .inr (.inl ⟨hb, ht⟩)
    · exact .inr (.inr ⟨hb, by simpa using ht.symm⟩)

/-- The handoff step: nothing pending, a transport error, or the whole sequence handed over (41_command_encoder.md R180). -/
theorem handoffStep_cases (s : State) :
    (s.txpend = none ∧ handoffStep s = s) ∨
      (∃ seq c, s.txpend = some seq ∧ s.terr = some c ∧
        handoffStep s = s.raise .transport c.val.toNat seq.length) ∨
      ∃ seq, s.txpend = some seq ∧ s.terr = none ∧
        handoffStep s =
          { s with txout := s.txout ++ seq, txpend := none, res0 := BitVec.ofNat 32 seq.length }.complete := by
  unfold handoffStep
  cases hp : s.txpend with
  | none => simp
  | some seq => cases ht : s.terr with
    | none => simp
    | some c => simp

/-- A byte step: a buffered byte used, a transport error, or a hold (20_memory.md R96). -/
theorem byteStep_cases (s : State) (k : State → Byte → State) :
    (∃ b rest, s.rxq = b :: rest ∧ byteStep s k = k { s with rxq := rest } b) ∨
      (∃ c, s.rxq = [] ∧ s.terr = some c ∧
        byteStep s k = s.raise .transport c.val.toNat (dstateBits s.dstate).toNat) ∨
      (s.rxq = [] ∧ s.terr = none ∧ byteStep s k = s) := by
  unfold byteStep
  cases hq : s.rxq with
  | cons b rest => simp
  | nil => cases ht : s.terr <;> simp

/-- The VALIDATE step: a flush and CHECKSUM, or the end of a parse (42_stream_decoder.md R235 to R239). -/
theorem validateStep_cases (s : State) :
    (s.sum ≠ 0 ∧ validateStep s = { s with rxq := [] }.raise .checksum s.sum.toNat s.n.toNat) ∨
      (s.sum = 0 ∧ validateStep s = finishParse s (parseFrame s)) := by
  unfold validateStep
  split
  · next h => exact .inl ⟨h, rfl⟩
  · next h => exact .inr ⟨by simpa using h, rfl⟩

end Sys2Proof.Machine
end

