-- ==== Sys2Proof/Tests/Slice0.lean ====
section
/-!
SUPPORT. The model's own tests: an ill-formed configuration for each check of WellFormed, the CMD word of every operation, at most two
one-operation tests for each operation with the values of 95_test_vectors.md, and a witness for the premises of every statement.
-/

namespace Sys2Proof.Tests

open Sys2Proof Sys2Proof.Machine

/-! ### Helpers -/

/-- ABUF cells of bytes from a window offset up. -/
def cellsFrom (a : Nat) : List Byte → List Host.Cell
  | [] => []
  | b :: bs => (a, b) :: cellsFrom (a + 1) bs

/-- An idle PYRB under TC with its operand registers written. -/
def ops (a0 a1 a2 : Word) : State := { State.reset with arg0 := a0, arg1 := a1, arg2 := a2 }

/-- The same with ABUF bytes 0 up written. -/
def opsBuf (a0 a1 a2 : Word) (bytes : List Byte) : State := { ops a0 a1 a2 with abuf := cellsFrom 0x100 bytes }

/-- The next state of an operation, or the reset state if there is none. -/
def done (i : Instr) (s : State) : State :=
  match exec i s with
  | .next t => t
  | .fault _ => State.reset
  | .refused _ => State.reset

/-- The state after an encoder operation's accept and its handoff. -/
def sent (i : Instr) (s : State) : State := pyrbStep (done i s)

/-- The state after a decode of these bytes and k PYRB steps. -/
def decoded (rxq : List Byte) (k : Nat) : State := pyrbStep^[k] (done .decDecode { State.reset with rxq := rxq })

/-- Whether an outcome is a next state. -/
def isNext (r : Result) : Bool :=
  match r with
  | .next _ => true
  | .fault _ => false
  | .refused _ => false

/-- The fault of an outcome. -/
def faultOf (r : Result) : Option Fault :=
  match r with
  | .next _ => none
  | .fault f => some f
  | .refused _ => none

/-- An outcome known to be a next state is the next state of `done`. -/
theorem done_next {i : Instr} {s : State} (h : isNext (exec i s) = true) : exec i s = .next (done i s) := by
  unfold done
  cases he : exec i s <;> simp_all [isNext]

/-- The state after a step, or the reset state if there is none. -/
def stepped (s : State) : State :=
  match step s with
  | .next t => t
  | .fault _ => State.reset
  | .refused _ => State.reset

theorem stepped_next {s : State} (h : isNext (step s) = true) : step s = .next (stepped s) := by
  unfold stepped
  cases he : step s <;> simp_all [isNext]

/-- An idle PYRB meets R56. -/
theorem idle_inv {s : State} (hc : s.cur = none) (hd : s.dstate = .idle) (ht : s.txpend = none) : InFlightInv s where
  decoding := by simp [hc, hd]
  sending := by simp [encoderInFlight, hc, ht]
  nothing := by simp [hc, hd, ht]
  hidden := by simp [hd]
  bounds := ⟨by have := s.count.isLt; omega, by have := s.len.isLt; omega⟩

/-- Cells written one after the other hold their bytes. -/
theorem read_cellsFrom (a : Nat) (bytes : List Byte) (i : Nat) (h : i < bytes.length) :
    Memory.read (cellsFrom a bytes) (a + i) = bytes[i]? := by
  induction bytes generalizing a i with
  | nil => simp at h
  | cons b bs ih =>
    cases i with
    | zero => simp [cellsFrom, Memory.read]
    | succ i =>
      have : a + (i + 1) = a + 1 + i := by omega
      have hne : a + 1 + i ≠ a := by omega
      simp only [cellsFrom, Memory.read, this, hne, if_false]
      simpa using ih (a + 1) i (by simpa using h)

theorem opsBuf_holds (a0 a1 a2 : Word) (bytes : List Byte) : AbufHolds (opsBuf a0 a1 a2 bytes) 0 bytes :=
  fun i h => read_cellsFrom 0x100 bytes i h

/-! ### WellFormed: one ill-formed configuration for each check -/

theorem test_wf_tc : testConfig.wf = true := by decide
theorem test_wf_base : Config.wf { testConfig with base := 0x400 } = false := by decide
theorem test_wf_ids : Config.wf { testConfig with sensors := testSensors ++ [(7, ⟨.u8, [0x78]⟩)] } = false := by decide
theorem test_wf_block_0 : Config.wf { testConfig with sensors := testSensors ++ [(8, ⟨.block 0, [0x78]⟩)] } = false := by decide
theorem test_wf_block_255 : Config.wf { testConfig with sensors := testSensors ++ [(8, ⟨.block 255, [0x78]⟩)] } = false := by decide
theorem test_wf_empty_name : Config.wf { testConfig with sensors := testSensors ++ [(8, ⟨.u8, []⟩)] } = false := by decide
theorem test_wf_long_name :
    Config.wf { testConfig with sensors := testSensors ++ [(8, ⟨.u8, List.replicate 33 0x78⟩)] } = false := by decide
theorem test_wf_names : Config.wf { testConfig with bulks := testBulks ++ [⟨Config.bumpName, [7]⟩] } = false := by decide
theorem test_wf_bulk_count :
    Config.bulkCountOk { testConfig with bulks := List.replicate 257 ⟨[0x78], [7]⟩ } = false := by decide +kernel
theorem test_wf_bulk_empty : Config.wf { testConfig with bulks := testBulks ++ [⟨[0x78], []⟩] } = false := by decide
theorem test_wf_bulk_members :
    Config.wf { testConfig with bulks := testBulks ++ [⟨[0x78], List.replicate 256 7⟩] } = false := by decide +kernel
theorem test_wf_bulk_unknown : Config.wf { testConfig with bulks := testBulks ++ [⟨[0x78], [99]⟩] } = false := by decide
theorem test_wf_sensor_seven :
    Config.wf { testConfig with sensors := [(8, ⟨.u8, Config.bumpName⟩)], bulks := [] } = false := by decide
theorem test_wf_flag_pos : Config.wf { testConfig with flagPos := { defaultFlagPos with motors := [3, 3] } } = false := by decide
theorem test_wf_baud_code : Config.wf { testConfig with baud := [(300, 0), (600, 0)] } = false := by decide
theorem test_wf_r_raw_zero : Config.wf { testConfig with rRaw := 0 } = false := by decide
theorem test_wf_r_raw_large : Config.wf { testConfig with rRaw := 0x80000000 } = false := by decide
theorem test_wf_trig_zero : Config.wf { testConfig with trig := [(0, ⟨0, 65535, 65536, 0⟩)] } = false := by decide
theorem test_wf_trig_twice :
    Config.wf { testConfig with trig := [(1, ⟨1, 65536, 65536, 0⟩), (1, ⟨1, 65536, 65536, 1⟩)] } = false := by decide

/-- Every accept and every turn of an ill-formed configuration is refused. -/
theorem test_ill_formed_refused :
    exec .dynReset { State.reset with cfg := { testConfig with rRaw := 0 } } = .refused .illFormedConfig ∧
      step { State.reset with cfg := { testConfig with rRaw := 0 }, turns := [.pyrb] } = .refused .illFormedConfig :=
  ⟨rfl, rfl⟩

/-! ### Decode: the words of 30_encoding.md R111, written out -/

theorem test_decode_enc :
    decode [0x01, 0, 0, 0] = .ok (.encDrive, []) ∧ decode [0x02, 0, 0, 0] = .ok (.encDrivePwm, []) ∧
    decode [0x03, 0, 0, 0] = .ok (.encMotorsPwm, []) ∧ decode [0x04, 0, 0, 0] = .ok (.encDisplayAscii, []) ∧
    decode [0x05, 0, 0, 0] = .ok (.encDefineSong, []) ∧ decode [0x06, 0, 0, 0] = .ok (.encLeds, []) ∧
    decode [0x07, 0, 0, 0] = .ok (.encMotors, []) ∧ decode [0x08, 0, 0, 0] = .ok (.encButtons, []) ∧
    decode [0x09, 0, 0, 0] = .ok (.encBaud, []) ∧ decode [0x0A, 0, 0, 0] = .ok (.encQueryList, []) :=
  ⟨rfl, rfl, rfl, rfl, rfl, rfl, rfl, rfl, rfl, rfl⟩

theorem test_decode_dec_reg_dyn :
    decode [0x10, 0, 0, 0] = .ok (.decDecode, []) ∧ decode [0x20, 0, 0, 0] = .ok (.regById, []) ∧
    decode [0x21, 0, 0, 0] = .ok (.regByName, []) ∧ decode [0x22, 0, 0, 0] = .ok (.regBulkMember, []) ∧
    decode [0x30, 0, 0, 0] = .ok (.dynNormalize, []) ∧ decode [0x31, 0, 0, 0] = .ok (.dynUpdate, []) ∧
    decode [0x32, 0, 0, 0] = .ok (.dynReset, []) :=
  ⟨rfl, rfl, rfl, rfl, rfl, rfl, rfl⟩

theorem test_decode_illegal :
    (∀ op ∈ [(0x00 : Byte), 0x0B, 0x0F, 0x11, 0x1F, 0x23, 0x2F, 0x33, 0xFF],
      decode [op, 0, 0, 0] = .error (.unassignedOp op)) ∧
    decode [0x01, 0x01, 0, 0] = .error .reservedNonzero ∧ decode [0x01, 0, 0, 0x80] = .error .reservedNonzero ∧
    decode [0x01, 0, 0] = .error .truncated := by
  refine ⟨?_, rfl, rfl, rfl⟩
  intro op h
  fin_cases h <;> rfl

theorem test_table_word : decodeTableWord 32 0x22 = some .regBulkMember ∧ decodeTableWord 8 0x31 = some .dynUpdate := ⟨rfl, rfl⟩

/-- The step after placing a word runs it: ENC_DRIVE becomes the operation in flight. -/
theorem test_fetch_word : (stepped (State.reset.withFetchWord 32 0x01)).cur = some .encDrive := by decide

/-! ### Command encoder, section 2 of 95_test_vectors.md -/

theorem test_enc_drive_sentinel :
    (sent .encDrive (ops 0xFFFFFDA8 0x00008000 0)).txout = [0x89, 0xFE, 0x0C, 0x80, 0x00] ∧
      (sent .encDrive (ops 0xFFFFFDA8 0x00008000 0)).statusWord = 0x01000002 := by decide
theorem test_enc_drive_negative_radius :
    (sent .encDrive (ops 0 0xFFFF8000 0)).txout = [0x89, 0x00, 0x00, 0xF8, 0x30] := by decide
theorem test_enc_drive_pwm : (sent .encDrivePwm (ops 300 0xFFFFFED4 0)).txout = [0x92, 0x00, 0xFF, 0xFF, 0x01] := by decide
theorem test_enc_motors_pwm :
    (sent .encMotorsPwm (ops 200 0xFFFFFF38 0xFFFFFFFB)).txout = [0x90, 0x7F, 0x81, 0x00] := by decide
theorem test_enc_display_pads : (sent .encDisplayAscii (opsBuf 2 0 0 [0x68, 0x69])).txout = [0xA4, 0x48, 0x49, 0x20, 0x20] := by
  decide
theorem test_enc_display_case :
    (sent .encDisplayAscii (opsBuf 4 0 0 [0x7A, 0x7B, 0x60, 0xE1])).txout = [0xA4, 0x5A, 0x7B, 0x60, 0xE1] := by decide
theorem test_enc_define_song :
    (sent .encDefineSong { ops 1 2 2 with abuf := cellsFrom 0x100 [60, 62] ++ cellsFrom 0x200 [16, 32] }).txout =
      [0x8C, 0x01, 0x02, 0x3C, 0x10, 0x3E, 0x20] := by decide
theorem test_enc_define_song_counts : (done .encDefineSong (ops 0 256 256)).statusWord = 0x05000066 := by decide
theorem test_enc_leds : (sent .encLeds (ops 0xFF 0 0)).txout = [0x8B, 0x0F] := by decide
theorem test_enc_motors : (sent .encMotors (ops 0x1FF 0 0)).txout = [0x8A, 0x1F] := by decide
theorem test_enc_buttons : (sent .encButtons (ops 0x80 0 0)).txout = [0xA5, 0x80] := by decide
theorem test_enc_baud : (sent .encBaud (ops 115200 0 0)).txout = [0x81, 0x0B] := by decide
theorem test_enc_baud_unlisted :
    (done .encBaud (ops 12345 0 0)).statusWord = 0x09000056 ∧ (done .encBaud (ops 12345 0 0)).res0 = 0x3039 := by decide
theorem test_enc_query_list :
    (sent .encQueryList (opsBuf 2 0 0 [1, 0, 0, 24])).txout = [0x95, 0x03, 0x07, 0x16, 0x18] := by decide
theorem test_enc_query_list_no_bulk :
    (done .encQueryList (opsBuf 1 0 0 [1, 5])).statusWord = 0x0A000026 ∧
      (done .encQueryList (opsBuf 1 0 0 [1, 5])).res0 = 0x105 := by decide

/-! ### Stream decoder, section 3 -/

theorem test_decode_frame :
    (decoded [0x41, 19, 2, 7, 1, 227] 7).statusWord = 0x10000002 ∧ (decoded [0x41, 19, 2, 7, 1, 227] 7).frameInfoWord = 0x00018102 ∧
      (decoded [0x41, 19, 2, 7, 1, 227] 7).fbufEntry 0 = ⟨0x01010007, 1⟩ := by decide +kernel
theorem test_decode_checksum :
    (decoded [19, 1, 255, 0, 19] 5).statusWord = 0x10000016 ∧ (decoded [19, 1, 255, 0, 19] 5).res0 = 19 ∧
      (decoded [19, 1, 255, 0, 19] 5).rxq = [] := by decide +kernel

/-- DEC-16: the mapping view of a repeated id holds the last value. -/
theorem test_mapping_last_value :
    frameMapping (decoded [19, 4, 7, 1, 7, 2, 216] 8) = [(7, .num 2)] := by decide +kernel

/-- DEC-7: a value of each format; a block's value is its payload bytes. -/
theorem test_mapping_formats :
    frameMapping (decoded [19, 14, 7, 1, 19, 255, 56, 22, 255, 254, 24, 128, 50, 1, 2, 3, 170] 18) =
      [(7, .num 1), (19, .num (-200)), (22, .num 65534), (24, .num (-128)), (50, .bytes [1, 2, 3])] := by decide +kernel

/-! ### Sensor registry, section 4 -/

theorem test_reg_by_id :
    (done .regById (ops 0x107 0 0)).res0 = 0x00010007 ∧
      bufferWord (done .regById (ops 0x107 0 0)).nbufByte 0 = 0x706D7562 := by decide
theorem test_reg_by_name : (done .regByName (opsBuf 3 0 0 [0x67, 0x72, 0x70])).res0 = 0x80020000 := by decide
theorem test_reg_by_name_prefix : (done .regByName (opsBuf 4 0 0 [0x62, 0x75, 0x6D, 0x70])).statusWord = 0x21000026 := by decide
theorem test_reg_bulk_member : (done .regBulkMember (ops 0 1 0)).res0 = 0x00020216 := by decide
theorem test_reg_bulk_member_end :
    (done .regBulkMember (ops 0 2 0)).statusWord = 0x22000066 ∧ (done .regBulkMember (ops 0 2 0)).res1 = 2 := by decide

/-! ### Pose integrator, section 5 -/

theorem test_dyn_normalize_rollover :
    (done .dynNormalize { ops 10 200 0 with priorL := 65500, priorR := 100, priorValid := true }).res2 = 46 ∧
      (done .dynNormalize { ops 10 200 0 with priorL := 65500, priorR := 100, priorValid := true }).statusWord = 0x30000802 := by
  decide
theorem test_dyn_normalize_backward :
    (done .dynNormalize { ops 5 0x000100C8 0 with priorL := 10, priorR := 200, priorValid := true }).statusWord = 0x30000C02 := by
  decide
theorem test_dyn_update_spin :
    (done .dynUpdate (ops 0xFF9C0000 0x00640000 1)).poseTh = 65536 ∧
      (done .dynUpdate (ops 0xFF9C0000 0x00640000 1)).wheels = ⟨-5514700, 3540900, 5514700, -3540900⟩ := by decide +kernel
theorem test_dyn_update_arc :
    (done .dynUpdate (ops 0 0x000A0000 1)).poseX = 327545 ∧ (done .dynUpdate (ops 0 0x000A0000 1)).poseY = 8190 ∧
      (done .dynUpdate (ops 0 0x000A0000 1)).res2 = 3277 := by decide +kernel
theorem test_dyn_reset :
    (done .dynReset { State.reset with poseX := 5, res0 := 7 }).poseX = 0 ∧
      (done .dynReset { State.reset with poseX := 5, res0 := 7 }).res0 = 7 ∧
      (done .dynReset { State.reset with poseX := 5, res0 := 7 }).wheels = ⟨0, 6553600, 0, -6553600⟩ := by decide +kernel

/-! ### Sections 6 and 7 -/

theorem test_refused_access :
    (stepped { State.reset with turns := [.host], todo := [.read 0x006 4] }).accerr = true ∧
      (stepped { State.reset with turns := [.host], todo := [.write 0x101 1 0xFF] }).abuf = [] := by decide
/-- The premises of R365 for program P2 of section 9 at its start. -/
theorem test_clean_entry :
    CleanEntry { State.reset with rxq := [0x41, 19, 2, 7, 1, 227] } [] [0x41, 19, 2, 7, 1, 227] none :=
  ⟨rfl, rfl, rfl, fun _ h => (by cases h), rfl, rfl⟩

/-- A result read while a decode is in flight breaks the second duty of R375; a read of STATUS does not. -/
theorem test_duty_stale_read :
    waitsForDone { State.reset with cur := some .decDecode, turns := [.host], todo := [.read 0x018 4] } = false ∧
      waitsForDone { State.reset with cur := some .decDecode, turns := [.host], todo := [.read 0x004 4] } = true := by decide

/-- A mark outlives the W1C write of its flag and RST (R35). -/
theorem test_marks_outlive_flags :
    (stepped { State.reset with ovr := true, marks := ⟨true, false, false⟩, turns := [.host], todo := [.write 4 4 0x100] }).ovr =
      false ∧
    noMarks (stepped { State.reset with ovr := true, marks := ⟨true, false, false⟩, turns := [.host], todo := [.write 4 4 0x100] }) =
      false ∧
    noMarks (stepped { State.reset with ovr := true, marks := ⟨true, false, false⟩, turns := [.rst] }) = false := by decide

theorem test_unwritten_name : exec .regByName (ops 4 0 0) = .fault (.abufUnwritten 0x100) := rfl

/-! ### Witnesses: states and operands that meet the premises of each statement, clause by clause at its ends -/

/-- TC. -/
theorem tc_wf : State.reset.cfg.wf = true := test_wf_tc

/-- The common premises of an accept. -/
def Idle (s : State) : Prop := s.cfg.wf = true ∧ InFlightInv s ∧ s.busy = false

theorem ops_idle (a0 a1 a2 : Word) : Idle (ops a0 a1 a2) := ⟨tc_wf, idle_inv rfl rfl rfl, rfl⟩

theorem opsBuf_idle (a0 a1 a2 : Word) (bytes : List Byte) : Idle (opsBuf a0 a1 a2 bytes) := ⟨tc_wf, idle_inv rfl rfl rfl, rfl⟩

/-- A PYRB that decodes: it is busy. -/
def decodingAt (d : DState) : State := { State.reset with cur := some .decDecode, dstate := d, op := 0x10 }

theorem decoding_inv (d : DState) (h : d ≠ .idle) : InFlightInv (decodingAt d) where
  decoding := by simp [decodingAt, h]
  sending := by simp [decodingAt, encoderInFlight, isEncoder, State.reset]
  nothing := by simp [decodingAt, h]
  hidden := fun _ => rfl
  bounds := ⟨Nat.zero_le _, Nat.zero_le _⟩

theorem witness_CmdWordsDecodeAsEncoded : Instr.wf .dynReset = true ∧ decodeWord 0x32 = .ok .dynReset := ⟨rfl, rfl⟩

theorem witness_StepRunsTheWrittenOperation :
    let s : State := { State.reset with turns := [.host, .pyrb], todo := [.write 0 4 0x0A, .wait] }
    s.cfg.wf = true ∧ s.turns = .host :: [.pyrb] ∧ s.todo = .write s.cfg.base 4 0x0A :: [.wait] ∧
      decodeWord 0x0A = .ok .encQueryList := ⟨tc_wf, rfl, rfl, rfl⟩

theorem witness_IllegalCommandCompletesAtOnce :
    Idle State.reset ∧ decodeWord 0x0B = .error (.unassignedOp 0x0B) ∧ decodeWord 0x101 = .error .reservedNonzero :=
  ⟨ops_idle 0 0 0, rfl, rfl⟩

theorem witness_BusyCommandIsDropped : (decodingAt .seek).cfg.wf = true ∧ (decodingAt .seek).busy = true := ⟨tc_wf, rfl⟩

theorem witness_EveryOperationRuns :
    (ops 4 0 0).cfg.wf = true ∧ isNext (exec .decDecode (ops 4 0 0)) = true ∧
      exec .regByName (ops 4 0 0) = .fault (.abufUnwritten 0x100) := ⟨tc_wf, rfl, rfl⟩

/-- The sentinel radius 32768 and the radius next to it. -/
theorem witness_EncDriveSendsClampedSpeedAndRadius :
    Idle (ops 0xFFFFFE0B 0x8000 0) ∧ (ops 0xFFFFFE0B 0x8000 0).arg1 = 0x8000 ∧
      Idle (ops 501 0x7FFF 0) ∧ (ops 501 0x7FFF 0).arg1 ≠ 0x8000 :=
  ⟨ops_idle _ _ _, rfl, ops_idle _ _ _, by decide⟩

theorem witness_EncDrivePwmSendsClampedWheels : Idle (ops 256 0xFFFFFF00 0) := ops_idle _ _ _

theorem witness_EncMotorsPwmSendsClampedBytes : Idle (ops 128 0xFFFFFF80 0xFFFFFFFF) := ops_idle _ _ _

/-- No character, and four of more than four. -/
theorem witness_EncDisplayAsciiSendsFourCharacters :
    (Idle (ops 0 0 0) ∧ ([] : List Byte).length = min (ops 0 0 0).arg0.toNat 4 ∧ AbufHolds (ops 0 0 0) 0 []) ∧
    (Idle (opsBuf 5 0 0 [0x61, 0x7A, 0x60, 0x7B]) ∧
      [(0x61 : Byte), 0x7A, 0x60, 0x7B].length = min (opsBuf 5 0 0 [0x61, 0x7A, 0x60, 0x7B]).arg0.toNat 4 ∧
      AbufHolds (opsBuf 5 0 0 [0x61, 0x7A, 0x60, 0x7B]) 0 [0x61, 0x7A, 0x60, 0x7B]) :=
  ⟨⟨ops_idle _ _ _, rfl, fun _ h => absurd h (by simp)⟩, opsBuf_idle _ _ _ _, rfl, opsBuf_holds _ _ _ _⟩

/-- The three clauses; the last with an empty song and with one note. -/
theorem witness_EncDefineSongSendsPairs :
    (Idle (ops 0 2 3) ∧ (ops 0 2 3).arg1 ≠ (ops 0 2 3).arg2) ∧ (Idle (ops 0 256 256) ∧ 255 < (ops 0 256 256).arg1.toNat) ∧
    (Idle (ops 0 0 0) ∧ (ops 0 0 0).arg1 = (ops 0 0 0).arg2 ∧ ([] : List Byte).length = (ops 0 0 0).arg1.toNat) ∧
    (let s : State := { ops 1 1 1 with abuf := [(0x100, 60), (0x200, 16)] }
     Idle s ∧ s.arg1 = s.arg2 ∧ s.arg1.toNat ≤ 255 ∧ [(60 : Byte)].length = s.arg1.toNat ∧ [(16 : Byte)].length = s.arg2.toNat ∧
       AbufHolds s 0 [60] ∧ AbufHolds s 256 [16]) := by
  refine ⟨⟨ops_idle _ _ _, by decide⟩, ⟨ops_idle _ _ _, by decide⟩, ⟨ops_idle _ _ _, rfl, rfl⟩,
    ⟨tc_wf, idle_inv rfl rfl rfl, rfl⟩, rfl, by decide, rfl, rfl, ?_, ?_⟩ <;>
  · intro i h
    have : i = 0 := by simpa using h
    subst this
    rfl

theorem witness_BitFlagCommandsSendOneStatusByte :
    Idle (ops 0xFF 0 0) ∧ (ops 0xFF 0 0).cfg.flagPos.motors[4]? = some 4 ∧ (ops 0xFF 0 0).arg0.getLsbD 4 = true :=
  ⟨ops_idle _ _ _, rfl, rfl⟩

theorem witness_EncBaudSendsCodeOrFails :
    (Idle (ops 300 0 0) ∧ ((ops 300 0 0).arg0, (0 : Byte)) ∈ (ops 300 0 0).cfg.baud) ∧
    (Idle (ops 12345 0 0) ∧ ∀ code : Byte, ((ops 12345 0 0).arg0, code) ∉ (ops 12345 0 0).cfg.baud) := by
  refine ⟨⟨ops_idle _ _ _, by decide⟩, ops_idle _ _ _, fun code h => ?_⟩
  have h2 : (12345 : Word) ∈ testConfig.baud.map Prod.fst := List.mem_map.mpr ⟨_, h, rfl⟩
  revert h2
  decide

/-- 127 references of two ids and one of a single id: 255 ids, the most a list holds. -/
def fullQuery : List (Byte × Byte) := List.replicate 127 (1, 0) ++ [(0, 7)]

/-- 128 references of two ids: 256 ids. -/
def longQuery : List (Byte × Byte) := List.replicate 128 (1, 0)

/-- ABUF holding these references, ARG0 their number. -/
def queryState (refs : List (Byte × Byte)) : State :=
  opsBuf (BitVec.ofNat 32 refs.length) 0 0 (refs.flatMap fun r => [r.1, r.2])

theorem witness_EncQueryList_count : Idle (ops 257 0 0) ∧ 256 < (ops 257 0 0).arg0.toNat := ⟨ops_idle _ _ _, by decide⟩

/-- A failing reference of each of the three kinds, the one before it good. -/
theorem witness_EncQueryList_bad :
    ∀ bad ∈ [((0 : Byte), (99 : Byte)), (1, 2), (2, 0)],
      let s := queryState [(0, 7), bad]
      Idle s ∧ s.arg0.toNat ≤ 256 ∧ [((0 : Byte), (7 : Byte)), bad].length = s.arg0.toNat ∧
        AbufHolds s 0 ([((0 : Byte), (7 : Byte)), bad].flatMap fun r => [r.1, r.2]) ∧
        [((0 : Byte), (7 : Byte)), bad][1]? = some (bad.1, bad.2) ∧ refIds s.cfg (bad.1, bad.2) = none ∧
        refIds s.cfg (0, 7) ≠ none := by
  intro bad h
  refine ⟨opsBuf_idle _ _ _ _, (by decide : 2 ≤ 256), rfl, opsBuf_holds _ _ _ _, rfl, ?_,
    (by decide : refIds testConfig (0, 7) ≠ none)⟩
  · fin_cases h <;> rfl

/-- Both ends: 255 ids are sent, 256 fail. -/
theorem witness_EncQueryList_good :
    (∀ refs ∈ [[], fullQuery, longQuery], Idle (queryState refs) ∧ refs.length = (queryState refs).arg0.toNat ∧
      (queryState refs).arg0.toNat ≤ 256 ∧ AbufHolds (queryState refs) 0 (refs.flatMap fun r => [r.1, r.2]) ∧
      ∀ r ∈ refs, refIds testConfig r ≠ none) ∧
    (fullQuery.flatMap fun r => (refIds testConfig r).getD []).length = 255 ∧
    (longQuery.flatMap fun r => (refIds testConfig r).getD []).length = 256 := by
  have hl : ∀ refs ∈ [[], fullQuery, longQuery], refs.length ≤ 256 := by decide +kernel
  have hr : ∀ refs ∈ [[], fullQuery, longQuery], ∀ r ∈ refs, refIds testConfig r ≠ none := by
    have h1 : refIds testConfig (1, 0) ≠ none := by decide
    have h2 : refIds testConfig (0, 7) ≠ none := by decide
    intro refs h r hr
    have : r = (1, 0) ∨ r = (0, 7) := by
      simp only [List.mem_cons, List.not_mem_nil, or_false] at h
      rcases h with rfl | rfl | rfl <;> simp_all [fullQuery, longQuery]
    rcases this with rfl | rfl
    · exact h1
    · exact h2
  refine ⟨fun refs h => ?_, by decide +kernel, by decide +kernel⟩
  have hn : refs.length = (queryState refs).arg0.toNat := by
    have := hl refs h
    simp only [queryState, opsBuf, ops, BitVec.toNat_ofNat]
    omega
  exact ⟨opsBuf_idle _ _ _ _, hn, hn ▸ hl refs h, opsBuf_holds _ _ _ _, hr refs h⟩

/-- The first unwritten byte is the last one read, in each of the four operations. -/
theorem witness_UnwrittenOperandByteFaults :
    let s := opsBuf 4 4 4 [0x61, 0x62, 0x63]
    s.cfg.wf = true ∧ s.busy = false ∧ (∀ i, i < 3 → Memory.read s.abuf (0x100 + i) ≠ none) ∧
      Memory.read s.abuf (0x100 + 3) = none ∧ 3 < min s.arg0.toNat 4 ∧ s.arg1 = s.arg2 ∧ s.arg1.toNat ≤ 255 ∧
      3 < s.arg1.toNat ∧ s.arg0.toNat ≤ 32 ∧ 3 < 2 * s.arg0.toNat := by
  refine ⟨tc_wf, rfl, ?_, ?_, ?_, ?_, ?_, ?_, ?_, ?_⟩ <;> decide

/-- Both notes written, and the last of two durations not. -/
theorem witness_UnwrittenOperandByteFaults_durations :
    let s : State := { ops 1 2 2 with abuf := [(0x100, 60), (0x101, 62), (0x200, 16)] }
    s.cfg.wf = true ∧ s.busy = false ∧ s.arg1 = s.arg2 ∧ s.arg1.toNat ≤ 255 ∧ 1 < s.arg1.toNat ∧
      (∀ i, i < s.arg1.toNat → Memory.read s.abuf (0x100 + i) ≠ none) ∧
      (∀ i, i < 1 → Memory.read s.abuf (0x200 + i) ≠ none) ∧ Memory.read s.abuf (0x200 + 1) = none := by
  refine ⟨tc_wf, rfl, ?_, ?_, ?_, ?_, ?_, ?_⟩ <;> decide

theorem witness_EncoderAcceptFrame :
    isEncoder .encDrive = true ∧ exec .encDrive (ops 1 2 0) = .next (done .encDrive (ops 1 2 0)) ∧
      (done .encDrive (ops 1 2 0)).err = false := ⟨rfl, done_next rfl, rfl⟩

theorem witness_DecDecodeBeginsInSeek : Idle (ops 0 0 0) := ops_idle _ _ _

/-- Each state of R230 that reads a byte; in BODY the last byte of the frame and one before it. -/
theorem witness_ByteStepsFollowTheFrame :
    ({ decodingAt .seek with rxq := [19, 2] } : State).rxq = 19 :: [2] ∧ (decodingAt .len).dstate = .len ∧
    (let s : State := { decodingAt .body with rxq := [1], n := 2, cnt := 2 }
     s.dstate = .body ∧ s.cnt.toNat ≤ s.n.toNat ∧ s.cnt.toNat = s.n.toNat) ∧
    (let s : State := { decodingAt .body with rxq := [1], n := 2, cnt := 0 }
     s.cnt.toNat ≤ s.n.toNat ∧ s.cnt.toNat ≠ s.n.toNat) := by
  refine ⟨rfl, rfl, ?_, ?_⟩ <;> decide

theorem witness_EmptyReceiveBufferFailsOrHolds :
    (decodingAt .body).dstate = .body ∧ (decodingAt .body).rxq = [] ∧ (decodingAt .body).terr = none ∧
      ({ decodingAt .body with terr := some ⟨4, by decide⟩ } : State).terr = some ⟨4, by decide⟩ ∧
      ({ decodingAt .body with rxq := [1] } : State).rxq ≠ [] := ⟨rfl, rfl, rfl, rfl, by decide⟩

theorem witness_ChecksumFailureFlushes :
    ({ decodingAt .validate with sum := 19 } : State).dstate = .validate ∧ ({ decodingAt .validate with sum := 19 } : State).sum ≠ 0 :=
  ⟨rfl, by decide⟩

/-- BODY holding these bytes, the first `n` of them the payload, in VALIDATE with a zero sum. -/
def validating (bytes : List Byte) : State :=
  { decodingAt .validate with
    n := BitVec.ofNat 8 bytes.length
    body := Vector.ofFn fun i : Fin 256 => bytes.getD i.val 0 }

/-- A good field, then an unknown id; and then an id whose value passes the end. -/
theorem witness_FirstBadFieldDecidesTheError :
    let good : List SensorField := [⟨7, .u8, .num 1⟩]
    fieldsOk testConfig good = true ∧ (validating [7, 1, 99, 5]).sum = 0 ∧ (validating [7, 1, 99, 5]).valid = false ∧
    (validating [7, 1, 99, 5]).n.toNat = (payloadOf good ++ (99 : Byte) :: [5]).length ∧
    (validating [7, 1, 99, 5]).body.toList.take (validating [7, 1, 99, 5]).n.toNat = payloadOf good ++ (99 : Byte) :: [5] ∧
    sensorAt testConfig 99 = none ∧
    (validating [7, 1, 50, 1, 2]).n.toNat = (payloadOf good ++ (50 : Byte) :: [1, 2]).length ∧
    (validating [7, 1, 50, 1, 2]).body.toList.take (validating [7, 1, 50, 1, 2]).n.toNat =
      payloadOf good ++ (50 : Byte) :: [1, 2] ∧
    ∃ d, sensorAt testConfig 50 = some d ∧ [(1 : Byte), 2].length < fmtWidth d.fmt := by
  refine ⟨by decide, rfl, rfl, by decide, by decide +kernel, rfl, by decide, by decide +kernel, ⟨.block 3, _⟩, rfl, by decide⟩

/-- The empty payload and the longest one. -/
theorem witness_BuiltFramePassesTheChecksum :
    ∀ payload ∈ [[], List.replicate 255 (0x13 : Byte)],
      ({ decodingAt .seek with rxq := buildFrame payload ++ [5] } : State).dstate = .seek ∧ payload.length ≤ 255 ∧
        ({ decodingAt .seek with rxq := buildFrame payload ++ [5] } : State).rxq = buildFrame payload ++ [5] := by
  intro payload h
  refine ⟨rfl, ?_, rfl⟩
  revert payload
  decide +kernel

theorem witness_JunkWithoutMagicChangesOnlyTheJunkCount :
    (decodingAt .seek).dstate = .seek ∧ (19 : Byte) ∉ List.replicate 255 (0x41 : Byte) ∧
      [(19 : Byte), 2, 7, 1, 227].head? = some 19 := ⟨rfl, by decide +kernel, rfl⟩

/-- One field of each format, and the largest frame: 127 fields. -/
def fiveFields : List SensorField :=
  [⟨7, .u8, .num 1⟩, ⟨19, .i16, .num (-200)⟩, ⟨22, .u16, .num 65534⟩, ⟨24, .i8, .num (-128)⟩, ⟨50, .block 3, .bytes [1, 2, 3]⟩]

theorem witness_BuiltFrameDecodesToItsFields :
    ∀ fields ∈ [[], fiveFields, List.replicate 127 ⟨7, .u8, .num 255⟩],
      let s : State := { decodingAt .seek with rxq := buildFrame (payloadOf fields) ++ [5] }
      s.cfg.wf = true ∧ s.dstate = .seek ∧ s.cur = some .decDecode ∧ fieldsOk s.cfg fields = true ∧
        (payloadOf fields).length ≤ 255 ∧ s.rxq = buildFrame (payloadOf fields) ++ [5] := by
  intro fields h
  refine ⟨tc_wf, rfl, rfl, ?_, ?_, rfl⟩
  · exact (by decide +kernel : ∀ f ∈ [[], fiveFields, List.replicate 127 ⟨7, .u8, .num 255⟩], fieldsOk testConfig f = true) fields h
  · exact (by decide +kernel : ∀ f ∈ [[], fiveFields, List.replicate 127 ⟨7, .u8, .num 255⟩], (payloadOf f).length ≤ 255) fields h

/-- A state about to take one turn. -/
def atTurn (t : Turn) (s : State) : State := { s with turns := [t] }

/-- A state whose HOST is about to write a register. -/
def atWrite (off : Nat) (w : Word) (s : State) : State := { s with turns := [.host], todo := [.write off 4 w] }

/-- A transition of each kind: on a byte, by an accept, on a transport error, by RST. -/
theorem witness_DecoderStateTransitions :
    let byte := atTurn .pyrb { decodingAt .seek with rxq := [19] }
    let accepts := atWrite 0 0x10 State.reset
    let fails := atTurn .pyrb { decodingAt .len with terr := some ⟨255, by decide⟩ }
    let resets := atTurn .rst (decodingAt .body)
    (InFlightInv byte ∧ isNext (step byte) = true ∧ (stepped byte).dstate ≠ byte.dstate) ∧
    (InFlightInv accepts ∧ isNext (step accepts) = true ∧ (stepped accepts).dstate ≠ accepts.dstate) ∧
    (InFlightInv fails ∧ isNext (step fails) = true ∧ (stepped fails).dstate ≠ fails.dstate) ∧
    InFlightInv resets ∧ isNext (step resets) = true ∧ (stepped resets).dstate ≠ resets.dstate := by
  have inv := fun (d : DState) (h : d ≠ .idle) => decoding_inv d h
  refine ⟨⟨⟨(inv .seek (by decide)).1, (inv .seek (by decide)).2, (inv .seek (by decide)).3, fun _ => rfl, by decide⟩, ?_, ?_⟩,
    ⟨idle_inv rfl rfl rfl, ?_, ?_⟩,
    ⟨⟨(inv .len (by decide)).1, (inv .len (by decide)).2, (inv .len (by decide)).3, fun _ => rfl, by decide⟩, ?_, ?_⟩,
    ⟨(inv .body (by decide)).1, (inv .body (by decide)).2, (inv .body (by decide)).3, fun _ => rfl, by decide⟩, ?_, ?_⟩ <;>
    decide

theorem witness_DecDecodeAcceptFrame : exec .decDecode (ops 0 0 0) = .next (done .decDecode (ops 0 0 0)) := done_next rfl

theorem witness_RegByIdReturnsTheDescriptor :
    (Idle (ops 255 0 0) ∧ ∀ d, ((ops 255 0 0).arg0.extractLsb' 0 8, d) ∉ (ops 255 0 0).cfg.sensors) ∧
    (Idle (ops 0x132 0 0) ∧ ∃ d, ((ops 0x132 0 0).arg0.extractLsb' 0 8, d) ∈ (ops 0x132 0 0).cfg.sensors) := by
  refine ⟨⟨ops_idle _ _ _, fun d h => ?_⟩, ops_idle _ _ _, ⟨.block 3, _⟩, List.mem_of_getElem? (i := 6) rfl⟩
  have h2 : ((ops 255 0 0).arg0.extractLsb' 0 8 : Byte) ∈ testConfig.sensors.map Prod.fst := List.mem_map.mpr ⟨_, h, rfl⟩
  revert h2
  decide

/-- Lengths 0 and 33; a name nothing has; a scalar name and a bulk name. -/
theorem witness_RegByNameFindsTheExactName :
    (Idle (ops 0 0 0) ∧ (ops 0 0 0).arg0.toNat = 0) ∧ (Idle (ops 33 0 0) ∧ 32 < (ops 33 0 0).arg0.toNat) ∧
    (Idle (opsBuf 1 0 0 [0x78]) ∧ AbufHolds (opsBuf 1 0 0 [0x78]) 0 [0x78] ∧ [(0x78 : Byte)].length = (opsBuf 1 0 0 [0x78]).arg0.toNat ∧
      (∀ e ∈ testConfig.sensors, e.2.name ≠ [0x78]) ∧ ∀ b ∈ testConfig.bulks, b.name ≠ [0x78]) ∧
    (Idle (opsBuf 16 0 0 Config.bumpName) ∧ AbufHolds (opsBuf 16 0 0 Config.bumpName) 0 Config.bumpName ∧
      (7, ⟨.u8, Config.bumpName⟩) ∈ testConfig.sensors) ∧
    (Idle (opsBuf 3 0 0 [0x67, 0x72, 0x70]) ∧ AbufHolds (opsBuf 3 0 0 [0x67, 0x72, 0x70]) 0 [0x67, 0x72, 0x70] ∧
      testConfig.bulks[0]? = some ⟨[0x67, 0x72, 0x70], [7, 22]⟩) := by
  refine ⟨⟨ops_idle _ _ _, rfl⟩, ⟨ops_idle _ _ _, by decide⟩,
    ⟨opsBuf_idle _ _ _ _, opsBuf_holds _ _ _ _, rfl, by decide, by decide⟩,
    ⟨opsBuf_idle _ _ _ _, opsBuf_holds _ _ _ _, by decide⟩, opsBuf_idle _ _ _ _, opsBuf_holds _ _ _ _, rfl⟩

/-- No bulk entry; a position at the end; the last position. -/
theorem witness_RegBulkMemberReturnsTheMember :
    (Idle (ops 2 0 0) ∧ (ops 2 0 0).cfg.bulks[(ops 2 0 0).arg0.toNat]? = none) ∧
    (∃ bd : BulkDesc, testConfig.bulks[0]? = some bd ∧ bd.members.length ≤ (ops 0 2 0).arg1.toNat ∧ Idle (ops 0 2 0)) ∧
    ∃ bd : BulkDesc, testConfig.bulks[0]? = some bd ∧ bd.members[(ops 0 1 0).arg1.toNat]? = some 22 ∧ Idle (ops 0 1 0) :=
  ⟨⟨ops_idle _ _ _, rfl⟩, ⟨_, rfl, by decide, ops_idle _ _ _⟩, _, rfl, rfl, ops_idle _ _ _⟩

theorem witness_LookupByNameAndByIdAgree :
    let s := opsBuf 16 0 0 Config.bumpName
    Idle s ∧ exec .regByName s = .next (done .regByName s) ∧ (done .regByName s).err = false ∧
      (done .regByName s).res0.getLsbD 31 = false := ⟨opsBuf_idle _ _ _ _, done_next rfl, by decide, by decide⟩

theorem witness_RegistryFrame :
    isRegistry .regById = true ∧ exec .regById (ops 7 0 0) = .next (done .regById (ops 7 0 0)) ∧
    isRegistry .regBulkMember = true ∧ exec .regBulkMember (ops 0 1 0) = .next (done .regBulkMember (ops 0 1 0)) :=
  ⟨rfl, done_next rfl, rfl, done_next rfl⟩

theorem witness_DynNormalizeGivesWheelDistances :
    (Idle (ops 65500 100 0) ∧ (ops 65500 100 0).priorValid = false) ∧
    (let s : State := { ops 0xFFFF 0 0 with priorL := 0, priorR := 1, priorValid := true }
     Idle s ∧ s.priorValid = true) := ⟨⟨ops_idle _ _ _, rfl⟩, ⟨tc_wf, idle_inv rfl rfl rfl, rfl⟩, rfl⟩

theorem witness_WrapHeuristicDelta :
    (65535 : BitVec 16).toNat ≤ (65535 : BitVec 16).toNat ∧ (0 : BitVec 16).toNat < (65535 : BitVec 16).toNat := by decide

/-- dt = 0; equal distances; distances that differ by one. -/
theorem witness_DynUpdateMovesThePose :
    (Idle (ops 1 2 0) ∧ (ops 1 2 0).arg2 = 0) ∧
    (Idle (ops 5 5 1) ∧ (ops 5 5 1).arg2 ≠ 0 ∧ (ops 5 5 1).arg0.toInt = (ops 5 5 1).arg1.toInt) ∧
    (Idle (ops 0 1 1) ∧ (ops 0 1 1).arg2 ≠ 0 ∧ (ops 0 1 1).arg0.toInt ≠ (ops 0 1 1).arg1.toInt) :=
  ⟨⟨ops_idle _ _ _, rfl⟩, ⟨ops_idle _ _ _, by decide, rfl⟩, ops_idle _ _ _, by decide, by decide⟩

theorem witness_StandstillAndSpinKeepThePosition :
    (Idle (ops 0 0 1) ∧ (ops 0 0 1).arg2 ≠ 0 ∧ (ops 0 0 1).arg0 = 0 ∧ (ops 0 0 1).arg1 = 0) ∧
    (let s := ops 0x80000001 0x7FFFFFFF 1
     Idle s ∧ s.arg2 ≠ 0 ∧ s.arg0.toInt = -s.arg1.toInt) :=
  ⟨⟨ops_idle _ _ _, by decide, rfl, rfl⟩, ops_idle _ _ _, by decide, by decide⟩

theorem witness_DynResetPutsThePoseAtTheOrigin : Idle (ops 0 0 0) := ops_idle _ _ _

theorem witness_PoseFrame :
    ∀ i ∈ [Instr.dynNormalize, .dynUpdate, .dynReset], isPose i = true ∧ exec i (ops 1 2 0) = .next (done i (ops 1 2 0)) := by
  intro i h
  fin_cases h <;> exact ⟨rfl, done_next rfl⟩

/-- Ties go up, on both sides of zero. -/
theorem witness_RoundingIsToNearestTiesUp :
    (1 ≤ 1 ∧ rnd (-1) 1 = 0 ∧ rnd 1 1 = 1) ∧ (0 : Int) < 2 ∧ divr (-1) 2 = 0 ∧ divr 1 2 = 1 := by decide

theorem tc_trig_zero : fxSin testConfig 0 = 0 ∧ fxCos testConfig 0 = 65536 := by decide +kernel

/-- The reset pose: no readout wraps and TRIG is exact at its heading. -/
theorem witness_WheelPointsKeepTheirDistance :
    let s := State.reset
    let px := rnd ((s.cfg.rRaw.toNat : Int) * fxSin s.cfg s.poseTh) 16
    let py := rnd ((s.cfg.rRaw.toNat : Int) * fxCos s.cfg s.poseTh) 16
    s.cfg.wf = true ∧ fits32 (s.poseX.toInt + px) = true ∧ fits32 (s.poseX.toInt - px) = true ∧
      fits32 (s.poseY.toInt + py) = true ∧ fits32 (s.poseY.toInt - py) = true ∧
      |(fxSin s.cfg s.poseTh : ℝ) - 2 ^ 16 * Real.sin ((s.poseTh.toInt : ℝ) / 2 ^ 16)| ≤ 1 ∧
      |(fxCos s.cfg s.poseTh : ℝ) - 2 ^ 16 * Real.cos ((s.poseTh.toInt : ℝ) / 2 ^ 16)| ≤ 1 := by
  refine ⟨tc_wf, by decide +kernel, by decide +kernel, by decide +kernel, by decide +kernel, ?_, ?_⟩
  · change |(fxSin testConfig 0 : ℝ) - 2 ^ 16 * Real.sin (((0 : Word).toInt : ℝ) / 2 ^ 16)| ≤ 1
    rw [tc_trig_zero.1]
    simp
  · change |(fxCos testConfig 0 : ℝ) - 2 ^ 16 * Real.cos (((0 : Word).toInt : ℝ) / 2 ^ 16)| ≤ 1
    rw [tc_trig_zero.2]
    have h0 : (0 : Word).toInt = 0 := by decide
    norm_num [h0]

theorem witness_ComputedDefaultTrigIsAccurate : testConfig.trig = [] := rfl

/-- The ends of the window, a misaligned offset, and the ends of the reserved and read-only ranges. -/
theorem witness_WindowAccessRules :
    (0x7FC < 0x800 ∧ 0x7FC % 4 = 0) ∧ (0x7FF < 0x800 ∧ 0x7FF % 4 ≠ 0) ∧ (0x050 % 4 = 0 ∧ 0x050 < 0x0C0) ∧
      (0x0BC % 4 = 0 ∧ 0x0BC < 0x0C0) ∧ (0x0E0 % 4 = 0 ∧ 0x0FC % 4 = 0 ∧ 0x0FC < 0x100) ∧ (0x300 ≤ 0x300 ∧ 0x300 % 4 = 0) := by
  decide

theorem witness_AbufStoresByteLanes : Memory.wf State.reset.abuf = true ∧ Memory.read State.reset.abuf (0x100 + 4 * 127 + 3) = none :=
  ⟨rfl, rfl⟩

/-- Each flag cleared by its own W1C write and set by its own event. -/
theorem witness_StickyFlagsChangeOnlyByTheirEvents :
    (let s := atWrite 4 0x700 { State.reset with ovr := true, accerr := true, ovf := true, marks := ⟨true, true, true⟩ }
     isNext (step s) = true ∧ (stepped s).ovr = false ∧ (stepped s).accerr = false ∧ (stepped s).ovf = false ∧
       s.marks.ovr = true ∧ s.marks.accerr = true ∧ s.marks.ovf = true) ∧
    (let s := atWrite 0 0x32 (decodingAt .seek)
     isNext (step s) = true ∧ s.ovr = false ∧ (stepped s).ovr = true ∧ s.marks.ovr = false ∧ (stepped s).marks.ovr = true) ∧
    (let s := atWrite 6 0 State.reset
     isNext (step s) = true ∧ s.accerr = false ∧ (stepped s).accerr = true) ∧
    (let s := atWrite 0 0x30 { ops 5 200 0 with priorL := 10, priorR := 200, priorValid := true }
     isNext (step s) = true ∧ s.ovf = false ∧ (stepped s).ovf = true) := by
  refine ⟨?_, ?_, ?_, ?_⟩ <;> decide

theorem witness_RegistersChangeOnlyByTheirWriters :
    (let s := atWrite 8 7 State.reset
     isNext (step s) = true ∧ resetsNext s = false ∧ (stepped s).arg0 ≠ s.arg0) ∧
    (let s := atWrite 0x10 7 State.reset
     isNext (step s) = true ∧ resetsNext s = false ∧ (stepped s).arg2 ≠ s.arg2) ∧
    (let s := atWrite 0 0x32 { State.reset with poseX := 5 }
     isNext (step s) = true ∧ resetsNext s = false ∧ (stepped s).poseX ≠ s.poseX) ∧
    (let s := atWrite 0 0x30 (ops 1 2 0)
     isNext (step s) = true ∧ resetsNext s = false ∧ (stepped s).priorValid ≠ s.priorValid) ∧
    (let s := atWrite 0x2FC 7 State.reset
     isNext (step s) = true ∧ resetsNext s = false ∧ (stepped s).abuf ≠ s.abuf) := by
  refine ⟨?_, ?_, ?_, ?_, ?_⟩ <;> decide

theorem witness_ParametersAndTransportAreKept :
    (let s := atTurn (.error (some ⟨9, by decide⟩)) State.reset
     isNext (step s) = true ∧ (stepped s).terr ≠ s.terr) ∧
    (let s := atTurn (.arrive 7) { State.reset with rxq := [5] }
     isNext (step s) = true ∧ (stepped s).rxq ≠ s.rxq) ∧
    (let s := atTurn .pyrb { decodingAt .len with rxq := [5, 6] }
     isNext (step s) = true ∧ (stepped s).rxq ≠ s.rxq) ∧
    (let s := atTurn .pyrb { decodingAt .validate with rxq := [5, 6], sum := 1 }
     isNext (step s) = true ∧ (stepped s).rxq ≠ s.rxq) ∧
    (let s := atTurn .rst { State.reset with rxq := [5], txout := [137] }
     isNext (step s) = true ∧ resetsNext s = true) := by
  refine ⟨?_, ?_, ?_, ?_, ?_⟩ <;> decide

/-- VALID = 0 with a name held, and NAMELEN = 0 with a frame shown. -/
theorem witness_UnspecifiedBuffersAreNeverShown :
    ({ State.reset with nameLen := 32 } : State).valid = false ∧ ({ State.reset with valid := true } : State).nameLen = 0 := ⟨rfl, rfl⟩

theorem reset_status : StatusInv State.reset where
  coded := by decide
  failedIsDone := by decide
  inFlightIsFresh := by decide
  inFlightOp := fun i h => by cases h
  ovrMarked := by decide
  accerrMarked := by decide
  ovfMarked := by decide

theorem decoding_status (d : DState) : StatusInv (decodingAt d) where
  coded := by simp [decodingAt, State.reset]
  failedIsDone := by simp [decodingAt, State.reset]
  inFlightIsFresh := by simp [decodingAt, State.reset]
  inFlightOp := fun i h => by cases h; rfl
  ovrMarked := by simp [decodingAt, State.reset]
  accerrMarked := by simp [decodingAt, State.reset]
  ovfMarked := by simp [decodingAt, State.reset]

/-- A CMD write by a HOST that keeps its duties, a read it may do while BUSY = 1, and a CMD write that breaks the first duty; the
states meet StatusInv, which speaks of neither the turns nor the actions. -/
theorem witness_DutiesPreventLostCommands :
    (let s := atWrite 0 0x32 State.reset
     StatusInv s ∧ isNext (step s) = true ∧ keepsDuties s = true ∧ s.ovr = false) ∧
    (let s : State := { decodingAt .seek with turns := [.host], todo := [.read 0x044 4] }
     StatusInv s ∧ isNext (step s) = true ∧ keepsDuties s = true ∧ s.busy = true ∧ hostNext s = some (.read 0x044 4)) ∧
    (let s := atWrite 0 0x32 (decodingAt .seek)
     StatusInv s ∧ isNext (step s) = true ∧ writesNoCmdWhileBusy s = false) := by
  have h1 := reset_status
  have h2 := decoding_status .seek
  refine ⟨⟨⟨h1.1, h1.2, h1.3, h1.4, h1.5, h1.6, h1.7⟩, ?_, ?_, ?_⟩, ⟨⟨h2.1, h2.2, h2.3, h2.4, h2.5, h2.6, h2.7⟩, ?_, ?_, ?_, ?_⟩,
    ⟨h2.1, h2.2, h2.3, h2.4, h2.5, h2.6, h2.7⟩, ?_, ?_⟩ <;> decide

/-- A frame of three entries, the first and the last of one id. -/
def repeatedFrame : State := decoded [19, 8, 7, 1, 50, 1, 2, 3, 7, 2, 156] 12

theorem witness_FrameMappingIsOrderedByFirstOccurrence :
    ((frameMapping repeatedFrame).map Prod.fst)[0]? = some 7 ∧ ((frameMapping repeatedFrame).map Prod.fst)[1]? = some 50 ∧
      ∃ e, shownEntries repeatedFrame = (shownEntries repeatedFrame).take 2 ++ e :: [] :=
  ⟨by decide +kernel, by decide +kernel, ⟨0x07010007, 2⟩, by decide +kernel⟩

/-- While BUSY = 1 and while BUSY = 0. -/
theorem witness_WaitStaysWhileBusy :
    ∀ s ∈ [decodingAt .seek, State.reset],
      let w : State := { s with turns := [.host, .pyrb], todo := [.wait] }
      w.cfg.wf = true ∧ w.turns = .host :: [.pyrb] ∧ w.todo = .wait :: [] := by
  intro s h
  fin_cases h <;> exact ⟨tc_wf, rfl, rfl⟩

theorem witness_RstPutsEveryRegisterToItsResetValue :
    (atTurn .rst (decodingAt .body)).cfg.wf = true ∧ (atTurn .rst (decodingAt .body)).turns = .rst :: [] := ⟨tc_wf, rfl⟩

/-- A byte of BODY is taken in a state that meets the four invariants. -/
theorem witness_StepKeepsInvariants :
    let s := atTurn .pyrb { decodingAt .body with rxq := [1], n := 2, sum := 21, abuf := [(0x100, 1)] }
    InFlightInv s ∧ StatusInv s ∧ DecoderInv s ∧ StorageInv s ∧ step s = .next (stepped s) := by
  refine ⟨⟨(decoding_inv .body (by decide)).1, (decoding_inv .body (by decide)).2, (decoding_inv .body (by decide)).3,
    fun _ => rfl, by decide⟩, ⟨by decide, by decide, by decide, ?_, by decide, by decide, by decide⟩,
    ⟨by decide, by decide, by decide, by decide⟩, ⟨by decide, by decide, fun seq h => by cases h⟩, stepped_next (by decide)⟩
  intro i h
  cases h
  rfl

end Sys2Proof.Tests
end

section
/-!
PROOFS. The arithmetic primitives of 00_scope.md R12 and R13: the two rounding divisions are one, and its bounds are those of
the floor it takes; the two bytes of be16 put together are the 16-bit word they are cut from.
-/

namespace Sys2Proof.Machine

/-- R13's interval for DIVR, closed below and open above, is that of the floor of `2 * n + d` over `2 * d`: a tie goes up. -/
theorem divr_bounds {d : Int} (hd : 0 < d) (n : Int) :
    d * (2 * divr n d - 1) ≤ 2 * n ∧ 2 * n < d * (2 * divr n d + 1) := by
  have hpos : 0 < 2 * d := by omega
  have hle : 2 * d * divr n d ≤ 2 * n + d := Int.mul_ediv_self_le hpos.ne'
  have hlt : 2 * n + d < 2 * d * divr n d + 2 * d := Int.lt_mul_ediv_self_add hpos
  constructor <;> linarith

/-- R13's RND is DIVR by a power of two: half of `2 ^ s` is `2 ^ (s - 1)`, exact since `s` is not 0. -/
theorem rnd_eq_divr (v : Int) {s : Nat} (hs : 1 ≤ s) : rnd v s = divr v (2 ^ s) := by
  have hhalf : (2 : Int) ^ s = 2 * 2 ^ (s - 1) := (mul_pow_sub_one (by omega) 2).symm
  calc rnd v s = 2 * (v + 2 ^ (s - 1)) / (2 * 2 ^ s) := (Int.mul_ediv_mul_of_pos _ _ two_pos).symm
    _ = divr v (2 ^ s) := by rw [mul_add, ← hhalf, divr]

/-- The bytes `be16` cuts from a 16-bit word, put together high byte first, are that word. -/
theorem toNat_highByte_lowByte (w : BitVec 16) :
    (w.extractLsb' 8 8).toNat * 256 + (w.extractLsb' 0 8).toNat = w.toNat := by
  simp only [BitVec.extractLsb'_toNat, Nat.shiftRight_eq_div_pow]
  omega

/-- Settles O40: RND is DIVR by a power of two, and DIVR's bounds are those of its floor. -/
theorem roundingIsToNearestTiesUp : Obligations.RoundingIsToNearestTiesUp := by
  refine ⟨fun v s hs => ?_, fun n d hd => divr_bounds hd n⟩
  rw [rnd_eq_divr v hs]
  exact divr_bounds (by positivity) v

/-- Settles O10: the two bytes make the word again, and the word of an integer is the integer modulo 65536. -/
theorem bigEndianSixteenBits : Obligations.BigEndianSixteenBits := by
  intro v
  refine ⟨_, _, rfl, ?_⟩
  have hword : ((BitVec.ofInt 16 v).toNat : Int) = v % 65536 := by
    rw [BitVec.toNat_ofInt, Int.toNat_of_nonneg (Int.emod_nonneg _ (by decide))]
    rfl
  rw [← hword]
  exact_mod_cast toNat_highByte_lowByte (BitVec.ofInt 16 v)

end Sys2Proof.Machine
end

section
/-!
PROOFS. What an operation, a CMD write and a step can do, said once for the claims about the whole state: the forms of Laws/Exec
with what the invariants of Safety need besides, the length of every sequence, the code of every error, the length of every name.
-/

namespace Sys2Proof.Machine

/-! ### The encoder's sequences: 1 to 513 bytes (10_state.md R54) -/

theorem interleave_length_le (notes durs : List Byte) : (interleave notes durs).length ≤ 2 * notes.length := by
  induction notes generalizing durs with
  | nil => simp [interleave]
  | cons note notes ih =>
    cases durs with
    | nil => simp [interleave]
    | cons dur durs => have := ih durs; simp only [interleave, List.length_cons]; omega

/-- An error of EXPAND on one reference has a code (40_registry.md R169). -/
theorem expandRef_code {c : Config} {i : Nat} {k x : Byte} {e : OpError} (h : expandRef c i k x = .error e) :
    e.code ≠ .none := by
  unfold expandRef at h
  split_ifs at h
  · split at h <;> cases h; simp
  · split at h <;> cases h; simp
  · cases h; simp

/-- An error of EXPAND has a code (R169). -/
theorem expandFrom_code {c : Config} {i : Nat} {refs : List (Byte × Byte)} {e : OpError}
    (h : expandFrom c i refs = .error e) : e.code ≠ .none := by
  induction refs generalizing i with
  | nil => cases h
  | cons r refs ih =>
    obtain ⟨k, x⟩ := r
    unfold expandFrom at h
    split at h
    · next he => cases h; exact expandRef_code he
    · split at h
      · next he => cases h; exact ih he
      · cases h

/-- What an encoder's sequence or error is: 1 to 513 bytes (10_state.md R54), or an error with a code (60_exceptions.md R332). -/
def SeqOk (r : Except OpError (List Byte)) : Prop :=
  (∀ seq, r = .ok seq → 1 ≤ seq.length ∧ seq.length ≤ 513) ∧ ∀ e, r = .error e → e.code ≠ .none

theorem seqOk_baudSeq (c : Config) (rate : Word) : SeqOk (baudSeq c rate) := by
  unfold baudSeq
  split <;> constructor <;> intro _ h <;> cases h <;> simp

/-- A query list has at most 255 ids (41_command_encoder.md R192). -/
theorem seqOk_queryListSeq (c : Config) (refs : List (Byte × Byte)) : SeqOk (queryListSeq c refs) := by
  unfold queryListSeq expand
  split
  · next he => exact ⟨nofun, fun _ h => by cases h; exact expandFrom_code he⟩
  · split
    · exact ⟨nofun, fun _ h => by cases h; simp⟩
    · exact ⟨fun _ h => by cases h; simp; omega, nofun⟩

/-! ### Operand bytes and names (10_state.md R45, R46) -/

/-- A range read of ABUF gives as many bytes as asked for. -/
theorem abufBytes_length {s : State} {start len : Nat} {bytes : List Byte} (h : abufBytes s start len = .ok bytes) :
    bytes.length = len :=
  ((Memory.readBytes_eq_ok _ _ _ _).mp h).1

/-- A scalar descriptor of a legal configuration has a name of at most 32 bytes (40_registry.md R160). -/
theorem sensorAt_name_length_le {c : Config} {id : Byte} {d : ScalarDesc} (hc : c.wf = true) (h : sensorAt c id = some d) :
    d.name.length ≤ 32 := by
  have hs : c.sensorsOk = true := by simp only [Config.wf, Bool.and_eq_true] at hc; tauto
  obtain ⟨⟨id', d'⟩, hmem, heq⟩ : ∃ e ∈ c.sensors, e.2 = d := by
    obtain ⟨l₁, l₂, h', -⟩ := List.lookup_eq_some_iff.mp h
    exact ⟨(id, d), by simp [h'], rfl⟩
  subst heq
  have hentry := List.all_eq_true.mp hs _ hmem
  simp only [nameOk, Bool.and_eq_true, decide_eq_true_eq] at hentry
  obtain ⟨-, -, hle⟩ := hentry
  exact hle

/-! ### The outcomes of an operation -/

/-- What an operation that ends at its accept may have written before it completes or raises: STATUS's own fields, RES, a name,
the pose and the prior sample, the last two and OVF only as the operation `o` says. -/
structure Worked (o : Option Instr) (s u : State) : Prop where
  frame : u = { s with
    op := u.op, done := u.done, err := u.err, ecode := u.ecode, ovf := u.ovf, marks := u.marks
    res0 := u.res0, res1 := u.res1, res2 := u.res2, res3 := u.res3
    poseX := u.poseX, poseY := u.poseY, poseTh := u.poseTh
    priorL := u.priorL, priorR := u.priorR, priorValid := u.priorValid, nameLen := u.nameLen, name := u.name }
  overflow : ∃ b, u.ovf = (s.ovf || b) ∧ u.marks = { s.marks with ovf := s.marks.ovf || b } ∧
    (b = true → o = some .dynNormalize ∨ o = some .dynUpdate)
  pose : (u.poseX, u.poseY, u.poseTh) ≠ (s.poseX, s.poseY, s.poseTh) → o = some .dynUpdate ∨ o = some .dynReset
  prior : (u.priorL, u.priorR, u.priorValid) ≠ (s.priorL, s.priorR, s.priorValid) → o = some .dynNormalize
  nameFits : s.nameLen.toNat ≤ 32 → u.nameLen.toNat ≤ 32

namespace Worked

variable {o : Option Instr} {s u : State}

theorem dstate_eq (h : Worked o s u) : u.dstate = s.dstate := by rw [h.frame]
theorem txpend_eq (h : Worked o s u) : u.txpend = s.txpend := by rw [h.frame]
theorem ovr_eq (h : Worked o s u) : u.ovr = s.ovr := by rw [h.frame]
theorem accerr_eq (h : Worked o s u) : u.accerr = s.accerr := by rw [h.frame]
theorem arg0_eq (h : Worked o s u) : u.arg0 = s.arg0 := by rw [h.frame]
theorem arg1_eq (h : Worked o s u) : u.arg1 = s.arg1 := by rw [h.frame]
theorem arg2_eq (h : Worked o s u) : u.arg2 = s.arg2 := by rw [h.frame]
theorem abuf_eq (h : Worked o s u) : u.abuf = s.abuf := by rw [h.frame]

/-- An accept that has only marked STATUS. -/
theorem mark (o : Option Instr) (s : State) (op : Byte) : Worked o s (s.acceptMark op) where
  frame := rfl
  overflow := ⟨false, by simp⟩
  pose := absurd rfl
  prior := absurd rfl
  nameFits := id

theorem clearName (h : Worked o s u) : Worked o s u.clearName where
  frame := by rw [h.frame]; rfl
  overflow := h.overflow
  pose := h.pose
  prior := h.prior
  nameFits := fun _ => by simp

theorem setRes01 (h : Worked o s u) (a b : Word) : Worked o s (u.setRes01 a b) where
  frame := by rw [h.frame]; rfl
  overflow := h.overflow
  pose := h.pose
  prior := h.prior
  nameFits := h.nameFits

theorem setName (h : Worked o s u) {name : List Byte} (hn : name.length ≤ 32) : Worked o s (u.setName name) where
  frame := by rw [h.frame]; rfl
  overflow := h.overflow
  pose := h.pose
  prior := h.prior
  nameFits := fun _ => by
    rw [State.setName_nameLen, BitVec.toNat_ofNat]
    exact (Nat.mod_le _ _).trans hn

theorem loadPrior (h : Worked (some .dynNormalize) s u) (l r : BitVec 16) :
    Worked (some .dynNormalize) s (u.loadPrior l r) where
  frame := by rw [h.frame]; rfl
  overflow := h.overflow
  pose := h.pose
  prior := fun _ => rfl
  nameFits := h.nameFits

theorem setPose (h : Worked o s u) (ho : o = some .dynUpdate ∨ o = some .dynReset) (x y th : Word) :
    Worked o s (u.setPose x y th) where
  frame := by rw [h.frame]; rfl
  overflow := h.overflow
  pose := fun _ => ho
  prior := h.prior
  nameFits := h.nameFits

theorem noteOverflow (h : Worked o s u) (ho : o = some .dynNormalize ∨ o = some .dynUpdate) (b : Bool) :
    Worked o s (u.noteOverflow b) where
  frame := by rw [h.frame]; rfl
  overflow := by
    obtain ⟨b', hovf, hmarks, -⟩ := h.overflow
    exact ⟨b' || b, by simp [hovf, Bool.or_assoc], by simp [hmarks, Bool.or_assoc], fun _ => ho⟩
  pose := h.pose
  prior := h.prior
  nameFits := h.nameFits

/-- Results are no part of what `Worked` restricts. -/
theorem setRes (h : Worked o s u) (a b c d : Word) :
    Worked o s { u with res0 := a, res1 := b, res2 := c, res3 := d } where
  frame := by rw [h.frame]
  overflow := h.overflow
  pose := h.pose
  prior := h.prior
  nameFits := h.nameFits

end Worked

/-- Everything a CMD write that selects operation `o`, or none of them, can have done. -/
inductive OpEnds (o : Option Instr) (s t : State) : Prop where
  | dropped (hb : s.busy = true) (ht : t = s.dropCommand)
  | launched (i : Instr) (seq : List Byte) (ho : o = some i) (hb : s.busy = false) (he : isEncoder i = true)
      (hseq : 1 ≤ seq.length ∧ seq.length ≤ 513) (ht : t = (s.acceptMark (opcode i)).launch i seq)
  | begun (ho : o = some .decDecode) (hb : s.busy = false) (ht : t = (s.acceptMark (opcode .decDecode)).beginDecode)
  | completed (u : State) (hb : s.busy = false) (hu : Worked o s u) (ht : t = u.complete)
  | failed (u : State) (code : ECode) (i0 i1 : Nat) (hb : s.busy = false) (hu : Worked o s u) (hc : code ≠ .none)
      (ht : t = u.raise code i0 i1)

/-- An accept of operation i, by what its body does from the marked state. -/
theorem opEnds_of_accept {i : Instr} {s t : State} {k : State → Result} (h : accept i s k = .next t)
    (hk : s.cfg.wf = true → s.busy = false → k (s.acceptMark (opcode i)) = .next t → OpEnds (some i) s t) :
    OpEnds (some i) s t := by
  obtain ⟨hc, ⟨hb, ht⟩ | ⟨hb, ht⟩⟩ := accept_next h
  · exact .dropped hb ht
  · exact hk hc hb ht

/-- An encoder whose sequence is known at once. -/
theorem opEnds_of_launch {i : Instr} {s t : State} {seq : State → List Byte}
    (h : accept i s (fun s => .next (s.launch i (seq s))) = .next t) (he : isEncoder i = true)
    (hseq : 1 ≤ (seq (s.acceptMark (opcode i))).length ∧ (seq (s.acceptMark (opcode i))).length ≤ 513) :
    OpEnds (some i) s t :=
  opEnds_of_accept h fun _ hb ht => by cases ht; exact .launched i _ rfl hb he hseq rfl

/-- An encoder that launches a sequence or raises an error. -/
theorem opEnds_of_launchOrRaise {i : Instr} {s : State} {r : Except OpError (List Byte)} (hb : s.busy = false)
    (he : isEncoder i = true) (hr : SeqOk r) :
    OpEnds (some i) s (launchOrRaise i (s.acceptMark (opcode i)) r) := by
  obtain ⟨seq, hok, ht⟩ | ⟨e, herr, ht⟩ := launchOrRaise_cases i (s.acceptMark (opcode i)) r
  · exact .launched i seq rfl hb he (hr.1 seq hok) ht
  · exact .failed _ _ _ _ hb (.mark _ _ _) (hr.2 e herr) ht

theorem execEncDisplayAscii_ends {s t : State} (h : execEncDisplayAscii s = .next t) :
    OpEnds (some .encDisplayAscii) s t :=
  opEnds_of_accept h fun _ hb ht => by
    obtain ⟨text, hread, ht⟩ := withBytes_next ht
    have hlen := abufBytes_length hread
    cases ht
    exact .launched _ _ rfl hb rfl (by simp [displaySeq]; omega) rfl

theorem execEncDefineSong_ends {s t : State} (h : execEncDefineSong s = .next t) :
    OpEnds (some .encDefineSong) s t :=
  opEnds_of_accept h fun _ hb ht => by
    split at ht
    · cases ht; exact .failed _ _ _ _ hb (.mark _ _ _) (by simp) rfl
    · split at ht
      · cases ht; exact .failed _ _ _ _ hb (.mark _ _ _) (by simp) rfl
      · obtain ⟨notes, hnotes, ht⟩ := withBytes_next ht
        obtain ⟨durs, -, ht⟩ := withBytes_next ht
        have hlen := abufBytes_length hnotes
        have hpairs := interleave_length_le notes durs
        cases ht
        exact .launched _ _ rfl hb rfl (by simp [songSeq]; omega) rfl

theorem execEncBaud_ends {s t : State} (h : execEncBaud s = .next t) : OpEnds (some .encBaud) s t :=
  opEnds_of_accept h fun _ hb ht => by
    cases ht
    exact opEnds_of_launchOrRaise hb rfl (seqOk_baudSeq _ _)

theorem execEncQueryList_ends {s t : State} (h : execEncQueryList s = .next t) : OpEnds (some .encQueryList) s t :=
  opEnds_of_accept h fun _ hb ht => by
    split at ht
    · cases ht; exact .failed _ _ _ _ hb (.mark _ _ _) (by simp) rfl
    · obtain ⟨bytes, -, ht⟩ := withBytes_next ht
      cases ht
      exact opEnds_of_launchOrRaise hb rfl (seqOk_queryListSeq _ _)

theorem execRegById_ends {s t : State} (h : execRegById s = .next t) : OpEnds (some .regById) s t :=
  opEnds_of_accept h fun hc hb ht => by
    cases ht
    unfold lookupById
    split
    · exact .failed _ _ _ _ hb (Worked.mark _ _ _).clearName (by simp) rfl
    · next d hd =>
      exact .completed _ hb (((Worked.mark _ _ _).setRes01 _ _).setName (sensorAt_name_length_le hc hd)) rfl

theorem execRegByName_ends {s t : State} (h : execRegByName s = .next t) : OpEnds (some .regByName) s t :=
  opEnds_of_accept h fun _ hb ht => by
    split at ht
    · cases ht; exact .failed _ _ _ _ hb (Worked.mark _ _ _).clearName (by simp) rfl
    · next hrange =>
      obtain ⟨name, hread, ht⟩ := withBytes_next ht
      have hlen : name.length ≤ 32 := by
        rw [abufBytes_length hread]
        simp only [Bool.or_eq_true, decide_eq_true_eq, not_or] at hrange
        omega
      cases ht
      unfold lookupByName
      split
      · exact .failed _ _ _ _ hb (Worked.mark _ _ _).clearName (by simp) rfl
      · exact .completed _ hb (((Worked.mark _ _ _).setRes01 _ _).setName hlen) rfl

theorem execRegBulkMember_ends {s t : State} (h : execRegBulkMember s = .next t) : OpEnds (some .regBulkMember) s t :=
  opEnds_of_accept h fun _ hb ht => by
    unfold lookupMember at ht
    split at ht
    · cases ht; exact .failed _ _ _ _ hb (.mark _ _ _) (by simp) rfl
    · split at ht
      · cases ht; exact .failed _ _ _ _ hb (.mark _ _ _) (by simp) rfl
      · split at ht
        · cases ht
        · cases ht; exact .completed _ hb ((Worked.mark _ _ _).setRes01 _ _) rfl

theorem execDynNormalize_ends {s t : State} (h : execDynNormalize s = .next t) : OpEnds (some .dynNormalize) s t := by
  have mark := Worked.mark (some .dynNormalize) s (opcode .dynNormalize)
  obtain ⟨hb, ht⟩ | ⟨hb, ht⟩ := execDynNormalize_next h
  · exact .dropped hb ht
  · unfold normalizeSample at ht
    split at ht
    · exact .completed _ hb (((mark.loadPrior _ _).noteOverflow (.inl rfl) _).setRes _ _ _ _) ht
    · exact .failed _ _ _ _ hb (mark.loadPrior _ _) (by simp) ht

theorem execDynUpdate_ends {s t : State} (h : execDynUpdate s = .next t) : OpEnds (some .dynUpdate) s t := by
  have mark := Worked.mark (some .dynUpdate) s (opcode .dynUpdate)
  obtain ⟨hb, ht⟩ | ⟨hb, ht⟩ := execDynUpdate_next h
  · exact .dropped hb ht
  · unfold updatePose at ht
    split at ht
    · exact .failed _ _ _ _ hb mark (by simp) ht
    · exact .completed _ hb (((mark.noteOverflow (.inr rfl) _).setPose (.inl rfl) _ _ _).setRes _ _ _ _) ht

/-- Everything an operation that answers a next state can have done. -/
theorem exec_ends {i : Instr} {s t : State} (h : exec i s = .next t) : OpEnds (some i) s t := by
  cases i with
  | encDrive => exact opEnds_of_launch (show execEncDrive s = _ from h) rfl (by simp [driveSeq, be16])
  | encDrivePwm => exact opEnds_of_launch (show execEncDrivePwm s = _ from h) rfl (by simp [drivePwmSeq, be16])
  | encMotorsPwm => exact opEnds_of_launch (show execEncMotorsPwm s = _ from h) rfl (by simp [motorsPwmSeq])
  | encDisplayAscii => exact execEncDisplayAscii_ends h
  | encDefineSong => exact execEncDefineSong_ends h
  | encLeds => exact opEnds_of_launch (show execEncLeds s = _ from h) rfl (by simp [ledsSeq])
  | encMotors => exact opEnds_of_launch (show execEncMotors s = _ from h) rfl (by simp [motorsSeq])
  | encButtons => exact opEnds_of_launch (show execEncButtons s = _ from h) rfl (by simp [buttonsSeq])
  | encBaud => exact execEncBaud_ends h
  | encQueryList => exact execEncQueryList_ends h
  | decDecode =>
    obtain ⟨hb, ht⟩ | ⟨hb, ht⟩ := execDecDecode_next h
    · exact .dropped hb ht
    · exact .begun rfl hb ht
  | regById => exact execRegById_ends h
  | regByName => exact execRegByName_ends h
  | regBulkMember => exact execRegBulkMember_ends h
  | dynNormalize => exact execDynNormalize_ends h
  | dynUpdate => exact execDynUpdate_ends h
  | dynReset =>
    obtain ⟨hb, ht⟩ | ⟨hb, ht⟩ := execDynReset_next h
    · exact .dropped hb ht
    · exact .completed _ hb ((Worked.mark _ _ _).setPose (.inr rfl) _ _ _) ht

/-- Everything a CMD write that answers a next state can have done. -/
theorem writeCmd_ends {w : Word} {s t : State} (h : writeCmd w s = .next t) : OpEnds (decodeWord w).toOption s t := by
  obtain ⟨i, hi, ht⟩ | ⟨hb, ht⟩ | ⟨hb, ht⟩ := writeCmd_next h
  · rw [hi]; exact exec_ends ht
  · exact .dropped hb ht
  · exact .failed _ _ _ _ hb (.mark _ _ _) (by simp) ht

end Sys2Proof.Machine
end

section
/-!
PROOFS. What the PYRB step and a step of the machine can do, and the one induction of the invariants of Safety: a predicate that
each of these forms keeps is kept by every step.
-/

namespace Sys2Proof.Machine

/-- Everything a PYRB step can have done: it held, handed a sequence over, took a byte, ended a parse, or failed. -/
inductive PyrbEnds (s t : State) : Prop where
  | held (ht : t = s)
  | handed (seq : List Byte) (hd : s.dstate = .idle)
      (ht : t = { s with txout := s.txout ++ seq, txpend := none, res0 := BitVec.ofNat 32 seq.length }.complete)
  | tookByte (hd : s.dstate ≠ .idle) (hd' : t.dstate ≠ .idle)
      (ht : t = { s with
        rxq := t.rxq, sum := t.sum, dstate := t.dstate, junk := t.junk, n := t.n, cnt := t.cnt, body := t.body })
  | parsed (u : State) (hd : s.dstate ≠ .idle) (hd' : u.dstate = .idle)
      (hu : u = { s with
        entry := u.entry, valid := u.valid, len := u.len, count := u.count, dstate := u.dstate
        res0 := u.res0, res1 := u.res1 })
      (ht : t = u.complete)
  | failed (u : State) (code : ECode) (i0 i1 : Nat) (hu : u = { s with rxq := u.rxq, entry := u.entry }) (hc : code ≠ .none)
      (ht : t = u.raise code i0 i1)

theorem handoffStep_ends {s : State} (hd : s.dstate = .idle) : PyrbEnds s (handoffStep s) := by
  obtain ⟨-, ht⟩ | ⟨seq, c, -, -, ht⟩ | ⟨seq, -, -, ht⟩ := handoffStep_cases s
  · exact .held ht
  · exact .failed s _ _ _ rfl (by simp) ht
  · exact .handed seq hd ht

/-- A byte step of the decoder, by what it does with its byte (42_stream_decoder.md R232 to R234). -/
theorem byteStep_ends {s : State} {k : State → Byte → State}
    (hk : ∀ b rest, PyrbEnds s (k { s with rxq := rest } b)) : PyrbEnds s (byteStep s k) := by
  obtain ⟨b, rest, -, ht⟩ | ⟨c, -, -, ht⟩ | ⟨-, -, ht⟩ := byteStep_cases s k
  · rw [ht]; exact hk b rest
  · exact .failed s _ _ _ rfl (by simp) ht
  · exact .held ht

theorem seekByte_ends {s : State} (hd : s.dstate = .seek) (b : Byte) (rest : List Byte) :
    PyrbEnds s (seekByte { s with rxq := rest } b) := by
  unfold seekByte
  split
  · exact .tookByte (by simp [hd]) (by simp) rfl
  · exact .tookByte (by simp [hd]) (by simp [hd]) rfl

theorem bodyByte_ends {s : State} (hd : s.dstate = .body) (b : Byte) (rest : List Byte) :
    PyrbEnds s (bodyByte { s with rxq := rest } b) :=
  .tookByte (by simp [hd]) (by simp only [bodyByte]; split <;> simp) rfl

/-- The end of a parse (42_stream_decoder.md R237 to R239). -/
theorem finishParse_ends {s : State} (hd : s.dstate ≠ .idle) (p : Vector Entry 127 × Verdict) :
    PyrbEnds s (finishParse s p) := by
  unfold finishParse
  split
  · exact .failed _ _ _ _ rfl (by simp) rfl
  · exact .failed _ _ _ _ rfl (by simp) rfl
  · exact .parsed _ hd rfl rfl rfl

theorem pyrbStep_ends (s : State) : PyrbEnds s (pyrbStep s) := by
  unfold pyrbStep
  split
  · next hd => exact handoffStep_ends hd
  · next hd => exact byteStep_ends (seekByte_ends hd)
  · next hd => exact byteStep_ends fun b rest => .tookByte (by simp [hd]) (by simp [lenByte]) rfl
  · next hd => exact byteStep_ends (bodyByte_ends hd)
  · next hd =>
    obtain ⟨-, ht⟩ | ⟨-, ht⟩ := validateStep_cases s
    · exact .failed _ _ _ _ rfl (by simp) ht
    · rw [ht]; exact finishParse_ends (by simp [hd]) _

/-- A PYRB step changes no register but STATUS, RES0, RES1, FRAME_INFO, PBUF and FBUF, and no state of the HOST
(20_memory.md R90). -/
theorem PyrbEnds.frame {s t : State} (h : PyrbEnds s t) :
    t = { s with
      done := t.done, err := t.err, ecode := t.ecode, cur := t.cur, res0 := t.res0, res1 := t.res1
      dstate := t.dstate, n := t.n, cnt := t.cnt, sum := t.sum, body := t.body, entry := t.entry
      valid := t.valid, len := t.len, count := t.count, junk := t.junk, txpend := t.txpend
      rxq := t.rxq, txout := t.txout } := by
  cases h with
  | held ht => rw [ht]
  | handed seq hd ht => rw [ht]; rfl
  | tookByte hd hd' ht => rw [ht]
  | parsed u hd hd' hu ht => rw [ht, hu]; rfl
  | failed u code i0 i1 hu hc ht => rw [ht, hu]; rfl

/-! ### A step of the machine -/

/-- Everything a step can have done: it moved the schedule, the HOST's record or the transport alone; a refused access; a register
written; a PYRB step; RST. -/
inductive StepKind (s t : State) : Prop where
  | quiet (ht : t = { s with rxq := t.rxq, terr := t.terr, todo := t.todo, reads := t.reads, turns := t.turns })
  | refused (h : refusesNext s = true)
      (ht : t = { s.refuseAccess with todo := t.todo, reads := t.reads, turns := t.turns })
  | wrote (r : Reg) (w : Word) (ts : List Turn) (as : List HostAction) (h : writesNext s r = some w)
      (ht : writeReg { s with turns := ts, todo := as } w r = .next t)
  | pyrb (ts : List Turn) (ht : PyrbEnds { s with turns := ts } t)
  | rst (ts : List Turn) (h : resetsNext s = true) (ht : t = rst { s with turns := ts })

theorem stepKind_of_hostStep {s t : State} {ts : List Turn} (hs : s.turns = .host :: ts)
    (h : hostStep { s with turns := ts } = .next t) : StepKind s t := by
  unfold hostStep at h
  split at h
  · cases h; exact .quiet rfl
  · next addr bytes as htodo =>
    have htodo : s.todo = .read addr bytes :: as := htodo
    obtain ⟨hw, ⟨ha, ht⟩ | ⟨ha, v, -, ht⟩⟩ := hostRead_next h
    · exact .refused (by simp [refusesNext, hs, htodo, hw, ha]) (by rw [ht]; rfl)
    · exact .quiet (by rw [ht]; rfl)
  · next addr bytes w as htodo =>
    have htodo : s.todo = .write addr bytes w :: as := htodo
    obtain ⟨hw, ⟨ha, ht⟩ | ⟨ha, ht⟩⟩ := hostWrite_next h
    · exact .refused (by simp [refusesNext, hs, htodo, hw, ha]) (by rw [ht]; rfl)
    · exact .wrote _ w ts as (by simp [writesNext, hs, htodo, hw, ha]) ht
  · cases h; exact .quiet rfl

theorem stepKind_of_step {s t : State} (h : step s = .next t) : StepKind s t := by
  obtain ⟨-, ht⟩ | ⟨turn, ts, hs, -, ht⟩ := step_next h
  · exact .quiet (by rw [ht])
  · cases turn with
    | host => exact stepKind_of_hostStep hs ht
    | pyrb => cases ht; exact .pyrb ts (pyrbStep_ends _)
    | arrive b => cases ht; exact .quiet rfl
    | error c => cases ht; exact .quiet rfl
    | rst => cases ht; exact .rst ts (by simp [resetsNext, hs]) rfl

/-- The operation accepted by a CMD write while BUSY = 0 (10_state.md R31). -/
theorem acceptsNext_of_writesNext {s : State} {w : Word} (h : writesNext s .cmd = some w) (hb : s.busy = false) :
    acceptsNext s = (decodeWord w).toOption := by
  unfold writesNext at h
  unfold acceptsNext
  split at h
  · next hs ht =>
    split at h
    · next hc =>
      cases h
      simp [hb, hc]
    · cases h
  · cases h

/-! ### The induction of the invariants -/

/-- Each thing a step can do keeps P. -/
structure KeptBySteps (P : State → Prop) : Prop where
  quiet : ∀ {s} rxq terr todo reads turns, P s →
    P { s with rxq := rxq, terr := terr, todo := todo, reads := reads, turns := turns }
  refuse : ∀ {s}, P s → P s.refuseAccess
  clear : ∀ {s} v, P s → P (s.clearSticky v)
  args : ∀ {s} a0 a1 a2, P s → P { s with arg0 := a0, arg1 := a1, arg2 := a2 }
  abuf : ∀ {s} (k : Fin 128) w, P s → P { s with abuf := Memory.writeWord s.abuf (abufOffset (4 * k.val)) w }
  command : ∀ {s t o}, P s → OpEnds o s t → P t
  pyrb : ∀ {s t}, P s → PyrbEnds s t → P t
  rst : ∀ {s}, P s → P (rst s)

namespace KeptBySteps

variable {P : State → Prop} {s t : State}

theorem writeReg (hP : KeptBySteps P) {w : Word} {r : Reg} (hs : P s) (h : writeReg s w r = .next t) : P t := by
  obtain ⟨-, ht⟩ | ⟨-, ht⟩ | ⟨-, ht⟩ | ⟨-, ht⟩ | ⟨-, ht⟩ | ⟨k, -, ht⟩ | ht := writeReg_next h
  · exact hP.command hs (writeCmd_ends ht)
  · exact ht ▸ hP.clear w hs
  · exact ht ▸ hP.args w s.arg1 s.arg2 hs
  · exact ht ▸ hP.args s.arg0 w s.arg2 hs
  · exact ht ▸ hP.args s.arg0 s.arg1 w hs
  · exact ht ▸ hP.abuf k w hs
  · exact ht ▸ hs

theorem step (hP : KeptBySteps P) (hs : P s) (h : step s = .next t) : P t := by
  cases stepKind_of_step h with
  | quiet ht => rw [ht]; exact hP.quiet _ _ _ _ _ hs
  | refused _ ht => rw [ht]; exact hP.quiet s.rxq s.terr _ _ _ (hP.refuse hs)
  | wrote r w ts as _ ht => exact hP.writeReg (hP.quiet s.rxq s.terr as s.reads ts hs) ht
  | pyrb ts ht => exact hP.pyrb (hP.quiet s.rxq s.terr s.todo s.reads ts hs) ht
  | rst ts _ ht => rw [ht]; exact hP.rst (hP.quiet s.rxq s.terr s.todo s.reads ts hs)

end KeptBySteps

end Sys2Proof.Machine
end

section
/-!
PROOFS. The invariants of Safety that belong to the whole state (10_state.md R56, R33 to R35, R45, R46, R54): each thing a step
can do keeps them.
-/

namespace Sys2Proof.Machine

variable {o : Option Instr} {s t u : State}

/-! ### The operation in flight (R56) -/

/-- R56 as three phases: nothing in flight, a decode, or a sequence pending. -/
inductive FlightPhase (s : State) : Prop where
  | idle (hcur : s.cur = none) (hd : s.dstate = .idle) (hx : s.txpend = none)
  | decoding (hcur : s.cur = some .decDecode) (hd : s.dstate ≠ .idle) (hx : s.txpend = none) (hv : s.valid = false)
  | sending (i : Instr) (he : isEncoder i = true) (hcur : s.cur = some i) (hd : s.dstate = .idle) (hx : s.txpend ≠ none)

theorem InFlightInv.phase (h : InFlightInv s) : FlightPhase s := by
  obtain ⟨hdec, hsend, hnone, hhid, -⟩ := h
  cases hcur : s.cur with
  | none =>
    obtain ⟨hd, hx⟩ := hnone.mp hcur
    exact .idle hcur hd hx
  | some i =>
    by_cases hi : i = .decDecode
    · subst hi
      have hd := hdec.mp hcur
      have hx : s.txpend = none := by simpa [encoderInFlight, hcur, isEncoder] using hsend
      exact .decoding hcur hd hx (hhid hd)
    · have hd : s.dstate = .idle := by simpa [hcur, hi] using hdec
      have hx : s.txpend ≠ none := by simpa [hcur, hd] using hnone
      have he : isEncoder i = true := by simpa [encoderInFlight, hcur] using hsend.mpr hx
      exact .sending i he hcur hd hx

/-- R56 (e) holds by the widths of COUNT and LEN. -/
theorem count_len_bounds (s : State) : s.count.toNat ≤ 127 ∧ s.len.toNat ≤ 255 := by
  have := s.count.isLt
  have := s.len.isLt
  omega

theorem FlightPhase.inv (h : FlightPhase s) : InFlightInv s := by
  cases h with
  | idle hcur hd hx =>
    exact ⟨by simp [hcur, hd], by simp [encoderInFlight, hcur, hx], by simp [hcur, hd, hx], by simp [hd], count_len_bounds s⟩
  | decoding hcur hd hx hv =>
    exact ⟨by simp [hcur, hd], by simp [encoderInFlight, hcur, hx, isEncoder], by simp [hcur, hd], fun _ => hv,
      count_len_bounds s⟩
  | sending i he hcur hd hx =>
    have hi : i ≠ .decDecode := by rintro rfl; cases he
    exact ⟨by simp [hcur, hd, hi], by simp [encoderInFlight, hcur, hx, he], by simp [hcur, hx], by simp [hd],
      count_len_bounds s⟩

/-- The phase is a matter of CUR, DSTATE, TXPEND and VALID. -/
theorem FlightPhase.congr (h : FlightPhase s) (hcur : t.cur = s.cur) (hd : t.dstate = s.dstate) (hx : t.txpend = s.txpend)
    (hv : t.valid = s.valid) : FlightPhase t := by
  cases h with
  | idle hcur' hd' hx' => exact .idle (hcur.trans hcur') (hd.trans hd') (hx.trans hx')
  | decoding hcur' hd' hx' hv' => exact .decoding (hcur.trans hcur') (hd ▸ hd') (hx.trans hx') (hv.trans hv')
  | sending i he hcur' hd' hx' => exact .sending i he (hcur.trans hcur') (hd.trans hd') (hx ▸ hx')

/-- With BUSY = 0 the phase is the idle one. -/
theorem FlightPhase.of_not_busy (h : FlightPhase s) (hb : s.busy = false) : s.dstate = .idle ∧ s.txpend = none := by
  rw [State.busy_eq_false] at hb
  cases h with
  | idle _ hd hx => exact ⟨hd, hx⟩
  | decoding hcur => simp [hb] at hcur
  | sending i _ hcur => simp [hb] at hcur

/-- `raise` leaves nothing in flight (60_exceptions.md R332). -/
theorem flightPhase_raise (u : State) (e : ECode) (i0 i1 : Nat) : FlightPhase (u.raise e i0 i1) := .idle rfl rfl rfl

theorem FlightPhase.of_opEnds (h : FlightPhase s) (ht : OpEnds o s t) : FlightPhase t := by
  cases ht with
  | dropped hb ht => subst ht; exact h.congr rfl rfl rfl rfl
  | launched i seq _ hb he hseq ht =>
    obtain ⟨hd, -⟩ := h.of_not_busy hb
    subst ht
    exact .sending i he rfl hd (by simp)
  | begun _ hb ht =>
    obtain ⟨-, hx⟩ := h.of_not_busy hb
    subst ht
    exact .decoding rfl (by simp) hx rfl
  | completed u hb hu ht =>
    obtain ⟨hd, hx⟩ := h.of_not_busy hb
    subst ht
    exact .idle rfl (hu.dstate_eq.trans hd) (hu.txpend_eq.trans hx)
  | failed u code i0 i1 hb hu hc ht => subst ht; exact flightPhase_raise u code i0 i1

/-- While the decoder runs, its operation is in flight and nothing is pending. -/
theorem FlightPhase.of_decoding (h : FlightPhase s) (hd : s.dstate ≠ .idle) :
    s.cur = some .decDecode ∧ s.txpend = none ∧ s.valid = false := by
  cases h with
  | idle _ hd' => exact absurd hd' hd
  | decoding hcur _ hx hv => exact ⟨hcur, hx, hv⟩
  | sending _ _ _ hd' => exact absurd hd' hd

theorem FlightPhase.of_pyrbEnds (h : FlightPhase s) (ht : PyrbEnds s t) : FlightPhase t := by
  cases ht with
  | held ht => exact ht ▸ h
  | handed seq hd ht => subst ht; exact .idle rfl hd rfl
  | tookByte hd hd' ht =>
    obtain ⟨hcur, hx, hv⟩ := h.of_decoding hd
    exact .decoding (by rw [ht]; exact hcur) hd' (by rw [ht]; exact hx) (by rw [ht]; exact hv)
  | parsed u hd hd' hu ht =>
    obtain ⟨-, hx, -⟩ := h.of_decoding hd
    subst ht
    exact .idle rfl hd' (by rw [hu]; exact hx)
  | failed u code i0 i1 hu hc ht => subst ht; exact flightPhase_raise u code i0 i1

theorem flightPhase_kept : KeptBySteps FlightPhase where
  quiet _ _ _ _ _ h := h.congr rfl rfl rfl rfl
  refuse h := h.congr rfl rfl rfl rfl
  clear _ h := h.congr rfl rfl rfl rfl
  args _ _ _ h := h.congr rfl rfl rfl rfl
  abuf _ _ h := h.congr rfl rfl rfl rfl
  command := FlightPhase.of_opEnds
  pyrb := FlightPhase.of_pyrbEnds
  rst _ := .idle rfl rfl rfl

/-- Settles O57: the invariants of R56 are three phases, and every step leads from one of them to one of them. -/
theorem stepKeepsInFlightInvariants : Obligations.StepKeepsInFlightInvariants :=
  fun _ _ hs h => (flightPhase_kept.step hs.phase h).inv

/-! ### STATUS (R33 to R35) -/

/-- Every set sticky flag has its fault mark (R35). -/
structure Marked (s : State) : Prop where
  ovr : s.ovr = true → s.marks.ovr = true
  accerr : s.accerr = true → s.marks.accerr = true
  ovf : s.ovf = true → s.marks.ovf = true

theorem StatusInv.marked (h : StatusInv s) : Marked s := ⟨h.ovrMarked, h.accerrMarked, h.ovfMarked⟩

/-- A pose result that does not fit is marked with its flag (43_pose_integrator.md R295). -/
theorem Marked.worked (h : Marked s) (hu : Worked o s u) : Marked u := by
  obtain ⟨b, hovf, hmarks, -⟩ := hu.overflow
  refine ⟨?_, ?_, ?_⟩
  · rw [hu.ovr_eq, hmarks]; exact h.ovr
  · rw [hu.accerr_eq, hmarks]; exact h.accerr
  · rw [hovf, hmarks]
    simp only [Bool.or_eq_true]
    exact Or.imp_left h.ovf

/-- A completed operation has DONE = 1 and no error (60_exceptions.md R331). -/
theorem statusInv_complete (h : Marked u) : StatusInv u.complete where
  coded := by simp
  failedIsDone := by simp
  inFlightIsFresh := by simp
  inFlightOp := by simp
  ovrMarked := h.ovr
  accerrMarked := h.accerr
  ovfMarked := h.ovf

/-- A failed operation has DONE = ERR = 1 and its code (R332). -/
theorem statusInv_raise (h : Marked u) {e : ECode} (he : e ≠ .none) (i0 i1 : Nat) : StatusInv (u.raise e i0 i1) where
  coded := by simp [he]
  failedIsDone := by simp
  inFlightIsFresh := by simp
  inFlightOp := by simp
  ovrMarked := h.ovr
  accerrMarked := h.accerr
  ovfMarked := h.ovf

/-- An operation just started shows its own OP, and neither DONE nor an error (R34). -/
theorem statusInv_started (h : Marked t) (hdone : t.done = false) (herr : t.err = false) (hcode : t.ecode = .none)
    (hop : ∀ i, t.cur = some i → t.op = opcode i) : StatusInv t where
  coded := by simp [herr, hcode]
  failedIsDone := by simp [herr]
  inFlightIsFresh := fun _ => ⟨hdone, herr⟩
  inFlightOp := hop
  ovrMarked := h.ovr
  accerrMarked := h.accerr
  ovfMarked := h.ovf

/-- What the sticky flags do is no matter of the rest of STATUS. -/
theorem StatusInv.congr (h : StatusInv s) (hm : Marked t) (hcode : t.ecode = s.ecode) (herr : t.err = s.err)
    (hdone : t.done = s.done) (hcur : t.cur = s.cur) (hop : t.op = s.op) : StatusInv t where
  coded := by rw [herr, hcode]; exact h.coded
  failedIsDone := by rw [herr, hdone]; exact h.failedIsDone
  inFlightIsFresh := by unfold State.busy; rw [hcur, hdone, herr]; exact h.inFlightIsFresh
  inFlightOp := by rw [hcur, hop]; exact h.inFlightOp
  ovrMarked := hm.ovr
  accerrMarked := hm.accerr
  ovfMarked := hm.ovf

theorem Marked.dropCommand (h : Marked s) : Marked s.dropCommand := ⟨fun _ => rfl, h.accerr, h.ovf⟩

theorem Marked.refuseAccess (h : Marked s) : Marked s.refuseAccess := ⟨h.ovr, fun _ => rfl, h.ovf⟩

theorem Marked.clearSticky (h : Marked s) (v : Word) : Marked (s.clearSticky v) where
  ovr hf := h.ovr (Bool.and_eq_true_iff.mp hf).1
  accerr hf := h.accerr (Bool.and_eq_true_iff.mp hf).1
  ovf hf := h.ovf (Bool.and_eq_true_iff.mp hf).1

theorem StatusInv.of_opEnds (h : StatusInv s) (ht : OpEnds o s t) : StatusInv t := by
  have hm := h.marked
  cases ht with
  | dropped hb ht => subst ht; exact h.congr hm.dropCommand rfl rfl rfl rfl rfl
  | launched i seq _ hb he hseq ht =>
    subst ht
    exact statusInv_started ⟨hm.ovr, hm.accerr, hm.ovf⟩ rfl rfl rfl fun j hj => by cases hj; rfl
  | begun _ hb ht =>
    subst ht
    exact statusInv_started ⟨hm.ovr, hm.accerr, hm.ovf⟩ rfl rfl rfl fun j hj => by cases hj; rfl
  | completed u hb hu ht => subst ht; exact statusInv_complete (hm.worked hu)
  | failed u code i0 i1 hb hu hc ht => subst ht; exact statusInv_raise (hm.worked hu) hc i0 i1

theorem StatusInv.of_pyrbEnds (h : StatusInv s) (ht : PyrbEnds s t) : StatusInv t := by
  have hm := h.marked
  cases ht with
  | held ht => exact ht ▸ h
  | handed seq hd ht => subst ht; exact statusInv_complete ⟨hm.ovr, hm.accerr, hm.ovf⟩
  | tookByte hd hd' ht => rw [ht]; exact h.congr ⟨hm.ovr, hm.accerr, hm.ovf⟩ rfl rfl rfl rfl rfl
  | parsed u hd hd' hu ht =>
    subst ht
    exact statusInv_complete (by rw [hu]; exact ⟨hm.ovr, hm.accerr, hm.ovf⟩)
  | failed u code i0 i1 hu hc ht =>
    subst ht
    exact statusInv_raise (by rw [hu]; exact ⟨hm.ovr, hm.accerr, hm.ovf⟩) hc i0 i1

theorem statusInv_kept : KeptBySteps StatusInv where
  quiet _ _ _ _ _ h := h.congr ⟨h.ovrMarked, h.accerrMarked, h.ovfMarked⟩ rfl rfl rfl rfl rfl
  refuse h := h.congr h.marked.refuseAccess rfl rfl rfl rfl rfl
  clear v h := h.congr (h.marked.clearSticky v) rfl rfl rfl rfl rfl
  args _ _ _ h := h.congr ⟨h.ovrMarked, h.accerrMarked, h.ovfMarked⟩ rfl rfl rfl rfl rfl
  abuf _ _ h := h.congr ⟨h.ovrMarked, h.accerrMarked, h.ovfMarked⟩ rfl rfl rfl rfl rfl
  command := StatusInv.of_opEnds
  pyrb := StatusInv.of_pyrbEnds
  rst _ := statusInv_started ⟨nofun, nofun, nofun⟩ rfl rfl rfl nofun

/-- Settles O59: each thing a step can do keeps STATUS consistent, and sets a sticky flag only with its mark. -/
theorem stepKeepsStatusConsistent : Obligations.StepKeepsStatusConsistent :=
  fun _ _ hs h => statusInv_kept.step hs h

/-! ### Storage (R45, R46, R54) -/

theorem StorageInv.of_opEnds (h : StorageInv s) (ht : OpEnds o s t) : StorageInv t := by
  cases ht with
  | dropped hb ht => subst ht; exact ⟨h.abufForm, h.nameFits, h.pendingFits⟩
  | launched i seq _ hb he hseq ht => subst ht; exact ⟨h.abufForm, h.nameFits, fun _ hx => by cases hx; exact hseq⟩
  | begun _ hb ht => subst ht; exact ⟨h.abufForm, h.nameFits, h.pendingFits⟩
  | completed u hb hu ht =>
    subst ht
    refine ⟨?_, hu.nameFits h.nameFits, ?_⟩
    · rw [State.complete_abuf, hu.abuf_eq]; exact h.abufForm
    · rw [State.complete_txpend, hu.txpend_eq]; exact h.pendingFits
  | failed u code i0 i1 hb hu hc ht =>
    subst ht
    refine ⟨?_, hu.nameFits h.nameFits, nofun⟩
    rw [State.raise_abuf, hu.abuf_eq]; exact h.abufForm

theorem StorageInv.of_pyrbEnds (h : StorageInv s) (ht : PyrbEnds s t) : StorageInv t := by
  cases ht with
  | held ht => exact ht ▸ h
  | handed seq hd ht => subst ht; exact ⟨h.abufForm, h.nameFits, nofun⟩
  | tookByte hd hd' ht => rw [ht]; exact ⟨h.abufForm, h.nameFits, h.pendingFits⟩
  | parsed u hd hd' hu ht => subst ht; rw [hu]; exact ⟨h.abufForm, h.nameFits, h.pendingFits⟩
  | failed u code i0 i1 hu hc ht => subst ht; rw [hu]; exact ⟨h.abufForm, h.nameFits, nofun⟩

theorem storageInv_kept : KeptBySteps StorageInv where
  quiet _ _ _ _ _ h := ⟨h.abufForm, h.nameFits, h.pendingFits⟩
  refuse h := ⟨h.abufForm, h.nameFits, h.pendingFits⟩
  clear _ h := ⟨h.abufForm, h.nameFits, h.pendingFits⟩
  args _ _ _ h := ⟨h.abufForm, h.nameFits, h.pendingFits⟩
  abuf k w h :=
    ⟨Memory.wf_writeWord _ _ w h.abufForm (by unfold abufOffset; omega) (by unfold abufOffset; omega),
      h.nameFits, h.pendingFits⟩
  command := StorageInv.of_opEnds
  pyrb := StorageInv.of_pyrbEnds
  rst _ := ⟨rfl, by simp [rst, State.reset], nofun⟩

/-- Settles O60: each thing a step can do keeps the form of ABUF, NAME and TXPEND. -/
theorem stepKeepsStorageForm : Obligations.StepKeepsStorageForm :=
  fun _ _ hs h => storageInv_kept.step hs h

end Sys2Proof.Machine
end

section
/-!
PROOFS. Which step changes what: the sticky flags and their marks (10_state.md R35), and the registers the host, the pose
integrator and RST alone write (R38, R40, R41, R46, R52).
-/

namespace Sys2Proof.Machine

/-! ### Sticky flags -/

/-- What a step may do to a sticky flag, f before and f' after, and to its mark, m before and m' after: keep both, set both by the
flag's own event, or clear the flag alone. -/
inductive FlagChange (cleared set : Prop) (f f' m m' : Bool) : Prop where
  | kept (hf : f' = f) (hm : m' = m)
  | set (hf : f' = true) (hm : m' = true) (h : set)
  | cleared (hf : f' = false) (hm : m' = m) (h : cleared)

namespace FlagChange

variable {cleared set : Prop} {f f' m m' : Bool}

/-- The rules of R35 for one flag: what clears it, what sets it, and how its mark goes with it. -/
theorem rules (h : FlagChange cleared set f f' m m') :
    (f = true → f' = false → cleared) ∧ (f = false → f' = true → set) ∧ (m = true → m' = true) ∧
      (f = false → f' = true → m' = true) ∧ (m = false → m' = true → f' = true) := by
  cases h with
  | kept hf hm => subst hf hm; simp +contextual
  | set hf hm h => subst hf hm; simp [h]
  | cleared hf hm h => subst hf hm; simp +contextual [h]

/-- A W1C bit clears the flag if it is 1 (R32). -/
theorem writeOneToClear {bit : Bool} (h : bit = true → cleared) : FlagChange cleared set f (f && !bit) m m := by
  cases hb : bit with
  | false => exact .kept (by simp) rfl
  | true => exact .cleared (by simp) rfl (h hb)

/-- An event that may or may not have happened sets the flag and the mark, or keeps both (43_pose_integrator.md R295). -/
theorem orEvent {b : Bool} (h : b = true → set) : FlagChange cleared set f (f || b) m (m || b) := by
  cases hb : b with
  | false => exact .kept (by simp) (by simp)
  | true => exact .set (by simp) (by simp) (h hb)

end FlagChange

/-- The next step clears the sticky flag of STATUS bit k: RST, or a W1C write of that bit (R35). -/
def ClearsNext (s : State) (k : Nat) : Prop :=
  resetsNext s = true ∨ ∃ v, writesNext s .status = some v ∧ v.getLsbD k = true

/-- The three sticky flags from s to t, each with the events that clear and set it in a step from s. -/
structure FlagChanges (s t : State) : Prop where
  ovr : FlagChange (ClearsNext s 8) (s.busy = true ∧ ∃ v, writesNext s .cmd = some v) s.ovr t.ovr s.marks.ovr t.marks.ovr
  accerr : FlagChange (ClearsNext s 9) (refusesNext s = true) s.accerr t.accerr s.marks.accerr t.marks.accerr
  ovf : FlagChange (ClearsNext s 10) (acceptsNext s = some .dynNormalize ∨ acceptsNext s = some .dynUpdate)
    s.ovf t.ovf s.marks.ovf t.marks.ovf

/-- A step that leaves the flags and the marks alone. -/
theorem FlagChanges.kept {s t : State} (hovr : t.ovr = s.ovr) (haccerr : t.accerr = s.accerr) (hovf : t.ovf = s.ovf)
    (hm : t.marks = s.marks) : FlagChanges s t :=
  ⟨.kept hovr (by rw [hm]), .kept haccerr (by rw [hm]), .kept hovf (by rw [hm])⟩

/-- A CMD write that ends at its accept can set OVF alone, in a DYN operation. -/
theorem Worked.flagChanges {s s' u t : State} {o : Option Instr} (hu : Worked o s' u) (ho : acceptsNext s = o)
    (hs : s'.ovr = s.ovr ∧ s'.accerr = s.accerr ∧ s'.ovf = s.ovf ∧ s'.marks = s.marks)
    (ht : t.ovr = u.ovr ∧ t.accerr = u.accerr ∧ t.ovf = u.ovf ∧ t.marks = u.marks) : FlagChanges s t := by
  obtain ⟨hsovr, hsaccerr, hsovf, hsm⟩ := hs
  obtain ⟨htovr, htaccerr, htovf, htm⟩ := ht
  obtain ⟨b, hovf, hmarks, hb⟩ := hu.overflow
  refine ⟨.kept (by rw [htovr, hu.ovr_eq, hsovr]) (by rw [htm, hmarks, hsm]),
    .kept (by rw [htaccerr, hu.accerr_eq, hsaccerr]) (by rw [htm, hmarks, hsm]), ?_⟩
  rw [htovf, htm, hmarks, hovf, hsovf, hsm]
  exact .orEvent (ho ▸ hb)

theorem flagChanges_of_writeReg {s t : State} {ts : List Turn} {as : List HostAction} {r : Reg} {w : Word}
    (hw : writesNext s r = some w) (h : writeReg { s with turns := ts, todo := as } w r = .next t) : FlagChanges s t := by
  obtain ⟨rfl, ht⟩ | ⟨rfl, rfl⟩ | ⟨-, rfl⟩ | ⟨-, rfl⟩ | ⟨-, rfl⟩ | ⟨_, -, rfl⟩ | rfl := writeReg_next h
  · cases writeCmd_ends ht with
    | dropped hb ht => subst ht; exact ⟨.set rfl rfl ⟨hb, w, hw⟩, .kept rfl rfl, .kept rfl rfl⟩
    | launched i seq _ hb he hseq ht => subst ht; exact .kept rfl rfl rfl rfl
    | begun _ hb ht => subst ht; exact .kept rfl rfl rfl rfl
    | completed u hb hu ht =>
      subst ht
      exact hu.flagChanges (acceptsNext_of_writesNext hw hb) ⟨rfl, rfl, rfl, rfl⟩ ⟨rfl, rfl, rfl, rfl⟩
    | failed u code i0 i1 hb hu hc ht =>
      subst ht
      exact hu.flagChanges (acceptsNext_of_writesNext hw hb) ⟨rfl, rfl, rfl, rfl⟩ ⟨rfl, rfl, rfl, rfl⟩
  · exact ⟨.writeOneToClear fun hb => .inr ⟨w, hw, hb⟩, .writeOneToClear fun hb => .inr ⟨w, hw, hb⟩,
      .writeOneToClear fun hb => .inr ⟨w, hw, hb⟩⟩
  all_goals exact .kept rfl rfl rfl rfl

theorem flagChanges_of_step {s t : State} (h : step s = .next t) : FlagChanges s t := by
  cases stepKind_of_step h with
  | quiet ht => rw [ht]; exact .kept rfl rfl rfl rfl
  | refused hr ht => rw [ht]; exact ⟨.kept rfl rfl, .set rfl rfl hr, .kept rfl rfl⟩
  | wrote r w ts as hw ht => exact flagChanges_of_writeReg hw ht
  | pyrb ts ht => rw [ht.frame]; exact .kept rfl rfl rfl rfl
  | rst ts hr ht =>
    rw [ht]
    exact ⟨.cleared rfl rfl (.inl hr), .cleared rfl rfl (.inl hr), .cleared rfl rfl (.inl hr)⟩

/-- Settles O47: every step keeps a flag with its mark, sets both by the flag's event, or clears the flag alone. -/
theorem stickyFlagsChangeOnlyByTheirEvents : Obligations.StickyFlagsChangeOnlyByTheirEvents := by
  intro s t h
  have hflags := flagChanges_of_step h
  obtain ⟨ovrClears, ovrSets, ovrMark, ovrMarked, ovrMarks⟩ := hflags.ovr.rules
  obtain ⟨accerrClears, accerrSets, accerrMark, accerrMarked, accerrMarks⟩ := hflags.accerr.rules
  obtain ⟨ovfClears, ovfSets, ovfMark, ovfMarked, ovfMarks⟩ := hflags.ovf.rules
  exact ⟨ovrClears, accerrClears, ovfClears, ovrSets, accerrSets, ovfSets, ⟨ovrMark, accerrMark, ovfMark⟩,
    ovrMarked, ovrMarks, accerrMarked, accerrMarks, ovfMarked, ovfMarks⟩

/-! ### Registers and their writers -/

/-- The pose (R40, R41). -/
def State.pose (s : State) : Word × Word × Word := (s.poseX, s.poseY, s.poseTh)

/-- The prior sample (R52). -/
def State.prior (s : State) : BitVec 16 × BitVec 16 × Bool := (s.priorL, s.priorR, s.priorValid)

/-- ARG0 to ARG2 and ABUF are as they were. -/
structure OperandsKept (s t : State) : Prop where
  arg0 : t.arg0 = s.arg0
  arg1 : t.arg1 = s.arg1
  arg2 : t.arg2 = s.arg2
  abuf : t.abuf = s.abuf

/-- No operation writes its operands (20_memory.md R89). -/
theorem OpEnds.operandsKept {o : Option Instr} {s t : State} (h : OpEnds o s t) : OperandsKept s t := by
  cases h with
  | dropped hb ht => subst ht; exact ⟨rfl, rfl, rfl, rfl⟩
  | launched i seq _ hb he hseq ht => subst ht; exact ⟨rfl, rfl, rfl, rfl⟩
  | begun _ hb ht => subst ht; exact ⟨rfl, rfl, rfl, rfl⟩
  | completed u hb hu ht => subst ht; exact ⟨hu.arg0_eq, hu.arg1_eq, hu.arg2_eq, hu.abuf_eq⟩
  | failed u code i0 i1 hb hu hc ht => subst ht; exact ⟨hu.arg0_eq, hu.arg1_eq, hu.arg2_eq, hu.abuf_eq⟩

/-- The pose and the prior sample are kept, or changed by the operation that writes them, accepted. -/
theorem OpEnds.pose_prior {o : Option Instr} {s t : State} (h : OpEnds o s t) :
    (t.pose ≠ s.pose → s.busy = false ∧ (o = some .dynUpdate ∨ o = some .dynReset)) ∧
      (t.prior ≠ s.prior → s.busy = false ∧ o = some .dynNormalize) := by
  cases h with
  | dropped hb ht => subst ht; exact ⟨absurd rfl, absurd rfl⟩
  | launched i seq _ hb he hseq ht => subst ht; exact ⟨absurd rfl, absurd rfl⟩
  | begun _ hb ht => subst ht; exact ⟨absurd rfl, absurd rfl⟩
  | completed u hb hu ht => subst ht; exact ⟨fun hp => ⟨hb, hu.pose hp⟩, fun hp => ⟨hb, hu.prior hp⟩⟩
  | failed u code i0 i1 hb hu hc ht => subst ht; exact ⟨fun hp => ⟨hb, hu.pose hp⟩, fun hp => ⟨hb, hu.prior hp⟩⟩

/-- Without RST, a step that is no accepted host write keeps the operands, the pose and the prior sample. -/
theorem registersKept_or_wrote {s t : State} (h : step s = .next t) (hr : resetsNext s = false) :
    (OperandsKept s t ∧ t.pose = s.pose ∧ t.prior = s.prior) ∨
      ∃ r w ts as, writesNext s r = some w ∧ writeReg { s with turns := ts, todo := as } w r = .next t := by
  cases stepKind_of_step h with
  | quiet ht => rw [ht]; exact .inl ⟨⟨rfl, rfl, rfl, rfl⟩, rfl, rfl⟩
  | refused _ ht => rw [ht]; exact .inl ⟨⟨rfl, rfl, rfl, rfl⟩, rfl, rfl⟩
  | wrote r w ts as hw ht => exact .inr ⟨r, w, ts, as, hw, ht⟩
  | pyrb ts ht => rw [ht.frame]; exact .inl ⟨⟨rfl, rfl, rfl, rfl⟩, rfl, rfl⟩
  | rst ts hr' _ => rw [hr] at hr'; cases hr'

/-- Settles O48: without RST only an accepted host write changes one of these registers; each register write stores its own
register, and a CMD write changes the pose and the prior sample by the operations of R52 alone. -/
theorem registersChangeOnlyByTheirWriters : Obligations.RegistersChangeOnlyByTheirWriters := by
  intro s t h hr
  obtain ⟨⟨hk0, hk1, hk2, hkb⟩, hpose, hprior⟩ | ⟨r, w, ts, as, hw, ht⟩ := registersKept_or_wrote h hr
  · exact ⟨absurd hk0, absurd hk1, absurd hk2, absurd hpose, absurd hprior, absurd hkb⟩
  obtain ⟨rfl, ht⟩ | ⟨-, rfl⟩ | ⟨rfl, rfl⟩ | ⟨rfl, rfl⟩ | ⟨rfl, rfl⟩ | ⟨k, rfl, rfl⟩ | rfl := writeReg_next ht
  · have hends := writeCmd_ends ht
    obtain ⟨hk0, hk1, hk2, hkb⟩ := hends.operandsKept
    obtain ⟨hpose, hprior⟩ := hends.pose_prior
    refine ⟨absurd hk0, absurd hk1, absurd hk2, fun hp => ?_, fun hp => ?_, absurd hkb⟩
    · obtain ⟨hb, ho⟩ := hpose hp
      rwa [acceptsNext_of_writesNext hw hb]
    · obtain ⟨hb, ho⟩ := hprior hp
      rwa [acceptsNext_of_writesNext hw hb]
  · exact ⟨absurd rfl, absurd rfl, absurd rfl, absurd rfl, absurd rfl, absurd rfl⟩
  · exact ⟨fun _ => hw, absurd rfl, absurd rfl, absurd rfl, absurd rfl, absurd rfl⟩
  · exact ⟨absurd rfl, fun _ => hw, absurd rfl, absurd rfl, absurd rfl, absurd rfl⟩
  · exact ⟨absurd rfl, absurd rfl, fun _ => hw, absurd rfl, absurd rfl, absurd rfl⟩
  · exact ⟨absurd rfl, absurd rfl, absurd rfl, absurd rfl, absurd rfl, fun _ => ⟨k, w, hw⟩⟩
  · exact ⟨absurd rfl, absurd rfl, absurd rfl, absurd rfl, absurd rfl, absurd rfl⟩

end Sys2Proof.Machine
end

section
/-!
PROOFS. Reads of ABUF by an operation (10_state.md R46): a range read gives its bytes or stops at the first unwritten one, and
that is the one way an operation stops.
-/

namespace Sys2Proof.Machine

/-- A range read that does not give its bytes stops at an unwritten byte of the range. -/
theorem Memory.readBytes_total (m : List Host.Cell) (a count : Nat) :
    (∃ bytes, readBytes m a count = .ok bytes) ∨
      ∃ off, a ≤ off ∧ off < a + count ∧ read m off = none ∧ readBytes m a count = .error (.abufUnwritten off) := by
  induction count generalizing a with
  | zero => exact .inl ⟨[], rfl⟩
  | succ count ih =>
    cases hr : read m a with
    | none => exact .inr ⟨a, le_refl a, by omega, hr, by simp [readBytes, hr]⟩
    | some b =>
      obtain ⟨bytes, hb⟩ | ⟨off, hlo, hhi, hoff, hb⟩ := ih (a + 1)
      · exact .inl ⟨b :: bytes, by simp [readBytes, hr, hb]⟩
      · exact .inr ⟨off, by omega, by omega, hoff, by simp [readBytes, hr, hb]⟩

/-- A range read past an unwritten byte names the first one (log entry 8). -/
theorem Memory.readBytes_first_unwritten {m : List Host.Cell} {a j count : Nat} (hj : j < count)
    (hbefore : ∀ i, i < j → read m (a + i) ≠ none) (hat : read m (a + j) = none) :
    readBytes m a count = .error (.abufUnwritten (a + j)) := by
  induction j generalizing a count with
  | zero =>
    obtain ⟨count, rfl⟩ := Nat.exists_eq_succ_of_ne_zero hj.ne'
    rw [Nat.add_zero] at hat ⊢
    simp [readBytes, hat]
  | succ j ih =>
    obtain ⟨count, rfl⟩ := Nat.exists_eq_succ_of_ne_zero (Nat.ne_zero_of_lt hj)
    obtain ⟨b, hb⟩ := Option.ne_none_iff_exists'.mp (hbefore 0 (by omega))
    have hnext : ∀ i, a + 1 + i = a + (i + 1) := by omega
    have hrest : readBytes m (a + 1) count = .error (.abufUnwritten (a + 1 + j)) :=
      ih (by omega) (fun i hi => hnext i ▸ hbefore (i + 1) (by omega)) (hnext j ▸ hat)
    rw [Nat.add_zero] at hb
    simp [readBytes, hb, hrest, hnext]

/-! ### Every operation runs or names an unwritten byte -/

/-- The outcome is a next state, or the fault of an unwritten byte of ABUF. -/
def RunsOrFaults (m : List Host.Cell) (r : Result) : Prop :=
  (∃ t, r = .next t) ∨
    ∃ off, 0x100 ≤ off ∧ off < 0x300 ∧ Memory.read m off = none ∧ r = .fault (.abufUnwritten off)

theorem runsOrFaults_next (m : List Host.Cell) (t : State) : RunsOrFaults m (.next t) := .inl ⟨t, rfl⟩

theorem runsOrFaults_withBytes {s : State} {start len : Nat} {k : List Byte → Result} (hfit : start + len ≤ 512)
    (hk : ∀ bytes, RunsOrFaults s.abuf (k bytes)) : RunsOrFaults s.abuf (withBytes (abufBytes s start len) k) := by
  obtain ⟨bytes, hb⟩ | ⟨off, hlo, hhi, hoff, hb⟩ := Memory.readBytes_total s.abuf (abufOffset start) len
  · simpa only [abufBytes, hb, withBytes] using hk bytes
  · unfold abufOffset at hlo hhi
    exact .inr ⟨off, by omega, by omega, hoff, by simp only [abufBytes, hb, withBytes]⟩

theorem runsOrFaults_accept {i : Instr} {s : State} {k : State → Result} (hc : s.cfg.wf = true)
    (hk : RunsOrFaults s.abuf (k (s.acceptMark (opcode i)))) : RunsOrFaults s.abuf (accept i s k) := by
  cases hb : s.busy with
  | true => exact .inl ⟨s.dropCommand, acceptOp_busy hc hb⟩
  | false => rwa [accept_idle hc hb]

/-- An operation that always goes on to a next state. -/
theorem runsOrFaults_acceptNext {i : Instr} {s : State} {k : State → State} (hc : s.cfg.wf = true) :
    RunsOrFaults s.abuf (accept i s fun s => .next (k s)) :=
  runsOrFaults_accept hc (runsOrFaults_next _ _)

/-- A member of a bulk descriptor has a scalar descriptor (40_registry.md R161). -/
theorem sensorAt_member_ne_none {c : Config} {b p : Nat} {bd : BulkDesc} {id : Byte} (hc : c.wf = true)
    (hbd : bulkAt c b = some bd) (hid : bd.members[p]? = some id) : sensorAt c id ≠ none := by
  have hbulks : c.bulksOk = true := by simp only [Config.wf, Bool.and_eq_true] at hc; tauto
  have hmembers := List.all_eq_true.mp hbulks bd (List.mem_of_getElem? hbd)
  simp only [Bool.and_eq_true] at hmembers
  obtain ⟨-, hall⟩ := hmembers
  exact Option.isSome_iff_ne_none.mp (List.all_eq_true.mp hall id (List.mem_of_getElem? hid))

theorem lookupMember_next {s : State} (hc : s.cfg.wf = true) (b p : Nat) : ∃ t, lookupMember s b p = .next t := by
  unfold lookupMember
  split
  · exact ⟨_, rfl⟩
  · next bd hbd =>
    split
    · exact ⟨_, rfl⟩
    · next id hid =>
      split
      · next hnone => exact absurd hnone (sensorAt_member_ne_none hc hbd hid)
      · exact ⟨_, rfl⟩

theorem execEncDisplayAscii_runs {s : State} (hc : s.cfg.wf = true) : RunsOrFaults s.abuf (execEncDisplayAscii s) :=
  runsOrFaults_accept hc (runsOrFaults_withBytes (by omega) fun _ => runsOrFaults_next _ _)

theorem execEncDefineSong_runs {s : State} (hc : s.cfg.wf = true) : RunsOrFaults s.abuf (execEncDefineSong s) := by
  refine runsOrFaults_accept hc ?_
  split
  · exact runsOrFaults_next _ _
  · split
    · exact runsOrFaults_next _ _
    · exact runsOrFaults_withBytes (by omega) fun _ => runsOrFaults_withBytes (by omega) fun _ => runsOrFaults_next _ _

theorem execEncQueryList_runs {s : State} (hc : s.cfg.wf = true) : RunsOrFaults s.abuf (execEncQueryList s) := by
  refine runsOrFaults_accept hc ?_
  split
  · exact runsOrFaults_next _ _
  · exact runsOrFaults_withBytes (by omega) fun _ => runsOrFaults_next _ _

theorem execRegByName_runs {s : State} (hc : s.cfg.wf = true) : RunsOrFaults s.abuf (execRegByName s) := by
  refine runsOrFaults_accept hc ?_
  split
  · exact runsOrFaults_next _ _
  · next hrange =>
    simp only [Bool.or_eq_true, decide_eq_true_eq, not_or] at hrange
    exact runsOrFaults_withBytes (by omega) fun _ => runsOrFaults_next _ _

theorem execRegBulkMember_runs {s : State} (hc : s.cfg.wf = true) : RunsOrFaults s.abuf (execRegBulkMember s) :=
  runsOrFaults_accept hc (.inl (lookupMember_next (s := s.acceptMark (opcode .regBulkMember)) hc _ _))

/-- Settles O6: four operations read ABUF, each inside it, and a member of a legal bulk descriptor has its descriptor. -/
theorem everyOperationRuns : Obligations.EveryOperationRuns := by
  intro i s hc
  change RunsOrFaults s.abuf (exec i s)
  unfold exec
  cases i with
  | encDisplayAscii => exact execEncDisplayAscii_runs hc
  | encDefineSong => exact execEncDefineSong_runs hc
  | encQueryList => exact execEncQueryList_runs hc
  | regByName => exact execRegByName_runs hc
  | regBulkMember => exact execRegBulkMember_runs hc
  | encDrive | encDrivePwm | encMotorsPwm | encLeds | encMotors | encButtons | encBaud | decDecode | regById | dynNormalize
  | dynUpdate | dynReset => exact runsOrFaults_acceptNext hc

/-! ### Which byte the fault names (log entry 8) -/

/-- Bytes written from ABUF byte `start` up to byte j, and byte j not. -/
structure FirstUnwritten (s : State) (start j : Nat) : Prop where
  before : ∀ i, i < j → Memory.read s.abuf (abufOffset start + i) ≠ none
  unwritten : Memory.read s.abuf (abufOffset start + j) = none

theorem FirstUnwritten.withBytes {s : State} {start j len : Nat} (h : FirstUnwritten s start j) (hj : j < len) (op : Byte)
    (k : List Byte → Result) :
    withBytes (abufBytes (s.acceptMark op) start len) k = .fault (.abufUnwritten (abufOffset start + j)) := by
  simp only [abufBytes, State.acceptMark_abuf, Memory.readBytes_first_unwritten hj h.before h.unwritten]
  rfl

/-- Operand bytes that are all written are read. -/
theorem abufBytes_ok_of_written {s : State} {start len : Nat}
    (h : ∀ i, i < len → Memory.read s.abuf (abufOffset start + i) ≠ none) :
    ∃ bytes, abufBytes s start len = .ok bytes := by
  obtain hok | ⟨off, hlo, hhi, hoff, -⟩ := Memory.readBytes_total s.abuf (abufOffset start) len
  · exact hok
  · have := h (off - abufOffset start) (by omega)
    rw [Nat.add_sub_cancel' hlo] at this
    exact absurd hoff this

section

variable {s : State} {j : Nat}

theorem execEncDisplayAscii_fault (hc : s.cfg.wf = true) (hb : s.busy = false) (h : FirstUnwritten s 0 j)
    (hj : j < min s.arg0.toNat 4) : execEncDisplayAscii s = .fault (.abufUnwritten (abufOffset 0 + j)) :=
  (accept_idle hc hb).trans (h.withBytes hj _ _)

/-- ENC_DEFINE_SONG with counts it accepts goes on to its two reads (41_command_encoder.md R186). -/
theorem execEncDefineSong_reads (hc : s.cfg.wf = true) (hb : s.busy = false) (heq : s.arg1 = s.arg2)
    (hle : s.arg1.toNat ≤ 255) :
    let u := s.acceptMark (opcode .encDefineSong)
    execEncDefineSong s =
      withBytes (abufBytes u 0 s.arg1.toNat) fun notes => withBytes (abufBytes u 256 s.arg1.toNat) fun durs =>
        .next (u.launch .encDefineSong (songSeq u.cfg (lowByte u.arg0) notes durs)) := by
  refine (accept_idle hc hb).trans ?_
  simp [u32, ← heq, hle]

theorem execEncDefineSong_fault_notes (hc : s.cfg.wf = true) (hb : s.busy = false) (h : FirstUnwritten s 0 j)
    (heq : s.arg1 = s.arg2) (hle : s.arg1.toNat ≤ 255) (hj : j < s.arg1.toNat) :
    execEncDefineSong s = .fault (.abufUnwritten (abufOffset 0 + j)) :=
  (execEncDefineSong_reads hc hb heq hle).trans (h.withBytes hj _ _)

theorem execEncDefineSong_fault_durations (hc : s.cfg.wf = true) (hb : s.busy = false) (h : FirstUnwritten s 256 j)
    (heq : s.arg1 = s.arg2) (hle : s.arg1.toNat ≤ 255) (hj : j < s.arg1.toNat)
    (hnotes : ∀ i, i < s.arg1.toNat → Memory.read s.abuf (abufOffset 0 + i) ≠ none) :
    execEncDefineSong s = .fault (.abufUnwritten (abufOffset 256 + j)) := by
  obtain ⟨notes, hread⟩ := abufBytes_ok_of_written (s := s.acceptMark (opcode .encDefineSong)) hnotes
  rw [execEncDefineSong_reads hc hb heq hle, hread]
  exact h.withBytes hj _ _

theorem execEncQueryList_fault (hc : s.cfg.wf = true) (hb : s.busy = false) (h : FirstUnwritten s 0 j)
    (hle : s.arg0.toNat ≤ 256) (hj : j < 2 * s.arg0.toNat) :
    execEncQueryList s = .fault (.abufUnwritten (abufOffset 0 + j)) :=
  (accept_idle hc hb).trans ((if_neg (Nat.not_lt.mpr hle)).trans (h.withBytes hj _ _))

theorem execRegByName_fault (hc : s.cfg.wf = true) (hb : s.busy = false) (h : FirstUnwritten s 0 j)
    (hle : s.arg0.toNat ≤ 32) (hj : j < s.arg0.toNat) : execRegByName s = .fault (.abufUnwritten (abufOffset 0 + j)) := by
  refine (accept_idle hc hb).trans ((if_neg ?_).trans (h.withBytes hj _ _))
  show ¬(decide (s.arg0.toNat < 1) || decide (32 < s.arg0.toNat)) = true
  simp only [Bool.or_eq_true, decide_eq_true_eq]
  omega

end

/-- Settles O16: each of the four operations reaches its range read, which names the first unwritten byte. -/
theorem unwrittenOperandByteFaults : Obligations.UnwrittenOperandByteFaults := by
  refine ⟨fun s j hc hb hbefore hat => ?_, fun s j hc hb heq hle hj hnotes hbefore hat => ?_⟩
  · have h : FirstUnwritten s 0 j := ⟨hbefore, hat⟩
    exact ⟨execEncDisplayAscii_fault hc hb h, execEncDefineSong_fault_notes hc hb h, execEncQueryList_fault hc hb h,
      execRegByName_fault hc hb h⟩
  · exact execEncDefineSong_fault_durations hc hb ⟨hbefore, hat⟩ heq hle hj hnotes

end Sys2Proof.Machine
end

section
/-!
PROOFS. The register window (10_state.md R30 to R50, 20_memory.md R81 to R85): the words and lanes a read returns, the status
words bit by bit, and what the accepted write of an ABUF word and of CMD does.
-/

namespace Sys2Proof.Machine

/-! ### Lanes of a word (20_memory.md R85) -/

/-- Lane i of a word put together from its lanes. -/
theorem laneOf_wordOfLanes (byte : Nat → Byte) {i : Nat} (hi : i < 4) :
    laneOf (wordOfLanes (byte 0) (byte 1) (byte 2) (byte 3)) i = byte i := by
  unfold laneOf wordOfLanes
  have : i = 0 ∨ i = 1 ∨ i = 2 ∨ i = 3 := by omega
  rcases this with rfl | rfl | rfl | rfl <;>
    simp (disch := decide) only [BitVec.extractLsb'_append_eq_of_le, BitVec.extractLsb'_append_eq_of_add_le] <;> simp

/-- Lane i of word k of a byte buffer is byte 4k + i. -/
theorem laneOf_bufferWord (byte : Nat → Byte) (k : Nat) {i : Nat} (hi : i < 4) :
    laneOf (bufferWord byte k) i = byte (4 * k + i) :=
  laneOf_wordOfLanes (fun i => byte (4 * k + i)) hi

/-! ### An accepted access -/

theorem inWindow_base_add (c : Config) {off : Nat} (h : off < 0x800) : inWindow c (c.base + off) = true := by
  simp [inWindow, h]

/-- An aligned 32-bit read inside the window logs what its register returns (20_memory.md R81, R84). -/
theorem hostRead_of_readReg {s : State} {off : Nat} {v : Word} (h : off < 0x800) (h4 : off % 4 = 0)
    (hv : readReg s (regAt off) = .ok v) :
    hostRead s (s.cfg.base + off) 4 = .next { s with reads := (s.cfg.base + off, v) :: s.reads } := by
  simp [hostRead, inWindow_base_add _ h, accessOk, h4, hv, logRead]

/-- An aligned 32-bit write inside the window is the write of its register (R81, R84). -/
theorem hostWrite_aligned (s : State) {off : Nat} (w : Word) (h : off < 0x800) (h4 : off % 4 = 0) :
    hostWrite s (s.cfg.base + off) 4 w = writeReg s w (regAt off) := by
  simp [hostWrite, inWindow_base_add _ h, accessOk, h4]

/-- Settles O3: the turn and the action are taken off, and the aligned write at BASE is the CMD write. -/
theorem stepRunsTheWrittenOperation : Obligations.StepRunsTheWrittenOperation := by
  intro s ts as w i hc hturns htodo hi
  calc step s = hostWrite { s with turns := ts, todo := as } s.cfg.base 4 w := by
        rw [step_turn hturns hc]; simp [runTurn, hostStep, htodo]
    _ = writeReg { s with turns := ts, todo := as } w .cmd :=
        hostWrite_aligned { s with turns := ts, todo := as } (off := 0) w (by decide) (by decide)
    _ = exec i { s with turns := ts, todo := as } := by simp [writeReg, writeCmd, hi]

/-! ### ABUF words (R46) -/

/-- A word read stops at a byte that is not written. -/
theorem Memory.readWord_unwritten {m : List Host.Cell} {a i : Nat} (hi : i < 4) (h : read m (a + i) = none) :
    ∃ off, readWord m a = .error (.abufUnwritten off) := by
  obtain ⟨bytes, hb⟩ | ⟨off, -, -, -, hb⟩ := readBytes_total m a 4
  · obtain ⟨hlen, hread⟩ := (readBytes_eq_ok m a 4 bytes).mp hb
    have := hread i hi
    rw [h, eq_comm, List.getElem?_eq_none_iff] at this
    omega
  · exact ⟨off, by simp [readWord, hb]⟩

/-- A word write stores lane i at the offset of byte i. -/
theorem Memory.read_writeWord_lane (m : List Host.Cell) (a : Nat) (w : Word) {i : Nat} (hi : i < 4) :
    read (writeWord m a w) (a + i) = some (laneOf w i) := by
  rw [read_writeWord]
  have : i = 0 ∨ i = 1 ∨ i = 2 ∨ i = 3 := by omega
  rcases this with rfl | rfl | rfl | rfl <;> simp

/-- A word write leaves every byte outside the word alone. -/
theorem Memory.read_writeWord_other (m : List Host.Cell) {a c : Nat} (w : Word) (h : c < a ∨ a + 3 < c) :
    read (writeWord m a w) c = read m c := by
  rw [read_writeWord, if_neg (by omega), if_neg (by omega), if_neg (by omega), if_neg (by omega)]

/-- Settles O46: the laws of ABUF's cells at the offset of word k, which lies inside ABUF. -/
theorem abufStoresByteLanes : Obligations.AbufStoresByteLanes := by
  intro s k w
  have hlo : 0x100 ≤ abufOffset (4 * k.val) := by unfold abufOffset; omega
  have hhi : abufOffset (4 * k.val) + 3 < 0x300 := by unfold abufOffset; omega
  exact ⟨_, rfl, rfl, fun i hi => Memory.read_writeWord_lane _ _ w hi, fun a ha => Memory.read_writeWord_other _ w ha,
    Memory.readWord_writeWord _ _ w, fun hm => Memory.wf_writeWord _ _ w hm hlo hhi,
    fun i hi h => Memory.readWord_unwritten hi h⟩

/-! ### The register map (R30) -/

theorem regAt_nbuf (k : Fin 8) : regAt (0x0C0 + 4 * k.val) = .nbuf k := by
  unfold regAt
  rw [if_neg (by omega), dif_pos (by omega)]
  exact congrArg Reg.nbuf (Fin.ext (by dsimp only; omega))

theorem regAt_pbuf (k : Fin 64) : regAt (0x300 + 4 * k.val) = .pbuf k := by
  unfold regAt
  rw [if_neg (by omega), dif_neg (by omega), if_neg (by omega), dif_neg (by omega), dif_pos (by omega)]
  exact congrArg Reg.pbuf (Fin.ext (by dsimp only; omega))

theorem regAt_fbuf (k : Fin 256) : regAt (0x400 + 4 * k.val) = .fbuf k := by
  unfold regAt
  rw [if_neg (by omega), dif_neg (by omega), if_neg (by omega), dif_neg (by omega), dif_neg (by omega), dif_pos (by omega)]
  exact congrArg Reg.fbuf (Fin.ext (by dsimp only; omega))

/-- A read of word k of FBUF (R48). -/
theorem hostRead_fbuf (s : State) (k : Fin 256) :
    hostRead s (s.cfg.base + (0x400 + 4 * k.val)) 4 =
      .next { s with reads := (s.cfg.base + (0x400 + 4 * k.val), s.fbufWord k.val) :: s.reads } :=
  hostRead_of_readReg (by omega) (by omega) (by rw [regAt_fbuf]; rfl)

theorem fbufWord_even (s : State) (e : Nat) : s.fbufWord (2 * e) = (s.fbufEntry e).word0 := by
  simp [State.fbufWord]

theorem fbufWord_odd (s : State) (e : Nat) : s.fbufWord (2 * e + 1) = (s.fbufEntry e).word1 := by
  have hdiv : (2 * e + 1) / 2 = e := by omega
  simp [State.fbufWord, Nat.add_mod, hdiv]

/-- Settles O45: each offset of the register map names its register, and the lanes of a buffer word are the buffer's bytes. -/
theorem registerMapReads : Obligations.RegisterMapReads := by
  intro s px py reads
  refine ⟨fun r hr => ?_, fun k => ?_, fun k => ?_, fun e => ?_⟩
  · fin_cases hr <;> exact hostRead_of_readReg (by simp) (by simp) rfl
  · exact ⟨bufferWord s.nbufByte k.val, hostRead_of_readReg (by omega) (by omega) (by rw [regAt_nbuf]; rfl),
      fun i hi => laneOf_bufferWord _ _ hi⟩
  · exact ⟨bufferWord s.pbufByte k.val, hostRead_of_readReg (by omega) (by omega) (by rw [regAt_pbuf]; rfl),
      fun i hi => (laneOf_bufferWord _ _ hi).trans (by simp [State.pbufByte])⟩
  · intro entry
    have hentry : s.fbufEntry e.val = entry := by simp [State.fbufEntry, entry]
    have hword0 := hostRead_fbuf s ⟨2 * e.val, by omega⟩
    have hword1 := hostRead_fbuf s ⟨2 * e.val + 1, by omega⟩
    rw [fbufWord_even, hentry] at hword0
    rw [fbufWord_odd, hentry] at hword1
    rw [show 0x400 + 4 * (2 * e.val) = 0x400 + 8 * e.val by omega] at hword0
    rw [show 0x400 + 4 * (2 * e.val + 1) = 0x404 + 8 * e.val by omega] at hword1
    exact ⟨hword0, hword1⟩

/-! ### The status words bit by bit (R32, R43, R44) -/

/-- The flags of STATUS at their places; bit 3 is reserved (R32). -/
theorem statusWord_bits (s : State) :
    s.statusWord.getLsbD 0 = s.busy ∧ s.statusWord.getLsbD 1 = s.done ∧ s.statusWord.getLsbD 2 = s.err ∧
      s.statusWord.getLsbD 3 = false ∧ s.statusWord.getLsbD 8 = s.ovr ∧ s.statusWord.getLsbD 9 = s.accerr ∧
      s.statusWord.getLsbD 10 = s.ovf ∧ s.statusWord.getLsbD 11 = s.priorValid := by
  unfold State.statusWord
  simp only [BitVec.getLsbD_append, BitVec.getLsbD_ofBool]
  simp

/-- The fields of STATUS at their places; bits 15:12 and 23:19 are reserved (R32). -/
theorem statusWord_fields (s : State) :
    s.statusWord.extractLsb' 4 4 = ecodeBits s.ecode ∧ s.statusWord.extractLsb' 12 4 = 0 ∧
      s.statusWord.extractLsb' 16 3 = dstateBits s.dstate ∧ s.statusWord.extractLsb' 19 5 = 0 ∧
      s.statusWord.extractLsb' 24 8 = s.op := by
  unfold State.statusWord
  simp (disch := decide) only [BitVec.extractLsb'_append_eq_of_le, BitVec.extractLsb'_append_eq_of_add_le]
  simp

theorem frameInfoWord_fields (s : State) :
    s.frameInfoWord.extractLsb' 0 8 = s.len ∧ s.frameInfoWord.extractLsb' 8 7 = s.count ∧
      s.frameInfoWord.getLsbD 15 = s.valid ∧ s.frameInfoWord.extractLsb' 16 16 = s.junk := by
  unfold State.frameInfoWord
  simp (disch := decide) only [BitVec.extractLsb'_append_eq_of_le, BitVec.extractLsb'_append_eq_of_add_le,
    BitVec.getLsbD_append, BitVec.getLsbD_ofBool]
  simp

theorem priorWord_fields (s : State) :
    s.priorWord.extractLsb' 0 16 = s.priorL ∧ s.priorWord.extractLsb' 16 16 = s.priorR := by
  unfold State.priorWord
  simp (disch := decide) only [BitVec.extractLsb'_append_eq_of_le, BitVec.extractLsb'_append_eq_of_add_le]
  simp

/-- Settles O43: the bits of the three words, with the codes of R330 and R37 written out. -/
theorem statusFieldsAndTheirClearing : Obligations.StatusFieldsAndTheirClearing := by
  intro s
  obtain ⟨hbusy, hdone, herr, h3, hovr, haccerr, hovf, hprior⟩ := statusWord_bits s
  obtain ⟨hecode, h12, hdstate, h19, hop⟩ := statusWord_fields s
  refine ⟨⟨rfl, rfl, rfl⟩, ?_, frameInfoWord_fields s, priorWord_fields s, fun _ => rfl⟩
  refine ⟨by rw [hbusy, State.busy_eq_true], hdone, herr, h3, ?_, hovr, haccerr, hovf, hprior, h12, ?_, h19, hop⟩
  · rw [hecode]; cases s.ecode <;> rfl
  · rw [hdstate]; cases s.dstate <;> rfl

/-! ### What is not shown (R45, R47, R48, 93 I4) -/

/-- Without a frame PBUF reads 0, whatever BODY holds. -/
theorem pbufByte_of_not_valid (s : State) (h : s.valid = false) (j : Nat) : s.pbufByte j = 0 := by
  simp [State.pbufByte, h]

/-- Without a frame FBUF shows no entry, whatever ENTRY holds. -/
theorem fbufEntry_of_not_valid (s : State) (h : s.valid = false) (e : Nat) : s.fbufEntry e = ⟨0, 0⟩ := by
  simp [State.fbufEntry, h]

/-- With no name NBUF reads 0, whatever NAME holds. -/
theorem nbufByte_of_nameLen_zero (s : State) (h : s.nameLen = 0) (i : Nat) : s.nbufByte i = 0 := by
  simp [State.nbufByte, h]

/-- Every register reads as before when BODY, ENTRY and NAME change and the buffers that show them do not. -/
theorem readReg_of_shown_same {s : State} {body : Vector Byte 256} {entry : Vector Entry 127} {name : Vector Byte 32}
    (hnbuf : ∀ i, { s with body := body, entry := entry, name := name }.nbufByte i = s.nbufByte i)
    (hpbuf : ∀ j, { s with body := body, entry := entry, name := name }.pbufByte j = s.pbufByte j)
    (hfbuf : ∀ e, { s with body := body, entry := entry, name := name }.fbufEntry e = s.fbufEntry e) (r : Reg) :
    readReg { s with body := body, entry := entry, name := name } r = readReg s r := by
  cases r with
  | nbuf k => simp only [readReg, bufferWord, hnbuf]
  | pbuf k => simp only [readReg, bufferWord, hpbuf]
  | fbuf k => simp only [readReg, State.fbufWord, hfbuf]
  | arg k => fin_cases k <;> rfl
  | res k => fin_cases k <;> rfl
  | cmd | status | poseX | poseY | poseTh | wlX | wlY | wrX | wrY | prior | frameInfo | id | abuf | reserved => rfl

/-- Settles O52: only PBUF and FBUF show BODY and ENTRY, and only NBUF shows NAME; each reads 0 here. -/
theorem unspecifiedBuffersAreNeverShown : Obligations.UnspecifiedBuffersAreNeverShown := by
  refine ⟨fun s body entry r hv => ?_, fun s name r hn => ?_⟩
  · let t : State := { s with body := body, entry := entry }
    have ht : t.valid = false := hv
    exact readReg_of_shown_same (body := body) (entry := entry) (name := s.name) (fun _ => rfl)
      (fun j => (pbufByte_of_not_valid t ht j).trans (pbufByte_of_not_valid s hv j).symm)
      (fun e => (fbufEntry_of_not_valid t ht e).trans (fbufEntry_of_not_valid s hv e).symm) r
  · let t : State := { s with name := name }
    have ht : t.nameLen = 0 := hn
    exact readReg_of_shown_same (body := s.body) (entry := s.entry) (name := name)
      (fun i => (nbufByte_of_nameLen_zero t ht i).trans (nbufByte_of_nameLen_zero s hn i).symm) (fun _ => rfl) (fun _ => rfl) r

end Sys2Proof.Machine
end

section
/-!
PROOFS. The rules of an access to the window (20_memory.md R81, R82, R84), and what a PYRB step reads and writes: it leaves every
register but its results and its frame (R90), and no operand of the host reaches it (R89, 70_reset_and_hazards.md R367).
-/

namespace Sys2Proof.Machine

/-! ### Which register an offset names (10_state.md R30, R50) -/

theorem regAt_abuf (k : Fin 128) : regAt (0x100 + 4 * k.val) = .abuf k := by
  unfold regAt
  rw [if_neg (by omega), dif_neg (by omega), if_neg (by omega), dif_pos (by omega)]
  exact congrArg Reg.abuf (Fin.ext (by dsimp only; omega))

/-- The reserved offsets of the register block: 0x014, and those past ID. -/
theorem lowRegAt_reserved {off : Nat} (h : off = 0x014 ∨ 0x050 ≤ off) : lowRegAt off = .reserved := by
  unfold lowRegAt
  split <;> try omega
  rfl

theorem regAt_reserved {off : Nat} (h : off = 0x014 ∨ (0x050 ≤ off ∧ off < 0x0C0) ∨ (0x0E0 ≤ off ∧ off < 0x100)) :
    regAt off = .reserved := by
  unfold regAt
  by_cases hlow : off < 0x0C0
  · rw [if_pos hlow]
    exact lowRegAt_reserved (by omega)
  · rw [if_neg hlow, dif_neg (by omega), if_pos (by omega)]

/-- The registers whose write does something (R84). -/
def hostWritable : Reg → Bool
  | .cmd | .status | .arg _ | .abuf _ => true
  | .res _ | .poseX | .poseY | .poseTh | .wlX | .wlY | .wrX | .wrY | .prior | .frameInfo | .id | .nbuf _ | .pbuf _ | .fbuf _
  | .reserved => false

/-- A write of a read-only or reserved register is ignored (R82). -/
theorem writeReg_of_not_writable {r : Reg} (s : State) (w : Word) (h : hostWritable r = false) : writeReg s w r = .next s := by
  cases r with
  | cmd | status | arg | abuf => cases h
  | res | poseX | poseY | poseTh | wlX | wlY | wrX | wrY | prior | frameInfo | id | nbuf | pbuf | fbuf | reserved => rfl

/-- CMD, STATUS and ARG0 to ARG2 lie below 0x014. -/
theorem lowRegAt_writable_lt {off : Nat} : hostWritable (lowRegAt off) = true → off < 0x014 := by
  unfold lowRegAt
  split <;> simp [hostWritable]

theorem regAt_not_writable {off : Nat} (hlo : 0x014 ≤ off) (h : off < 0x100 ∨ 0x300 ≤ off) :
    hostWritable (regAt off) = false := by
  unfold regAt
  split_ifs
  · exact Bool.eq_false_iff.mpr fun hw => absurd (lowRegAt_writable_lt hw) (by omega)
  · rfl
  · rfl
  · omega
  · rfl
  · rfl
  · rfl

/-! ### The two outcomes of an access (R81) -/

/-- An aligned 32-bit read inside the window stops with the fault of its register (R46). -/
theorem hostRead_of_readReg_fault {s : State} {off : Nat} {f : Fault} (h : off < 0x800) (h4 : off % 4 = 0)
    (hf : readReg s (regAt off) = .error f) : hostRead s (s.cfg.base + off) 4 = .fault f := by
  simp [hostRead, inWindow_base_add _ h, accessOk, h4, hf]

/-- Only an aligned 32-bit access is accepted. -/
theorem accessOk_eq_false {off bytes : Nat} (h : bytes ≠ 4 ∨ off % 4 ≠ 0) : accessOk off bytes = false := by
  simpa [accessOk, Decidable.imp_iff_not_or] using h

theorem hostRead_refused (s : State) {off bytes : Nat} (h : off < 0x800) (hbad : bytes ≠ 4 ∨ off % 4 ≠ 0) :
    hostRead s (s.cfg.base + off) bytes = .next (logRead s.refuseAccess (s.cfg.base + off) 0) := by
  simp [hostRead, inWindow_base_add _ h, accessOk_eq_false hbad]

theorem hostWrite_refused (s : State) {off bytes : Nat} (w : Word) (h : off < 0x800) (hbad : bytes ≠ 4 ∨ off % 4 ≠ 0) :
    hostWrite s (s.cfg.base + off) bytes w = .next s.refuseAccess := by
  simp [hostWrite, inWindow_base_add _ h, accessOk_eq_false hbad]

/-- Settles O44: an access is refused or reaches the register at its offset, and the map of the offsets says which that is. -/
theorem windowAccessRules : Obligations.WindowAccessRules := by
  intro s off bytes w hoff
  have write : ∀ {off : Nat}, off < 0x800 → off % 4 = 0 →
      hostWrite s (s.cfg.base + off) 4 w = writeReg s w (regAt off) := hostWrite_aligned s w
  refine ⟨fun hbad => ⟨hostRead_refused s hoff hbad, hostWrite_refused s w hoff hbad⟩, fun h4 hres => ?_,
    hostRead_of_readReg (off := 0) (by decide) (by decide) rfl, fun h4 hlo hro => ?_,
    write (by decide) (by decide), write (by decide) (by decide), write (by decide) (by decide),
    write (off := 0) (by decide) (by decide), write (by decide) (by decide), fun k => ?_,
    fun h4 => ⟨fun v => hostRead_of_readReg hoff h4, fun f => hostRead_of_readReg_fault hoff h4⟩⟩
  · exact hostRead_of_readReg hoff h4 (by rw [regAt_reserved hres]; rfl)
  · rw [write hoff h4]
    exact writeReg_of_not_writable s w (regAt_not_writable hlo hro)
  · rw [Nat.add_assoc, write (by omega) (by omega), regAt_abuf]

/-! ### What a PYRB step writes (R90) -/

/-- A PYRB step that does not complete its operation keeps the results and the frame. -/
theorem PyrbEnds.done_or_results_kept {s t : State} (h : PyrbEnds s t) :
    t.done = true ∨
      (t.res0 = s.res0 ∧ t.res1 = s.res1 ∧ t.valid = s.valid ∧ t.len = s.len ∧ t.count = s.count) := by
  cases h with
  | held ht => subst ht; exact .inr ⟨rfl, rfl, rfl, rfl, rfl⟩
  | handed seq hd ht => subst ht; exact .inl rfl
  | tookByte hd hd' ht => rw [ht]; exact .inr ⟨rfl, rfl, rfl, rfl, rfl⟩
  | parsed u hd hd' hu ht => subst ht; exact .inl rfl
  | failed u code i0 i1 hu hc ht => subst ht; exact .inl rfl

/-- Settles O51: every form of a PYRB step keeps the frame of R90, and one that is no completion keeps the results. -/
theorem pyrbStepChangesOnlyResultsAndFrame : Obligations.PyrbStepChangesOnlyResultsAndFrame := by
  intro s t
  have hends : PyrbEnds s t := pyrbStep_ends s
  refine ⟨hends.frame, fun hchanged => hends.done_or_results_kept.resolve_right ?_⟩
  rintro ⟨h0, h1, hv, hl, hc⟩
  simp [h0, h1, hv, hl, hc] at hchanged

/-! ### What a PYRB step reads (R89) -/

/-- The state with ARG0 to ARG2 and ABUF as a host may rewrite them. -/
def State.withOperands (s : State) (a0 a1 a2 : Word) (m : List Host.Cell) : State :=
  { s with arg0 := a0, arg1 := a1, arg2 := a2, abuf := m }

/-- A transition that neither reads nor writes the operands. -/
def IgnoresOperands (f : State → State) : Prop :=
  ∀ s a0 a1 a2 m, f (s.withOperands a0 a1 a2 m) = (f s).withOperands a0 a1 a2 m

theorem handoffStep_ignoresOperands : IgnoresOperands handoffStep := by
  intro s a0 a1 a2 m
  have hpend : (s.withOperands a0 a1 a2 m).txpend = s.txpend := rfl
  have hterr : (s.withOperands a0 a1 a2 m).terr = s.terr := rfl
  unfold handoffStep
  rw [hpend, hterr]
  cases s.txpend with
  | none => rfl
  | some seq => cases s.terr <;> rfl

/-- A byte step ignores the operands if what it does with its byte does. -/
theorem byteStep_ignoresOperands {k : State → Byte → State} (hk : ∀ b, IgnoresOperands fun s => k s b) :
    IgnoresOperands fun s => byteStep s k := by
  intro s a0 a1 a2 m
  have hrxq : (s.withOperands a0 a1 a2 m).rxq = s.rxq := rfl
  have hterr : (s.withOperands a0 a1 a2 m).terr = s.terr := rfl
  simp only [byteStep]
  rw [hrxq, hterr]
  cases s.rxq with
  | cons b rest => exact hk b { s with rxq := rest } a0 a1 a2 m
  | nil => cases s.terr <;> rfl

theorem seekByte_ignoresOperands (b : Byte) : IgnoresOperands fun s => seekByte s b := by
  intro s a0 a1 a2 m
  unfold seekByte
  split <;> rfl

theorem finishParse_ignoresOperands (p : Vector Entry 127 × Verdict) : IgnoresOperands fun s => finishParse s p := by
  intro s a0 a1 a2 m
  unfold finishParse
  split <;> rfl

theorem validateStep_ignoresOperands : IgnoresOperands validateStep := by
  intro s a0 a1 a2 m
  have hparse : parseFrame (s.withOperands a0 a1 a2 m) = parseFrame s := rfl
  have hsum : (s.withOperands a0 a1 a2 m).sum = s.sum := rfl
  unfold validateStep
  rw [hsum, hparse]
  split
  · rfl
  · exact finishParse_ignoresOperands (parseFrame s) s a0 a1 a2 m

theorem pyrbStep_ignoresOperands : IgnoresOperands pyrbStep := by
  intro s a0 a1 a2 m
  have hd : (s.withOperands a0 a1 a2 m).dstate = s.dstate := rfl
  unfold pyrbStep
  rw [hd]
  cases s.dstate with
  | idle => exact handoffStep_ignoresOperands s a0 a1 a2 m
  | seek => exact byteStep_ignoresOperands seekByte_ignoresOperands s a0 a1 a2 m
  | len => exact byteStep_ignoresOperands (k := lenByte) (fun _ _ _ _ _ _ => rfl) s a0 a1 a2 m
  | body => exact byteStep_ignoresOperands (k := bodyByte) (fun _ _ _ _ _ _ => rfl) s a0 a1 a2 m
  | validate => exact validateStep_ignoresOperands s a0 a1 a2 m

/-- Settles O50: the handoff and every step of the decoder work on what the accept latched. -/
theorem operandsAreLatchedAtAccept : Obligations.OperandsAreLatchedAtAccept := pyrbStep_ignoresOperands

end Sys2Proof.Machine
end

section
/-!
PROOFS. The CMD word (30_encoding.md R110 to R112): the decoder reads exactly the words the encoder writes, as a word and as the
bytes of its lanes; and WAIT, the HOST's read of STATUS until BUSY = 0 (R131).
-/

namespace Sys2Proof

/-! ### The operation map (R111) -/

theorem opcode_of_mem_opTable : ∀ row ∈ opTable, row.1 = opcode row.2 := by decide

/-- The rows of the map are the OP values of the operations, each under its own. -/
theorem opTable_lookup_eq_some_iff {op : Byte} {i : Instr} : opTable.lookup op = some i ↔ op = opcode i := by
  constructor
  · intro h
    obtain ⟨before, after, htable, -⟩ := List.lookup_eq_some_iff.mp h
    exact opcode_of_mem_opTable (op, i) (by rw [htable]; simp)
  · rintro rfl
    cases i <;> rfl

/-! ### The fields of the CMD word (R110) -/

theorem cmdRsv_append_cmdOp (w : Word) : cmdRsv w ++ cmdOp w = w :=
  (BitVec.extractLsb'_append_extractLsb'_eq_extractLsb' rfl).trans BitVec.extractLsb'_eq_self

/-- The word of an operation is the one with RSV = 0 and its OP value. -/
theorem eq_encodeWord_iff {w : Word} {i : Instr} : w = encodeWord i ↔ cmdRsv w = 0 ∧ cmdOp w = opcode i := by
  constructor
  · rintro rfl
    exact ⟨BitVec.extractLsb'_append_eq_left, BitVec.extractLsb'_append_eq_right⟩
  · rintro ⟨hrsv, hop⟩
    rw [← cmdRsv_append_cmdOp w, hrsv, hop, encodeWord]

theorem decodeWord_eq_ok_iff_lookup {w : Word} {i : Instr} :
    decodeWord w = .ok i ↔ cmdRsv w = 0 ∧ opTable.lookup (cmdOp w) = some i := by
  unfold decodeWord
  split_ifs with hrsv
  · cases opTable.lookup (cmdOp w) <;> simp [hrsv]
  · exact ⟨fun h => (nomatch h), fun h => absurd h.1 hrsv⟩

/-- The decoder accepts exactly the encoder's words (R110 to R112). -/
theorem decodeWord_eq_ok_iff {w : Word} {i : Instr} : decodeWord w = .ok i ↔ w = encodeWord i := by
  rw [decodeWord_eq_ok_iff_lookup, opTable_lookup_eq_some_iff, eq_encodeWord_iff]

/-! ### The bytes of the CMD word (20_memory.md R85) -/

/-- The four lanes of a word decode as the word does, and the bytes after them are left. -/
theorem decode_lanes (w : Word) (rest : List Byte) :
    decode (laneOf w 0 :: laneOf w 1 :: laneOf w 2 :: laneOf w 3 :: rest) = (decodeWord w).map fun i => (i, rest) := by
  rw [decode, Machine.Memory.wordOfLanes_laneOf]
  cases decodeWord w <;> rfl

theorem decode_encode_append (i : Instr) (rest : List Byte) : decode (encode i ++ rest) = .ok (i, rest) := by
  have hword : decodeWord (encodeWord i) = .ok i := decodeWord_eq_ok_iff.mpr rfl
  calc decode (encode i ++ rest) = (decodeWord (encodeWord i)).map fun j => (j, rest) := decode_lanes (encodeWord i) rest
    _ = .ok (i, rest) := by rw [hword]; rfl

theorem decodeTableWord_eq_toOption (nbits w : Nat) :
    decodeTableWord nbits w = (decodeWord (tableWord nbits w)).toOption := by
  simp only [decodeTableWord, decode_lanes]
  cases decodeWord (tableWord nbits w) <;> rfl

theorem decodeTableWord_eq_some {nbits w : Nat} {i : Instr} (h : tableWord nbits w = encodeWord i) :
    decodeTableWord nbits w = some i := by
  rw [decodeTableWord_eq_toOption, decodeWord_eq_ok_iff.mpr h]
  rfl

theorem decodeTableWord_eq_none {nbits w : Nat} {e : DecodeError} (h : decodeWord (tableWord nbits w) = .error e) :
    decodeTableWord nbits w = none := by
  rw [decodeTableWord_eq_toOption, h]
  rfl

/-- Settles O1: the lanes of a word make the word again, and the decoder accepts exactly the encoder's words. -/
theorem cmdWordsDecodeAsEncoded : Obligations.CmdWordsDecodeAsEncoded :=
  ⟨fun i rest _ => decode_encode_append i rest, fun _ _ => decodeWord_eq_ok_iff⟩

/-- Settles O2: the five legal words are the encoder's, and each of the others is rejected by its OP or its RSV. -/
theorem operationMapSamples : Obligations.OperationMapSamples :=
  ⟨decodeTableWord_eq_some rfl, decodeTableWord_eq_some rfl, decodeTableWord_eq_some rfl, decodeTableWord_eq_some rfl,
    decodeTableWord_eq_some rfl, decodeTableWord_eq_none (e := .unassignedOp 0x00) rfl,
    decodeTableWord_eq_none (e := .unassignedOp 0x0B) rfl, decodeTableWord_eq_none (e := .reservedNonzero) rfl⟩

end Sys2Proof

namespace Sys2Proof.Machine

/-! ### WAIT (R131) -/

/-- A WAIT logs a read of STATUS, and is taken off the HOST's actions when nothing is in flight. -/
theorem hostStep_wait {s : State} {as : List HostAction} (h : s.todo = .wait :: as) :
    hostStep s = .next
      { s with reads := (s.cfg.base + 4, s.statusWord) :: s.reads
               todo := if s.cur = none then as else .wait :: as } := by
  have hstays : (if s.busy then .wait :: as else as) = if s.cur = none then as else .wait :: as := by
    cases hcur : s.cur <;> simp [State.busy, hcur]
  simp only [hostStep, h, logRead, hstays]

/-- Settles O54: the turn is the HOST's, and its action is the WAIT. -/
theorem waitStaysWhileBusy : Obligations.WaitStaysWhileBusy := by
  intro s ts as hc hturns htodo
  rw [step_turn hturns hc]
  exact hostStep_wait (s := { s with turns := ts }) htodo

end Sys2Proof.Machine
end

section
/-!
PROOFS. The registry's tables in a legal configuration (40_registry.md R160 to R162): what a lookup by id, by name and by bulk index
finds, and the descriptor words as numbers (30_encoding.md R114, 40_registry.md R167).
-/

namespace Sys2Proof.Machine

/-! ### Descriptor words as numbers -/

/-- Bit fields that do not overlap add up. -/
theorem or_eq_add_of_dvd_of_lt {a b : Nat} (i : Nat) (ha : 2 ^ i ∣ a) (hb : b < 2 ^ i) : a ||| b = a + b := by
  obtain ⟨m, rfl⟩ := ha
  exact (Nat.two_pow_add_eq_or_of_lt hb m).symm

theorem toNat_descScalar {id : Byte} {d : ScalarDesc} (hw : fmtWidth d.fmt < 65536) :
    (descScalar id d).toNat = fmtWidth d.fmt * 65536 + (fmtCode d.fmt).toNat * 256 + id.toNat := by
  have hid : id.toNat < 2 ^ 8 := id.isLt
  have hcode : (fmtCode d.fmt).toNat < 2 ^ 3 := (fmtCode d.fmt).isLt
  have hwidth : (BitVec.ofNat 32 (fmtWidth d.fmt) <<< 16).toNat = fmtWidth d.fmt * 65536 := by
    simp only [BitVec.toNat_shiftLeft, BitVec.toNat_ofNat, Nat.shiftLeft_eq]
    omega
  have hfmt : ((fmtCode d.fmt).setWidth 32 <<< 8).toNat = (fmtCode d.fmt).toNat * 256 := by
    simp only [BitVec.toNat_shiftLeft, BitVec.toNat_setWidth, Nat.shiftLeft_eq]
    omega
  have hlow : (id.setWidth 32).toNat = id.toNat := by
    rw [BitVec.toNat_setWidth]
    omega
  have hhigh := or_eq_add_of_dvd_of_lt (a := fmtWidth d.fmt * 65536) (b := (fmtCode d.fmt).toNat * 256) 16
    (by omega) (by omega)
  rw [descScalar, BitVec.toNat_or, BitVec.toNat_or, hwidth, hfmt, hlow, hhigh, or_eq_add_of_dvd_of_lt 8 (by omega) hid]

theorem toNat_descBulk {b : Nat} {d : BulkDesc} (hm : d.members.length < 32768) (hb : b < 65536) :
    (descBulk b d).toNat = 2147483648 + d.members.length * 65536 + b := by
  have hmembers : (BitVec.ofNat 32 d.members.length <<< 16).toNat = d.members.length * 65536 := by
    simp only [BitVec.toNat_shiftLeft, BitVec.toNat_ofNat, Nat.shiftLeft_eq]
    omega
  have hindex : (BitVec.ofNat 32 b).toNat = b := by
    rw [BitVec.toNat_ofNat]
    omega
  have hhigh := or_eq_add_of_dvd_of_lt (a := 2147483648) (b := d.members.length * 65536) 31 (by omega) (by omega)
  rw [descBulk, BitVec.toNat_or, BitVec.toNat_or, hmembers, hindex]
  exact (congrArg (· ||| b) hhigh).trans (or_eq_add_of_dvd_of_lt 16 (by omega) hb)

/-- KIND = 1 is bit 31 (R167). -/
theorem getLsbD_descBulk_kind (b : Nat) (d : BulkDesc) : (descBulk b d).getLsbD 31 = true := by
  simp [descBulk]

/-- A scalar descriptor word has its id in bits 7:0 (R167). -/
theorem extractLsb'_descScalar_id (id : Byte) (d : ScalarDesc) : (descScalar id d).extractLsb' 0 8 = id := by
  ext i hi
  have hlow : i < 16 := by omega
  have hword : i < 32 := by omega
  simp [descScalar, BitVec.getLsbD_eq_getElem, hi, hlow, hword]

/-! ### The tables of a legal configuration (R160, R161) -/

/-- The constraints on SENSOR_TABLE and BULK_TABLE. -/
structure TablesOk (c : Config) : Prop where
  ids : (c.sensors.map Prod.fst).Nodup
  names : ((c.sensors.map fun e => e.2.name) ++ c.bulks.map BulkDesc.name).Nodup
  scalar : ∀ e ∈ c.sensors, fmtOk e.2.fmt = true ∧ nameOk e.2.name = true
  bulkCount : c.bulks.length ≤ 256
  memberCount : ∀ bd ∈ c.bulks, bd.members.length ≤ 255

theorem tablesOk_of_wf {c : Config} (hc : c.wf = true) : TablesOk c := by
  simp only [Config.wf, Bool.and_eq_true, Config.idsUnique, Config.sensorsOk, Config.namesUnique, Config.bulkCountOk,
    Config.bulksOk, decide_eq_true_eq, List.all_eq_true] at hc
  obtain ⟨⟨⟨⟨⟨⟨⟨⟨⟨⟨-, hids⟩, hscalar⟩, hnames⟩, hcount⟩, hbulks⟩, -⟩, -⟩, -⟩, -⟩, -⟩ := hc
  refine ⟨hids, hnames, hscalar, hcount, fun bd hbd => ?_⟩
  obtain ⟨⟨-, hmembers⟩, -⟩ := hbulks bd hbd
  exact hmembers

/-- A legal format is at most 254 bytes wide (30_encoding.md R115). -/
theorem fmtWidth_le_of_fmtOk {f : Fmt} (h : fmtOk f = true) : fmtWidth f ≤ 254 := by
  cases f with
  | block len =>
    simp only [fmtOk, Bool.and_eq_true, decide_eq_true_eq] at h
    obtain ⟨-, hle⟩ := h
    exact hle
  | u8 | i8 | u16 | i16 => decide

/-- The descriptor word of a table entry as a number: a legal width fits its field. -/
theorem toNat_descScalar_of_mem {c : Config} (h : TablesOk c) {id : Byte} {d : ScalarDesc} (hd : (id, d) ∈ c.sensors) :
    (descScalar id d).toNat = fmtWidth d.fmt * 65536 + (fmtCode d.fmt).toNat * 256 + id.toNat := by
  obtain ⟨hfmt, -⟩ := h.scalar _ hd
  have hwidth : fmtWidth d.fmt ≤ 254 := fmtWidth_le_of_fmtOk hfmt
  exact toNat_descScalar (by omega)

/-! ### Lookups (R163) -/

theorem sensorAt_eq_some_iff {c : Config} (h : TablesOk c) {id : Byte} {d : ScalarDesc} :
    sensorAt c id = some d ↔ (id, d) ∈ c.sensors := by
  have hmem : ∀ {d'}, sensorAt c id = some d' → (id, d') ∈ c.sensors := fun hd => by
    obtain ⟨before, after, htable, -⟩ := List.lookup_eq_some_iff.mp hd
    simp [htable]
  refine ⟨hmem, fun hd => ?_⟩
  cases hat : sensorAt c id with
  | none => exact absurd (List.lookup_eq_none_iff.mp hat _ hd) (by simp)
  | some d' => simpa using List.inj_on_of_nodup_map h.ids (hmem hat) hd rfl

theorem sensorNamed_eq_some_iff {c : Config} (h : TablesOk c) {name : List Byte} {e : Byte × ScalarDesc} :
    sensorNamed c name = some e ↔ e ∈ c.sensors ∧ e.2.name = name := by
  have hfound : ∀ {e'}, sensorNamed c name = some e' → e' ∈ c.sensors ∧ e'.2.name = name := fun he =>
    ⟨List.mem_of_find?_eq_some he, by simpa using List.find?_some he⟩
  refine ⟨hfound, fun ⟨he, hname⟩ => ?_⟩
  cases hat : sensorNamed c name with
  | none => exact absurd hname (by simpa using List.find?_eq_none.mp hat e he)
  | some e' =>
    obtain ⟨he', hname'⟩ := hfound hat
    exact congrArg some (List.inj_on_of_nodup_map h.names.of_append_left he' he (hname'.trans hname.symm))

theorem bulkNamed_eq_some_iff {c : Config} (h : TablesOk c) {name : List Byte} {b : Nat} {bd : BulkDesc} :
    bulkNamed c name = some (b, bd) ↔ c.bulks[b]? = some bd ∧ bd.name = name := by
  have hnames : (c.bulks.map BulkDesc.name).Nodup := h.names.of_append_right
  constructor
  · intro hfound
    unfold bulkNamed at hfound
    split at hfound
    · next i hi =>
      obtain ⟨_, hat, heq⟩ := Option.map_eq_some_iff.mp hfound
      cases heq
      obtain ⟨_, hname, -⟩ := List.findIdx?_eq_some_iff_getElem.mp hi
      obtain ⟨_, rfl⟩ := List.getElem?_eq_some_iff.mp hat
      exact ⟨hat, by simpa using hname⟩
    · cases hfound
  · rintro ⟨hat, rfl⟩
    obtain ⟨hlt, rfl⟩ := List.getElem?_eq_some_iff.mp hat
    have hindex : (c.bulks.findIdx? fun bd : BulkDesc => decide (bd.name = c.bulks[b].name)) = some b := by
      refine List.findIdx?_eq_some_iff_getElem.mpr ⟨hlt, by simp, fun j hj hname => hj.ne ?_⟩
      exact (hnames.getElem_inj_iff (hi := by simp; omega) (hj := by simpa)).mp (by simpa using hname)
    simp [bulkNamed, hindex, bulkAt]

/-- The descriptor a name finds is that of the one entry, scalar or bulk, with this name (R165). -/
theorem descriptorNamed_eq_some_iff {c : Config} (h : TablesOk c) {name : List Byte} {w : Word} :
    descriptorNamed c name = some w ↔
      (∃ id d, (id, d) ∈ c.sensors ∧ d.name = name ∧ descScalar id d = w) ∨
        ∃ b bd, c.bulks[b]? = some bd ∧ bd.name = name ∧ descBulk b bd = w := by
  unfold descriptorNamed
  cases hs : sensorNamed c name with
  | some e =>
    obtain ⟨hmem, hname⟩ := (sensorNamed_eq_some_iff h).mp hs
    obtain ⟨-, -, hdisjoint⟩ := List.nodup_append.mp h.names
    have hbulk : ∀ b (bd : BulkDesc), c.bulks[b]? = some bd → bd.name ≠ name := fun b bd hbd hname' =>
      hdisjoint _ (List.mem_map_of_mem hmem) _ (List.mem_map_of_mem (List.mem_of_getElem? hbd)) (hname.trans hname'.symm)
    constructor
    · intro heq
      exact .inl ⟨e.1, e.2, hmem, hname, Option.some.inj heq⟩
    · rintro (⟨id, d, hd, hname', rfl⟩ | ⟨b, bd, hbd, hname', -⟩)
      · have heq := (sensorNamed_eq_some_iff h).mpr ⟨hd, hname'⟩
        cases hs.symm.trans heq
        rfl
      · exact absurd hname' (hbulk b bd hbd)
  | none =>
    have hscalar : ∀ e ∈ c.sensors, e.2.name ≠ name := fun e he hname => by
      simp [(sensorNamed_eq_some_iff h).mpr ⟨he, hname⟩] at hs
    simp only [Option.map_eq_some_iff, Prod.exists, bulkNamed_eq_some_iff h, and_assoc]
    refine ⟨.inr, fun hw => hw.resolve_left ?_⟩
    rintro ⟨id, d, hd, hname, -⟩
    exact hscalar _ hd hname

/-- A name finds the entry R165 describes by its number: an index and a member count of legal tables fit their fields. -/
theorem descriptorNamed_of_number {c : Config} (h : TablesOk c) {name : List Byte} {n : Nat}
    (hn : (∃ id d, (id, d) ∈ c.sensors ∧ d.name = name ∧
        n = fmtWidth d.fmt * 65536 + (fmtCode d.fmt).toNat * 256 + id.toNat) ∨
      ∃ (b : Nat) (bd : BulkDesc), c.bulks[b]? = some bd ∧ bd.name = name ∧
        n = 2147483648 + bd.members.length * 65536 + b) :
    ∃ w, descriptorNamed c name = some w ∧ w.toNat = n := by
  obtain ⟨id, d, hd, hname, rfl⟩ | ⟨b, bd, hbd, hname, rfl⟩ := hn
  · exact ⟨descScalar id d, (descriptorNamed_eq_some_iff h).mpr (.inl ⟨id, d, hd, hname, rfl⟩),
      toNat_descScalar_of_mem h hd⟩
  · have hmembers := h.memberCount bd (List.mem_of_getElem? hbd)
    obtain ⟨hindex, -⟩ := List.getElem?_eq_some_iff.mp hbd
    have hcount := h.bulkCount
    exact ⟨descBulk b bd, (descriptorNamed_eq_some_iff h).mpr (.inr ⟨b, bd, hbd, hname, rfl⟩),
      toNat_descBulk (by omega) (by omega)⟩

theorem descriptorNamed_eq_none {c : Config} (h : TablesOk c) {name : List Byte}
    (hscalar : ∀ e ∈ c.sensors, e.2.name ≠ name) (hbulk : ∀ bd ∈ c.bulks, bd.name ≠ name) :
    descriptorNamed c name = none := by
  refine Option.eq_none_iff_forall_ne_some.mpr fun w hw => ?_
  obtain ⟨id, d, hd, hname, -⟩ | ⟨b, bd, hbd, hname, -⟩ := (descriptorNamed_eq_some_iff h).mp hw
  · exact hscalar (id, d) hd hname
  · exact hbulk bd (List.mem_of_getElem? hbd) hname

end Sys2Proof.Machine
end

section
/-!
PROOFS. The registry's operations (40_registry.md R164 to R168): the state each ends in, case by case, and what each leaves as it was.
-/

namespace Sys2Proof.Machine

variable {s t : State}

/-! ### The end of a lookup that found a descriptor -/

/-- A descriptor word in RES0, the length of its name in RES1 and the name in NBUF (R164, R165). -/
def State.showDescriptor (s : State) (w : Word) (name : List Byte) : State :=
  ((s.setRes01 w (BitVec.ofNat 32 name.length)).setName name).complete

theorem nbufByte_showDescriptor (s : State) (w : Word) {name : List Byte} (hname : name.length ≤ 32) (i : Nat) :
    (s.showDescriptor w name).nbufByte i = name.getD i 0 :=
  nbufByte_setName _ name hname i

/-- The words of NBUF are those of the name shown (10_state.md R45). -/
theorem readReg_nbuf_showDescriptor (s : State) (w : Word) {name : List Byte} (hname : name.length ≤ 32) (k : Fin 8) :
    readReg (s.showDescriptor w name) (.nbuf k) = .ok (bufferWord (fun i => name.getD i 0) k.val) := by
  rw [readReg, funext (nbufByte_showDescriptor s w hname)]

/-- What a host reads of a lookup that found `w`, accepted at s, and the fields the lookup wrote. -/
theorem showDescriptor_acceptMark (s : State) (op : Byte) {w : Word} {n : Nat} {name : List Byte} (hw : w.toNat = n)
    (hname : name.length ≤ 32) :
    let t := (s.acceptMark op).showDescriptor w name
    t = { s with op := op, done := true, err := false, ecode := .none, cur := none, res0 := t.res0, res1 := t.res1
                 nameLen := t.nameLen, name := t.name } ∧
      t.res0.toNat = n ∧ t.res1.toNat = name.length ∧ ∀ i, t.nbufByte i = name.getD i 0 := by
  refine ⟨rfl, hw, ?_, nbufByte_showDescriptor _ w hname⟩
  show (BitVec.ofNat 32 name.length).toNat = name.length
  rw [BitVec.toNat_ofNat]
  omega

/-! ### REG_BY_ID (R164) -/

theorem exec_regById_unknown (hc : s.cfg.wf = true) (hb : s.busy = false) (h : sensorAt s.cfg (lowByte s.arg0) = none) :
    exec .regById s =
      .next { failedAtAccept .regById s .unknownSensor (lowByte s.arg0).toNat 0 with nameLen := 0 } := by
  refine (accept_idle hc hb : execRegById s = _).trans ?_
  simp only [lookupById, State.acceptMark_cfg, State.acceptMark_arg0, h]
  rfl

theorem exec_regById_found (hc : s.cfg.wf = true) (hb : s.busy = false) {id : Byte} {d : ScalarDesc}
    (hid : lowByte s.arg0 = id) (hd : (id, d) ∈ s.cfg.sensors) :
    exec .regById s = .next ((s.acceptMark (opcode .regById)).showDescriptor (descScalar id d) d.name) := by
  have hat : sensorAt s.cfg id = some d := (sensorAt_eq_some_iff (tablesOk_of_wf hc)).mpr hd
  refine (accept_idle hc hb : execRegById s = _).trans ?_
  simp only [lookupById, State.acceptMark_cfg, State.acceptMark_arg0, hid, hat]
  rfl

/-- Settles O29: an id with no entry is not found, and one with an entry shows that entry's word and name. -/
theorem regByIdReturnsTheDescriptor : Obligations.RegByIdReturnsTheDescriptor := by
  refine ⟨rfl, fun s hc _ hb => ?_⟩
  intro id
  have htables := tablesOk_of_wf hc
  refine ⟨fun hnone => ?_, fun d hd => ?_⟩
  · have hat : sensorAt s.cfg id = none :=
      Option.eq_none_iff_forall_ne_some.mpr fun d hd => hnone d ((sensorAt_eq_some_iff htables).mp hd)
    exact exec_regById_unknown hc hb hat
  · have hname : d.name.length ≤ 32 := sensorAt_name_length_le hc ((sensorAt_eq_some_iff htables).mpr hd)
    exact ⟨_, exec_regById_found hc hb rfl hd, showDescriptor_acceptMark s _ (toNat_descScalar_of_mem htables hd) hname⟩

/-! ### REG_BY_NAME (R165) -/

/-- A length no name has is refused before any ABUF byte is read. -/
theorem execRegByName_badLength (hc : s.cfg.wf = true) (hb : s.busy = false) (h : s.arg0.toNat = 0 ∨ 32 < s.arg0.toNat) :
    execRegByName s = .next { failedAtAccept .regByName s .arg s.arg0.toNat 0 with nameLen := 0 } := by
  refine (accept_idle hc hb).trans ?_
  refine if_pos ?_
  show (decide (s.arg0.toNat < 1) || decide (32 < s.arg0.toNat)) = true
  simp only [Bool.or_eq_true, decide_eq_true_eq]
  omega

/-- Bytes the host has written are the operand read. -/
theorem abufBytes_of_abufHolds {start : Nat} {bytes : List Byte} (h : AbufHolds s start bytes) :
    abufBytes s start bytes.length = .ok bytes :=
  (Memory.readBytes_eq_ok _ _ _ _).mpr ⟨rfl, h⟩

/-- A name of a legal length in ABUF is looked up. -/
theorem execRegByName_read (hc : s.cfg.wf = true) (hb : s.busy = false) {name : List Byte}
    (hlen : name.length = s.arg0.toNat) (hpos : 1 ≤ name.length) (hle : name.length ≤ 32) (h : AbufHolds s 0 name) :
    execRegByName s = .next (lookupByName (s.acceptMark (opcode .regByName)) name) := by
  refine (accept_idle hc hb).trans ?_
  refine (if_neg ?_).trans ?_
  · show ¬(decide (s.arg0.toNat < 1) || decide (32 < s.arg0.toNat)) = true
    simp only [Bool.or_eq_true, decide_eq_true_eq]
    omega
  · have hread : abufBytes (s.acceptMark (opcode .regByName)) 0 s.arg0.toNat = .ok name := by
      rw [← hlen]
      exact abufBytes_of_abufHolds h
    exact congrArg (withBytes · _) hread

theorem lookupByName_unknown {name : List Byte} (h : descriptorNamed s.cfg name = none) :
    lookupByName s name = s.clearName.raise .unknownSensor 0xFFFFFFFF name.length := by
  simp only [lookupByName, h]

theorem lookupByName_found {name : List Byte} {w : Word} (h : descriptorNamed s.cfg name = some w) :
    lookupByName s name = s.showDescriptor w name := by
  simp only [lookupByName, h]
  rfl

/-- Settles O30: the length is checked, the name is read, and names being unique it finds its one entry or none. -/
theorem regByNameFindsTheExactName : Obligations.RegByNameFindsTheExactName := by
  refine ⟨rfl, fun s hc _ hb => ⟨execRegByName_badLength hc hb, fun name hlen hpos hle hbuf => ?_⟩⟩
  have htables := tablesOk_of_wf hc
  have hrun := execRegByName_read hc hb hlen hpos hle hbuf
  constructor
  · intro hscalar hbulk
    exact hrun.trans (congrArg _ (lookupByName_unknown (descriptorNamed_eq_none htables hscalar hbulk)))
  · intro n hn
    obtain ⟨w, hfound, hw⟩ := descriptorNamed_of_number htables hn
    exact ⟨_, hrun.trans (congrArg _ (lookupByName_found hfound)), showDescriptor_acceptMark s _ hw hle⟩

/-! ### REG_BULK_MEMBER (R166) -/

theorem execRegBulkMember_accepted (hc : s.cfg.wf = true) (hb : s.busy = false) :
    execRegBulkMember s = lookupMember (s.acceptMark (opcode .regBulkMember)) s.arg0.toNat s.arg1.toNat :=
  accept_idle hc hb

theorem lookupMember_unknown {b : Nat} (p : Nat) (h : bulkAt s.cfg b = none) :
    lookupMember s b p = .next (s.raise .unknownSensor b p) := by
  simp only [lookupMember, h]

theorem lookupMember_past {b p : Nat} {bd : BulkDesc} (h : bulkAt s.cfg b = some bd) (hp : bd.members.length ≤ p) :
    lookupMember s b p = .next (s.raise .arg p bd.members.length) := by
  simp only [lookupMember, h, List.getElem?_eq_none hp]

theorem lookupMember_found {b p : Nat} {bd : BulkDesc} {id : Byte} {d : ScalarDesc} (h : bulkAt s.cfg b = some bd)
    (hid : bd.members[p]? = some id) (hd : sensorAt s.cfg id = some d) :
    lookupMember s b p = .next (s.setRes01 (descScalar id d) (BitVec.ofNat 32 p)).complete := by
  simp only [lookupMember, h, hid, hd]

/-- Settles O31: a bulk index and a position are looked up in turn, and a member has its scalar descriptor. -/
theorem regBulkMemberReturnsTheMember : Obligations.RegBulkMemberReturnsTheMember := by
  refine ⟨rfl, fun s hc _ hb => ?_⟩
  intro b p
  refine ⟨fun hnone => ?_, fun bd hbd => ⟨fun hp => ?_, fun id hid => ?_⟩⟩
  · exact (execRegBulkMember_accepted hc hb).trans (lookupMember_unknown p hnone)
  · exact (execRegBulkMember_accepted hc hb).trans (lookupMember_past hbd hp)
  · have htables := tablesOk_of_wf hc
    obtain ⟨d, hat⟩ := Option.ne_none_iff_exists'.mp (sensorAt_member_ne_none hc hbd hid)
    have hd : (id, d) ∈ s.cfg.sensors := (sensorAt_eq_some_iff htables).mp hat
    have hp : BitVec.ofNat 32 p = s.arg1 := by rw [BitVec.ofNat_toNat, BitVec.setWidth_eq]
    refine ⟨d, hd, ?_⟩
    rw [← toNat_descScalar_of_mem htables hd, BitVec.ofNat_toNat, BitVec.setWidth_eq]
    refine (execRegBulkMember_accepted hc hb).trans
      ((lookupMember_found (s := s.acceptMark (opcode .regBulkMember)) hbd hid hat).trans ?_)
    rw [hp]
    rfl

/-! ### The two lookups agree (R168) -/

/-- A lookup by name that ends without an error found a descriptor and shows it. -/
theorem execRegByName_found (hb : s.busy = false) (h : execRegByName s = .next t) (herr : t.err = false) :
    ∃ name w, name.length ≤ 32 ∧ descriptorNamed s.cfg name = some w ∧
      t = (s.acceptMark (opcode .regByName)).showDescriptor w name := by
  obtain ⟨-, ⟨hbusy, -⟩ | ⟨-, ht⟩⟩ := accept_next h
  · rw [hb] at hbusy
    cases hbusy
  · split at ht
    · cases ht
      cases herr
    · next hrange =>
      obtain ⟨name, hread, ht⟩ := withBytes_next ht
      have hle : name.length ≤ 32 := by
        rw [abufBytes_length hread]
        simp only [Bool.or_eq_true, decide_eq_true_eq, not_or] at hrange
        omega
      cases ht
      cases hw : descriptorNamed s.cfg name with
      | none =>
        rw [lookupByName_unknown (s := s.acceptMark (opcode .regByName)) hw] at herr
        cases herr
      | some w => exact ⟨name, w, hle, hw, lookupByName_found hw⟩

/-- The operand "bits 7:0" of a register written with a byte is the byte (30_encoding.md R113). -/
theorem lowByte_setWidth (b : Byte) : lowByte (b.setWidth 32) = b := by
  ext i hi
  have hword : i < 32 := by omega
  simp [lowByte, hi, hword]

/-- Settles O32: a found word with bit 31 clear is a scalar entry's, its bits 7:0 are the entry's id, and the id finds the entry
again. -/
theorem lookupByNameAndByIdAgree : Obligations.LookupByNameAndByIdAgree := by
  intro s t hc _ hb h herr hkind
  obtain ⟨name, w, hle, hfound, rfl⟩ := execRegByName_found hb h herr
  obtain ⟨id, d, hd, rfl, rfl⟩ | ⟨b, bd, -, -, rfl⟩ := (descriptorNamed_eq_some_iff (tablesOk_of_wf hc)).mp hfound
  · have hid : lowByte (((descScalar id d).extractLsb' 0 8).setWidth 32) = id :=
      (lowByte_setWidth _).trans (extractLsb'_descScalar_id id d)
    refine ⟨_, exec_regById_found ?_ rfl hid hd, rfl, rfl, rfl, fun k => ?_⟩
    · exact hc
    · exact (readReg_nbuf_showDescriptor _ _ hle k).trans (readReg_nbuf_showDescriptor _ _ hle k).symm
  · cases (getLsbD_descBulk_kind b bd).symm.trans hkind

/-! ### What a registry operation leaves as it was -/

theorem exec_registryEnds {i : Instr} (hi : isRegistry i = true) (h : exec i s = .next t) : RegistryEnds i s t := by
  cases i with
  | regById => exact execRegById_next h
  | regByName => exact execRegByName_next h
  | regBulkMember => exact execRegBulkMember_next h
  | encDrive | encDrivePwm | encMotorsPwm | encDisplayAscii | encDefineSong | encLeds | encMotors | encButtons | encBaud
  | encQueryList | decDecode | dynNormalize | dynUpdate | dynReset => cases hi

/-- A registry operation writes STATUS, RES0, RES1, the name register and what is in flight alone. -/
theorem RegistryEnds.frame {i : Instr} (h : RegistryEnds i s t) :
    t = { s with
      op := t.op, done := t.done, err := t.err, ecode := t.ecode, ovr := t.ovr, marks := t.marks, cur := t.cur
      dstate := t.dstate, txpend := t.txpend, res0 := t.res0, res1 := t.res1, nameLen := t.nameLen, name := t.name } := by
  cases h with
  | dropped hb ht => rw [ht]; rfl
  | failed hb e ht => rw [ht]; rfl
  | failedNameless hb e ht => rw [ht]; rfl
  | found hb a b ht => rw [ht]; rfl
  | named hb a b name ht => rw [ht]; rfl

/-- Only a dropped operation sets OVR (60_exceptions.md R337). -/
theorem RegistryEnds.ovr_kept {i : Instr} (h : RegistryEnds i s t) (hb : s.busy = false) :
    t.ovr = s.ovr ∧ t.marks = s.marks := by
  cases h with
  | dropped hbusy ht =>
    rw [hb] at hbusy
    cases hbusy
  | failed hb e ht => subst ht; exact ⟨rfl, rfl⟩
  | failedNameless hb e ht => subst ht; exact ⟨rfl, rfl⟩
  | found hb a b ht => subst ht; exact ⟨rfl, rfl⟩
  | named hb a b name ht => subst ht; exact ⟨rfl, rfl⟩

/-- REG_BULK_MEMBER has no name to give (R166). -/
theorem lookupMember_name {b p : Nat} (h : lookupMember s b p = .next t) : t.nameLen = s.nameLen ∧ t.name = s.name := by
  unfold lookupMember at h
  split at h
  · cases h; exact ⟨rfl, rfl⟩
  · split at h
    · cases h; exact ⟨rfl, rfl⟩
    · split at h
      · cases h
      · cases h; exact ⟨rfl, rfl⟩

theorem execRegBulkMember_name (h : execRegBulkMember s = .next t) : t.nameLen = s.nameLen ∧ t.name = s.name := by
  obtain ⟨-, ⟨-, rfl⟩ | ⟨-, ht⟩⟩ := accept_next h
  · exact ⟨rfl, rfl⟩
  · exact lookupMember_name (s := s.acceptMark (opcode .regBulkMember)) ht

/-- Settles O33: the frame of the five forms in which a registry operation ends. -/
theorem registryFrame : Obligations.RegistryFrame := by
  intro i s t hi h
  have hends := exec_registryEnds hi h
  have hname : i = .regBulkMember → t.nameLen = s.nameLen ∧ t.name = s.name := by
    rintro rfl
    exact execRegBulkMember_name h
  have hovr := hends.ovr_kept
  rw [hends.frame]
  exact ⟨⟨rfl, rfl, rfl⟩, ⟨rfl, rfl⟩, ⟨rfl, rfl, rfl⟩, ⟨rfl, rfl, rfl⟩, ⟨rfl, rfl, rfl, rfl, rfl⟩, ⟨rfl, rfl, rfl, rfl⟩,
    hname, ⟨rfl, rfl⟩, hovr, ⟨rfl, rfl, rfl⟩, rfl, fun _ => rfl⟩

end Sys2Proof.Machine
end

section
/-!
PROOFS. The parameters and the transport (00_scope.md R10, 40_registry.md R163, 20_memory.md R95 to R100): which turn changes what of
RXQ, TERR and TXOUT, and that none changes the parameters.
-/

namespace Sys2Proof.Machine

variable {s t : State}

/-! ### What keeps the transport -/

/-- The parameters and the transport's state are as they were. -/
structure TransportKept (s t : State) : Prop where
  cfg : t.cfg = s.cfg
  rxq : t.rxq = s.rxq
  terr : t.terr = s.terr
  txout : t.txout = s.txout

theorem TransportKept.refl (s : State) : TransportKept s s := ⟨rfl, rfl, rfl, rfl⟩

theorem TransportKept.trans {u : State} (h : TransportKept s u) (h' : TransportKept u t) : TransportKept s t :=
  ⟨h'.cfg.trans h.cfg, h'.rxq.trans h.rxq, h'.terr.trans h.terr, h'.txout.trans h.txout⟩

theorem Worked.transportKept {o : Option Instr} (h : Worked o s t) : TransportKept s t := by
  rw [h.frame]
  exact ⟨rfl, rfl, rfl, rfl⟩

/-- No CMD write touches the transport: an encoder's accept leaves its bytes in TXPEND (41_command_encoder.md R180). -/
theorem OpEnds.transportKept {o : Option Instr} (h : OpEnds o s t) : TransportKept s t := by
  cases h with
  | dropped hb ht => subst ht; exact ⟨rfl, rfl, rfl, rfl⟩
  | launched i seq _ hb he hseq ht => subst ht; exact ⟨rfl, rfl, rfl, rfl⟩
  | begun _ hb ht => subst ht; exact ⟨rfl, rfl, rfl, rfl⟩
  | completed u hb hu ht => subst ht; exact hu.transportKept.trans ⟨rfl, rfl, rfl, rfl⟩
  | failed u code i0 i1 hb hu hc ht => subst ht; exact hu.transportKept.trans ⟨rfl, rfl, rfl, rfl⟩

theorem writeReg_transportKept {w : Word} {r : Reg} (h : writeReg s w r = .next t) : TransportKept s t := by
  obtain ⟨-, ht⟩ | ⟨-, rfl⟩ | ⟨-, rfl⟩ | ⟨-, rfl⟩ | ⟨-, rfl⟩ | ⟨_, -, rfl⟩ | rfl := writeReg_next h
  · exact (writeCmd_ends ht).transportKept
  all_goals exact ⟨rfl, rfl, rfl, rfl⟩

/-- The HOST sees the transport through PYRB alone. -/
theorem hostStep_transportKept (h : hostStep s = .next t) : TransportKept s t := by
  unfold hostStep at h
  split at h
  · cases h; exact .refl s
  · obtain ⟨-, ⟨-, rfl⟩ | ⟨-, v, -, rfl⟩⟩ := hostRead_next h
    · exact ⟨rfl, rfl, rfl, rfl⟩
    · exact ⟨rfl, rfl, rfl, rfl⟩
  · obtain ⟨-, ⟨-, rfl⟩ | ⟨-, ht⟩⟩ := hostWrite_next h
    · exact ⟨rfl, rfl, rfl, rfl⟩
    · obtain ⟨hcfg, hrxq, hterr, htxout⟩ := writeReg_transportKept ht
      exact ⟨hcfg, hrxq, hterr, htxout⟩
  · cases h; exact ⟨rfl, rfl, rfl, rfl⟩

/-! ### What a PYRB step does to RXQ and TXOUT -/

/-- A byte step takes the head of RXQ, or leaves it (20_memory.md R96). -/
theorem byteStep_rxq {k : State → Byte → State} (hk : ∀ u b, (k u b).rxq = u.rxq) (s : State) :
    (byteStep s k).rxq = s.rxq ∨ ∃ b, s.rxq = b :: (byteStep s k).rxq := by
  obtain ⟨b, rest, hq, ht⟩ | ⟨c, -, -, ht⟩ | ⟨-, -, ht⟩ := byteStep_cases s k
  · exact .inr ⟨b, by rw [ht, hk, hq]⟩
  · exact .inl (by rw [ht]; rfl)
  · exact .inl (by rw [ht])

theorem seekByte_rxq (s : State) (b : Byte) : (seekByte s b).rxq = s.rxq := by
  unfold seekByte
  split <;> rfl

theorem finishParse_rxq (s : State) (p : Vector Entry 127 × Verdict) : (finishParse s p).rxq = s.rxq := by
  unfold finishParse
  split <;> rfl

theorem handoffStep_rxq (s : State) : (handoffStep s).rxq = s.rxq := by
  obtain ⟨-, ht⟩ | ⟨seq, c, -, -, ht⟩ | ⟨seq, -, -, ht⟩ := handoffStep_cases s
  · rw [ht]
  · rw [ht]; rfl
  · rw [ht]; rfl

/-- How a PYRB step may change RXQ: a byte state takes its head, or a checksum failure flushes it (20_memory.md R96, R98). -/
def TakesOrFlushes (s t : State) : Prop :=
  (∃ b, s.rxq = b :: t.rxq ∧ (s.dstate = .seek ∨ s.dstate = .len ∨ s.dstate = .body)) ∨
    (t.rxq = [] ∧ s.dstate = .validate ∧ s.sum ≠ 0)

theorem pyrbStep_rxq (s : State) : (pyrbStep s).rxq = s.rxq ∨ TakesOrFlushes s (pyrbStep s) := by
  have takes : ∀ {k : State → Byte → State}, (∀ u b, (k u b).rxq = u.rxq) →
      (s.dstate = .seek ∨ s.dstate = .len ∨ s.dstate = .body) →
      (byteStep s k).rxq = s.rxq ∨ TakesOrFlushes s (byteStep s k) := fun hk hd =>
    (byteStep_rxq hk s).imp_right fun ⟨b, hb⟩ => .inl ⟨b, hb, hd⟩
  unfold pyrbStep
  split
  · exact .inl (handoffStep_rxq s)
  · next hd => exact takes seekByte_rxq (.inl hd)
  · next hd => exact takes (k := lenByte) (fun _ _ => rfl) (.inr (.inl hd))
  · next hd => exact takes (k := bodyByte) (fun _ _ => rfl) (.inr (.inr hd))
  · next hd =>
    obtain ⟨hsum, ht⟩ | ⟨-, ht⟩ := validateStep_cases s
    · exact .inr (.inr ⟨by rw [ht]; rfl, hd, hsum⟩)
    · exact .inl (by rw [ht, finishParse_rxq])

/-- A PYRB step appends to TXOUT or leaves it (41_command_encoder.md R180). -/
theorem PyrbEnds.txout_prefix (h : PyrbEnds s t) : s.txout <+: t.txout := by
  cases h with
  | held ht => rw [ht]
  | handed seq hd ht => subst ht; exact List.prefix_append s.txout seq
  | tookByte hd hd' ht => rw [ht]
  | parsed u hd hd' hu ht => subst ht; rw [hu]; exact List.prefix_rfl
  | failed u code i0 i1 hu hc ht => subst ht; rw [hu]; exact List.prefix_rfl

/-! ### What each turn does (R95 to R100, R362) -/

/-- The rules of the parameters and the transport for a step from s to t by this turn, if one is scheduled. -/
structure TransportRules (turn : Option Turn) (s t : State) : Prop where
  cfg : t.cfg = s.cfg
  terr : t.terr ≠ s.terr → turn = some (.error t.terr)
  error : ∀ c, turn = some (.error c) → t.terr = c
  arrive : ∀ b, turn = some (.arrive b) → t.rxq = s.rxq ++ [b]
  rxq : t.rxq ≠ s.rxq → (∃ b, turn = some (.arrive b)) ∨ turn = some .pyrb ∧ TakesOrFlushes s t
  txout : s.txout <+: t.txout
  rst : turn = some .rst → t.rxq = s.rxq ∧ t.txout = s.txout

/-- A turn that is no TRANSPORT step and keeps the transport. -/
theorem TransportKept.rules {turn : Option Turn} (h : TransportKept s t) (herror : ∀ c, turn ≠ some (.error c))
    (harrive : ∀ b, turn ≠ some (.arrive b)) : TransportRules turn s t where
  cfg := h.cfg
  terr := absurd h.terr
  error c hc := absurd hc (herror c)
  arrive b hb := absurd hb (harrive b)
  rxq := absurd h.rxq
  txout := by rw [h.txout]
  rst _ := ⟨h.rxq, h.txout⟩

theorem pyrbStep_transportRules (s : State) : TransportRules (some .pyrb) s (pyrbStep s) where
  cfg := by rw [(pyrbStep_ends s).frame]
  terr := absurd (by rw [(pyrbStep_ends s).frame])
  error := nofun
  arrive := nofun
  rxq hq := .inr ⟨rfl, (pyrbStep_rxq s).resolve_left hq⟩
  txout := (pyrbStep_ends s).txout_prefix
  rst := nofun

theorem runTurn_transportRules {turn : Turn} (h : runTurn turn s = .next t) : TransportRules (some turn) s t := by
  cases turn with
  | host => exact (hostStep_transportKept h).rules nofun nofun
  | pyrb => cases h; exact pyrbStep_transportRules s
  | arrive b =>
    cases h
    exact ⟨rfl, absurd rfl, nofun, fun _ hb => by cases hb; rfl, fun _ => .inl ⟨b, rfl⟩, List.prefix_rfl, nofun⟩
  | error c =>
    cases h
    exact ⟨rfl, fun _ => rfl, fun _ hc => by cases hc; rfl, nofun, absurd rfl, List.prefix_rfl, nofun⟩
  | rst => cases h; exact TransportKept.rules ⟨rfl, rfl, rfl, rfl⟩ nofun nofun

theorem step_transportRules (h : step s = .next t) : TransportRules s.turns.head? s t := by
  obtain ⟨hs, rfl⟩ | ⟨turn, ts, hs, -, ht⟩ := step_next h
  · rw [hs]
    exact (TransportKept.refl t).rules nofun nofun
  · rw [hs]
    obtain ⟨hcfg, hterr, herror, harrive, hrxq, htxout, hrst⟩ := runTurn_transportRules ht
    exact ⟨hcfg, hterr, herror, harrive, hrxq, htxout, hrst⟩

/-- Settles O49: each turn keeps the rules, and the turn taken is the head of the schedule. -/
theorem parametersAndTransportAreKept : Obligations.ParametersAndTransportAreKept := by
  intro s t h
  obtain ⟨hcfg, hterr, herror, harrive, hrxq, htxout, hrst⟩ := step_transportRules h
  exact ⟨hcfg, hterr, herror, harrive, hrxq, htxout, fun hr => hrst (of_decide_eq_true hr)⟩

end Sys2Proof.Machine
end

section
/-!
PROOFS. The life of an encoder operation (41_command_encoder.md R180), the operations whose sequence is known from their registers
(R182 to R184, R187 to R190), and the frame of all ten.
-/

namespace Sys2Proof.Machine

variable {s t : State} {i : Instr}

/-! ### The life of an encoder operation (R180) -/

/-- In IDLE the enabled step of PYRB is the handoff (20_memory.md R99). -/
theorem pyrbStep_idle (hd : s.dstate = .idle) : pyrbStep s = handoffStep s := by
  simp only [pyrbStep, hd]

/-- A pending sequence is handed to a transport that shows no error. -/
theorem handoffStep_sent {seq : List Byte} (hx : s.txpend = some seq) (ht : s.terr = none) :
    handoffStep s =
      { s with txout := s.txout ++ seq, txpend := none, res0 := BitVec.ofNat 32 seq.length }.complete := by
  simp only [handoffStep, hx, ht]

/-- A transport error ends the operation whose sequence is pending. -/
theorem handoffStep_failed {seq : List Byte} {c : TransportCode} (hx : s.txpend = some seq) (ht : s.terr = some c) :
    handoffStep s = s.raise .transport c.val.toNat seq.length := by
  simp only [handoffStep, hx, ht]

/-- An accept that launches a sequence begins an encoder operation's life: R56 has the decoder idle, so the handoff comes next. -/
theorem encoderRuns_of_launch {seq : List Byte} (hinv : InFlightInv s) (hb : s.busy = false)
    (h : exec i s = .next ((s.acceptMark (opcode i)).launch i seq)) : EncoderRuns i s seq := by
  obtain ⟨hd, -⟩ := hinv.phase.of_not_busy hb
  have hd' : ((s.acceptMark (opcode i)).launch i seq).dstate = .idle := hd
  have hx : ((s.acceptMark (opcode i)).launch i seq).txpend = some seq := rfl
  refine ⟨_, h, rfl, fun ht => ?_, fun c ht => ?_⟩
  · exact (pyrbStep_idle hd').trans (handoffStep_sent hx ht)
  · rw [pyrbStep_idle hd', handoffStep_failed hx ht, State.raise, ← hd]
    rfl

/-! ### Motion commands (R182 to R184) -/

/-- The radius field is the sentinel's two bytes at +32768 alone (R182). -/
theorem be16_driveRadius (w : Word) :
    be16 (driveRadius w.toInt) =
      if w = 0x00008000 then [0x80, 0x00] else be16 (clamp w.toInt (-2000) 2000) := by
  have hsentinel : w.toInt = 32768 ↔ w = 0x00008000 := BitVec.toInt_inj (y := 0x00008000)
  unfold driveRadius
  rw [apply_ite be16]
  exact if_congr hsentinel rfl rfl

/-- Settles O7: the radius field is the sentinel at +32768 alone, and the sequence is launched. -/
theorem encDriveSendsClampedSpeedAndRadius : Obligations.EncDriveSendsClampedSpeedAndRadius := by
  refine ⟨rfl, fun s hc hinv hb => ?_⟩
  rw [← be16_driveRadius]
  exact encoderRuns_of_launch hinv hb (accept_idle hc hb : execEncDrive s = _)

/-- Settles O8: the accept launches DRIVE_PWM's sequence, right wheel first. -/
theorem encDrivePwmSendsClampedWheels : Obligations.EncDrivePwmSendsClampedWheels :=
  ⟨rfl, fun s hc hinv hb => encoderRuns_of_launch hinv hb (accept_idle hc hb : execEncDrivePwm s = _)⟩

/-- Settles O9: the accept launches MOTORS_PWM's sequence, one byte per motor. -/
theorem encMotorsPwmSendsClampedBytes : Obligations.EncMotorsPwmSendsClampedBytes :=
  ⟨rfl, fun s hc hinv hb => encoderRuns_of_launch hinv hb (accept_idle hc hb : execEncMotorsPwm s = _)⟩

/-! ### Bit-flag commands (R187 to R190) -/

/-- The bit of one flag in the status byte: its position's, if it is set. -/
theorem getLsbD_flagBit (isSet : Bool) (pos j : Fin 8) :
    (if isSet then (1 : Byte) <<< pos.val else 0).getLsbD j.val = true ↔ pos = j ∧ isSet = true := by
  revert isSet pos j
  decide

/-- From flag index `first` on, bit j is set exactly when j is the position of a set flag. -/
theorem getLsbD_flagByteFrom (flags : Byte) (first : Nat) (positions : List (Fin 8)) (j : Fin 8) :
    (flagByteFrom flags first positions).getLsbD j.val = true ↔
      ∃ n, positions[n]? = some j ∧ flags.getLsbD (first + n) = true := by
  induction positions generalizing first with
  | nil => simp [flagByteFrom]
  | cons pos rest ih =>
    rw [flagByteFrom, BitVec.getLsbD_or, Bool.or_eq_true, getLsbD_flagBit, ih]
    refine Iff.trans ?_ Nat.or_exists_add_one
    simp [Nat.add_assoc, Nat.add_comm 1]

/-- FLAGBYTE takes the low eight bits of the operand, so a flag past them is never set (R190). -/
theorem getLsbD_flagByte_lowByte (positions : List (Fin 8)) (w : Word) (j : Fin 8) :
    (flagByte positions (lowByte w)).getLsbD j.val = true ↔
      ∃ n, n < 8 ∧ positions[n]? = some j ∧ w.getLsbD n = true := by
  have hlow : ∀ n, (lowByte w).getLsbD n = true ↔ n < 8 ∧ w.getLsbD n = true := fun n => by
    simp [lowByte, BitVec.getLsbD_extractLsb']
  rw [flagByte, getLsbD_flagByteFrom]
  refine exists_congr fun n => ?_
  rw [Nat.zero_add, hlow]
  tauto

/-- A bit-flag command launched with FLAGBYTE of its positions sends a status byte as R190 says. -/
theorem statusByte_of_launch (hinv : InFlightInv s) (hb : s.busy = false) {opc : Byte} {positions : List (Fin 8)}
    (h : exec i s = .next ((s.acceptMark (opcode i)).launch i [opc, flagByte positions (lowByte s.arg0)])) :
    ∃ status : Byte, EncoderRuns i s [opc, status] ∧
      ∀ j : Fin 8, status.getLsbD j.val = true ↔ ∃ n, n < 8 ∧ positions[n]? = some j ∧ s.arg0.getLsbD n = true :=
  ⟨_, encoderRuns_of_launch hinv hb h, getLsbD_flagByte_lowByte positions s.arg0⟩

/-- Settles O13: each of the three commands launches FLAGBYTE of its own positions, whose bits are the set flags'. -/
theorem bitFlagCommandsSendOneStatusByte : Obligations.BitFlagCommandsSendOneStatusByte := by
  refine ⟨rfl, rfl, rfl, fun s hc hinv hb row hrow => ?_⟩
  simp only [List.mem_cons, List.not_mem_nil, or_false] at hrow
  obtain rfl | rfl | rfl := hrow
  · exact statusByte_of_launch hinv hb (accept_idle hc hb : execEncLeds s = _)
  · exact statusByte_of_launch hinv hb (accept_idle hc hb : execEncMotors s = _)
  · exact statusByte_of_launch hinv hb (accept_idle hc hb : execEncButtons s = _)

/-! ### What an encoder operation leaves as it was -/

theorem exec_encoderEnds (hi : isEncoder i = true) (h : exec i s = .next t) : EncoderEnds i s t := by
  cases i with
  | encDrive => exact execEncDrive_next h
  | encDrivePwm => exact execEncDrivePwm_next h
  | encMotorsPwm => exact execEncMotorsPwm_next h
  | encDisplayAscii => exact execEncDisplayAscii_next h
  | encDefineSong => exact execEncDefineSong_next h
  | encLeds => exact execEncLeds_next h
  | encMotors => exact execEncMotors_next h
  | encButtons => exact execEncButtons_next h
  | encBaud => exact execEncBaud_next h
  | encQueryList => exact execEncQueryList_next h
  | decDecode | regById | regByName | regBulkMember | dynNormalize | dynUpdate | dynReset => cases hi

/-- An encoder operation writes STATUS, RES0, RES1 and what is in flight alone. -/
theorem EncoderEnds.frame (h : EncoderEnds i s t) :
    t = { s with
      op := t.op, done := t.done, err := t.err, ecode := t.ecode, ovr := t.ovr, marks := t.marks, cur := t.cur
      dstate := t.dstate, txpend := t.txpend, res0 := t.res0, res1 := t.res1 } := by
  cases h with
  | dropped hb ht => rw [ht]; rfl
  | launched hb seq ht => rw [ht]; rfl
  | failed hb e ht => rw [ht]; rfl

/-- Only a failure writes RES0 and RES1 (R180). -/
theorem EncoderEnds.results_kept (h : EncoderEnds i s t) (herr : t.err = false) : t.res0 = s.res0 ∧ t.res1 = s.res1 := by
  cases h with
  | dropped hb ht => subst ht; exact ⟨rfl, rfl⟩
  | launched hb seq ht => subst ht; exact ⟨rfl, rfl⟩
  | failed hb e ht => subst ht; cases herr

/-- Only a dropped operation sets OVR (60_exceptions.md R337). -/
theorem EncoderEnds.ovr_kept (h : EncoderEnds i s t) (hb : s.busy = false) : t.ovr = s.ovr ∧ t.marks = s.marks := by
  cases h with
  | dropped hbusy ht => cases hb.symm.trans hbusy
  | launched hb seq ht => subst ht; exact ⟨rfl, rfl⟩
  | failed hb e ht => subst ht; exact ⟨rfl, rfl⟩

/-- Settles O17: the frame of the three forms in which an encoder operation's accept ends. -/
theorem encoderAcceptFrame : Obligations.EncoderAcceptFrame := by
  intro i s t hi h
  have hends := exec_encoderEnds hi h
  have hres := hends.results_kept
  have hovr := hends.ovr_kept
  rw [hends.frame]
  exact ⟨⟨rfl, rfl, rfl⟩, ⟨rfl, rfl⟩, hres, ⟨rfl, rfl, rfl⟩, ⟨rfl, rfl, rfl⟩, ⟨rfl, rfl, rfl, rfl, rfl⟩,
    ⟨rfl, rfl, rfl, rfl⟩, ⟨rfl, rfl⟩, ⟨rfl, rfl⟩, hovr, ⟨rfl, rfl, rfl⟩, fun _ => rfl⟩

end Sys2Proof.Machine
end

section
/-!
PROOFS. The encoder operations that read ABUF or a table (41_command_encoder.md R185, R186, R191, R192): the sequence each sends,
and the error each fails with.
-/

namespace Sys2Proof.Machine

variable {s : State} {c : Config}

/-! ### DISPLAY_ASCII (R185) -/

/-- Upper-casing takes 0x20 off the number of a letter a..z. -/
theorem upper_eq (b : Byte) :
    upper b = if 0x61 ≤ b.toNat ∧ b.toNat ≤ 0x7A then BitVec.ofNat 8 (b.toNat - 0x20) else b := by
  unfold upper
  split
  · next hletter => exact BitVec.eq_of_toNat_eq (by simp; omega)
  · rfl

theorem execEncDisplayAscii_read (hc : s.cfg.wf = true) (hb : s.busy = false) {text : List Byte}
    (hlen : text.length = min s.arg0.toNat 4) (h : AbufHolds s 0 text) :
    let u := s.acceptMark (opcode .encDisplayAscii)
    execEncDisplayAscii s = .next (u.launch .encDisplayAscii (displaySeq u.cfg text)) := by
  have hread : abufBytes (s.acceptMark (opcode .encDisplayAscii)) 0 (min s.arg0.toNat 4) = .ok text := by
    rw [← hlen]
    exact abufBytes_of_abufHolds h
  exact (accept_idle hc hb).trans (congrArg (withBytes · _) hread)

/-- Settles O11: the bytes read are the text, and upper-casing is as R185 says. -/
theorem encDisplayAsciiSendsFourCharacters : Obligations.EncDisplayAsciiSendsFourCharacters := by
  refine ⟨rfl, fun s text hc hinv hb hlen h => ?_⟩
  simp only [← upper_eq]
  exact encoderRuns_of_launch hinv hb (execEncDisplayAscii_read hc hb hlen h)

/-! ### DEFINE_SONG (R186) -/

/-- R186's loop over the indices sends the pairs of the two lists. -/
theorem interleave_eq_flatMap_zip (notes durs : List Byte) :
    interleave notes durs = (notes.zip durs).flatMap fun p => [p.1, p.2] := by
  induction notes generalizing durs with
  | nil => rfl
  | cons note notes ih =>
    cases durs with
    | nil => rfl
    | cons dur durs => simp [interleave, ih]

/-- Counts that differ, and counts the u8 field cannot hold, fail with the same ARG. -/
theorem execEncDefineSong_badCounts (hc : s.cfg.wf = true) (hb : s.busy = false)
    (hbad : s.arg1 ≠ s.arg2 ∨ 255 < s.arg1.toNat) :
    execEncDefineSong s = .next (failedAtAccept .encDefineSong s .arg s.arg1.toNat s.arg2.toNat) := by
  refine (accept_idle hc hb).trans ?_
  by_cases hne : s.arg1.toNat = s.arg2.toNat
  · have hlarge : 255 < s.arg1.toNat := hbad.resolve_left (not_not.mpr (BitVec.eq_of_toNat_eq hne))
    exact (if_neg (not_not.mpr hne)).trans (if_pos hlarge)
  · exact if_pos hne

theorem execEncDefineSong_read (hc : s.cfg.wf = true) (hb : s.busy = false) (heq : s.arg1 = s.arg2)
    (hle : s.arg1.toNat ≤ 255) {notes durs : List Byte} (hnotes : notes.length = s.arg1.toNat)
    (hdurs : durs.length = s.arg2.toNat) (hn : AbufHolds s 0 notes) (hd : AbufHolds s 256 durs) :
    let u := s.acceptMark (opcode .encDefineSong)
    execEncDefineSong s = .next (u.launch .encDefineSong (songSeq u.cfg (lowByte u.arg0) notes durs)) := by
  have hreadNotes : abufBytes (s.acceptMark (opcode .encDefineSong)) 0 s.arg1.toNat = .ok notes := by
    rw [← hnotes]
    exact abufBytes_of_abufHolds hn
  have hreadDurs : abufBytes (s.acceptMark (opcode .encDefineSong)) 256 s.arg1.toNat = .ok durs := by
    rw [heq, ← hdurs]
    exact abufBytes_of_abufHolds hd
  rw [execEncDefineSong_reads hc hb heq hle, hreadNotes, hreadDurs]
  rfl

/-- Settles O12: the counts are checked, and the bytes read are paired. -/
theorem encDefineSongSendsPairs : Obligations.EncDefineSongSendsPairs := by
  refine ⟨rfl, fun s hc hinv hb => ⟨fun hne => execEncDefineSong_badCounts hc hb (.inl hne),
    fun hlarge => execEncDefineSong_badCounts hc hb (.inr hlarge), ?_⟩⟩
  intro notes durs heq hle hnotes hdurs hn hd
  have hcount : s.arg1.extractLsb' 0 8 = BitVec.ofNat 8 notes.length := by
    rw [hnotes]
    rfl
  rw [hcount, ← interleave_eq_flatMap_zip]
  exact encoderRuns_of_launch hinv hb (execEncDefineSong_read hc hb heq hle hnotes hdurs hn hd)

/-! ### BAUD (R191) -/

/-- In a legal configuration no rate is listed twice (00_scope.md R10). -/
theorem nodup_rates_of_wf (hc : c.wf = true) : (c.baud.map Prod.fst).Nodup := by
  simp only [Config.wf, Bool.and_eq_true, Config.baudOk, decide_eq_true_eq] at hc
  tauto

/-- The lookup of a listed rate finds its code. -/
theorem baudSeq_listed (hc : c.wf = true) {rate : Word} {code : Byte} (h : (rate, code) ∈ c.baud) :
    baudSeq c rate = .ok [c.wireOpc.baud, code] := by
  have hlookup : c.baud.lookup rate = some code := by
    cases hat : c.baud.lookup rate with
    | none => exact absurd (List.lookup_eq_none_iff.mp hat _ h) (by simp)
    | some code' =>
      obtain ⟨before, after, htable, -⟩ := List.lookup_eq_some_iff.mp hat
      have hmem : (rate, code') ∈ c.baud := by simp [htable]
      simpa using List.inj_on_of_nodup_map (nodup_rates_of_wf hc) hmem h rfl
  simp only [baudSeq, hlookup]

theorem baudSeq_unlisted {rate : Word} (h : ∀ code : Byte, (rate, code) ∉ c.baud) :
    baudSeq c rate = .error ⟨.config, rate.toNat, 0⟩ := by
  have hlookup : c.baud.lookup rate = none :=
    List.lookup_eq_none_iff.mpr fun p hp => by
      have hne : rate ≠ p.1 := fun heq => h p.2 (heq ▸ hp)
      simpa using hne
  simp only [baudSeq, hlookup]

theorem execEncBaud_accepted (hc : s.cfg.wf = true) (hb : s.busy = false) :
    execEncBaud s = .next (launchOrRaise .encBaud (s.acceptMark (opcode .encBaud)) (baudSeq s.cfg s.arg0)) :=
  accept_idle hc hb

/-- Settles O14: the rate is looked up, and the sequence is launched or the error raised. -/
theorem encBaudSendsCodeOrFails : Obligations.EncBaudSendsCodeOrFails := by
  refine ⟨rfl, fun s hc hinv hb => ?_⟩
  have hrun : exec .encBaud s = _ := execEncBaud_accepted hc hb
  constructor
  · intro code hcode
    rw [baudSeq_listed hc hcode] at hrun
    exact encoderRuns_of_launch hinv hb hrun
  · intro hnone
    rw [baudSeq_unlisted hnone] at hrun
    exact hrun

/-! ### QUERY_LIST (R192, 40_registry.md R169) -/

/-- The error of a reference that stands for no id, by its kind (R169). -/
def refError (index : Nat) (k x : Byte) : OpError :=
  if k = 0 then ⟨.unknownSensor, x.toNat, index⟩
  else if k = 1 then ⟨.unknownSensor, 256 + x.toNat, index⟩
  else ⟨.arg, k.toNat, index⟩

/-- A reference expands to the ids it stands for; one that stands for none is the error of its kind. -/
theorem expandRef_eq (c : Config) (index : Nat) (k x : Byte) :
    expandRef c index k x = (refIds c (k, x)).elim (.error (refError index k x)) .ok := by
  have hbulkCode : 0x100 ||| x.toNat = 256 + x.toNat := or_eq_add_of_dvd_of_lt 8 (by decide) x.isLt
  unfold expandRef refIds refError
  by_cases hscalar : k = 0
  · simp only [if_pos hscalar]
    cases sensorAt c x <;> rfl
  · by_cases hbulk : k = 1
    · simp only [if_neg hscalar, if_pos hbulk, hbulkCode]
      cases bulkAt c x.toNat <;> rfl
    · simp only [if_neg hscalar, if_neg hbulk, Option.elim_none]

/-- References that all stand for ids expand to them in order. -/
theorem expandFrom_ok {refs : List (Byte × Byte)} (index : Nat) (h : ∀ r ∈ refs, refIds c r ≠ none) :
    expandFrom c index refs = .ok (refs.flatMap fun r => (refIds c r).getD []) := by
  induction refs generalizing index with
  | nil => rfl
  | cons r refs ih =>
    obtain ⟨k, x⟩ := r
    obtain ⟨hr, hrefs⟩ := List.forall_mem_cons.mp h
    obtain ⟨ids, hids⟩ := Option.ne_none_iff_exists'.mp hr
    simp only [expandFrom, expandRef_eq, hids, Option.elim_some, ih (index + 1) hrefs, List.flatMap_cons, Option.getD_some]

/-- The first reference that stands for no id decides the error. -/
theorem expandFrom_error {refs : List (Byte × Byte)} (index : Nat) {j : Nat} {k x : Byte} (hj : refs[j]? = some (k, x))
    (hnone : refIds c (k, x) = none) (hbefore : ∀ i r, i < j → refs[i]? = some r → refIds c r ≠ none) :
    expandFrom c index refs = .error (refError (index + j) k x) := by
  induction refs generalizing index j with
  | nil => cases hj
  | cons r refs ih =>
    cases j with
    | zero =>
      obtain rfl : r = (k, x) := by simpa using hj
      simp only [expandFrom, expandRef_eq, hnone, Option.elim_none, Nat.add_zero]
    | succ j =>
      obtain ⟨k', x'⟩ := r
      obtain ⟨ids, hids⟩ := Option.ne_none_iff_exists'.mp (hbefore 0 _ j.succ_pos rfl)
      have hrest := ih (index + 1) hj fun i r hi => hbefore (i + 1) r (Nat.succ_lt_succ hi)
      simp only [expandFrom, expandRef_eq, hids, Option.elim_some, hrest, Nat.add_assoc, Nat.add_comm 1]

/-- The references read back from their bytes (30_encoding.md R129). -/
theorem pairUp_flatMap (refs : List (Byte × Byte)) : pairUp (refs.flatMap fun r => [r.1, r.2]) = refs := by
  induction refs with
  | nil => rfl
  | cons r refs ih => simp [pairUp, ih]

theorem length_flatMap_pair (refs : List (Byte × Byte)) : (refs.flatMap fun r => [r.1, r.2]).length = 2 * refs.length := by
  simp [List.length_flatMap, Nat.mul_comm]

/-- More references than ABUF holds are refused before any byte of it is read. -/
theorem execEncQueryList_tooMany (hc : s.cfg.wf = true) (hb : s.busy = false) (h : 256 < s.arg0.toNat) :
    execEncQueryList s = .next (failedAtAccept .encQueryList s .arg s.arg0.toNat 0) :=
  (accept_idle hc hb).trans (if_pos h)

theorem execEncQueryList_read (hc : s.cfg.wf = true) (hb : s.busy = false) {refs : List (Byte × Byte)}
    (hle : s.arg0.toNat ≤ 256) (hlen : refs.length = s.arg0.toNat) (h : AbufHolds s 0 (refs.flatMap fun r => [r.1, r.2])) :
    execEncQueryList s =
      .next (launchOrRaise .encQueryList (s.acceptMark (opcode .encQueryList)) (queryListSeq s.cfg refs)) := by
  have hread : abufBytes (s.acceptMark (opcode .encQueryList)) 0 (2 * s.arg0.toNat) =
      .ok (refs.flatMap fun r => [r.1, r.2]) := by
    rw [← hlen, ← length_flatMap_pair]
    exact abufBytes_of_abufHolds h
  refine (accept_idle hc hb).trans ((if_neg (Nat.not_lt.mpr hle)).trans ((congrArg (withBytes · _) hread).trans ?_))
  rw [withBytes, pairUp_flatMap]
  rfl

theorem queryListSeq_ok {refs : List (Byte × Byte)} {ids : List Byte} (h : expand c refs = .ok ids) :
    queryListSeq c refs =
      if ids.length ≤ 255 then .ok ([c.wireOpc.queryList, BitVec.ofNat 8 ids.length] ++ ids)
      else .error ⟨.arg, ids.length, 1⟩ := by
  simp only [queryListSeq, h, ← Nat.not_le, ite_not]

theorem queryListSeq_error {refs : List (Byte × Byte)} {e : OpError} (h : expand c refs = .error e) :
    queryListSeq c refs = .error e := by
  simp only [queryListSeq, h]

/-- The error a bad reference raises at the accept, by its kind. -/
theorem raiseError_refError (index : Nat) (k x : Byte) :
    (s.acceptMark (opcode .encQueryList)).raiseError (refError index k x) =
      if k = 0 then failedAtAccept .encQueryList s .unknownSensor x.toNat index
      else if k = 1 then failedAtAccept .encQueryList s .unknownSensor (256 + x.toNat) index
      else failedAtAccept .encQueryList s .arg k.toNat index := by
  unfold refError
  split
  · rfl
  · split <;> rfl

/-- Settles O15: the number of references is checked, they are read and expanded, and the number of ids is checked. -/
theorem encQueryListExpandsReferencesInOrder : Obligations.EncQueryListExpandsReferencesInOrder := by
  refine ⟨rfl, fun s hc hinv hb => ⟨execEncQueryList_tooMany hc hb, fun refs hle hlen h => ?_⟩⟩
  have hrun : exec .encQueryList s = _ := execEncQueryList_read hc hb hle hlen h
  constructor
  · intro j k x hj hnone hbefore
    have hexpand := expandFrom_error 0 hj hnone hbefore
    rw [Nat.zero_add] at hexpand
    rw [hrun, queryListSeq_error hexpand, ← raiseError_refError]
    rfl
  · intro hall ids
    rw [queryListSeq_ok (expandFrom_ok 0 hall)] at hrun
    split
    · next hfits =>
      rw [if_pos hfits] at hrun
      exact encoderRuns_of_launch hinv hb hrun
    · next hlong =>
      rw [if_neg hlong] at hrun
      exact hrun

end Sys2Proof.Machine
end

section
/-!
PROOFS. The stream decoder, step by step (42_stream_decoder.md R230 to R236, R241): its accept, what each state does with a
byte or without one, and the failing checksum.
-/

namespace Sys2Proof.Machine

variable {s t : State}

/-! ### The accept (R231) -/

/-- A buffer whose bytes all read 0 reads as the word 0. -/
theorem bufferWord_zero {byte : Nat → Byte} (h : ∀ i, byte i = 0) (k : Nat) : bufferWord byte k = 0 := by
  simp only [bufferWord, h]
  rfl

theorem fbufWord_of_not_valid (h : s.valid = false) (k : Nat) : s.fbufWord k = 0 := by
  simp only [State.fbufWord, fbufEntry_of_not_valid s h, ite_self]

theorem execDecDecode_idle (hc : s.cfg.wf = true) (hb : s.busy = false) :
    execDecDecode s = .next (s.acceptMark (opcode .decDecode)).beginDecode :=
  accept_idle hc hb

/-- Settles O18: the accept is mark and begin, and with VALID = 0 no byte and no entry is shown. -/
theorem decDecodeBeginsInSeek : Obligations.DecDecodeBeginsInSeek := by
  refine ⟨rfl, fun s hc hb => ⟨_, execDecDecode_idle hc hb, rfl, fun k => ?_, fun k => ?_⟩⟩
  · exact congrArg Except.ok (bufferWord_zero (pbufByte_of_not_valid _ rfl) k.val)
  · exact congrArg Except.ok (fbufWord_of_not_valid rfl k.val)

/-- Settles O28: the frame of the two forms in which a CMD write of DEC_DECODE ends. -/
theorem decDecodeAcceptFrame : Obligations.DecDecodeAcceptFrame := by
  intro s t h
  obtain ⟨hb, rfl⟩ | ⟨-, rfl⟩ := execDecDecode_next h
  · simp [hb]
  · simp

/-! ### The step of each state (R230) -/

theorem pyrbStep_seek (hd : s.dstate = .seek) : pyrbStep s = byteStep s seekByte := by
  simp only [pyrbStep, hd]

theorem pyrbStep_len (hd : s.dstate = .len) : pyrbStep s = byteStep s lenByte := by
  simp only [pyrbStep, hd]

theorem pyrbStep_body (hd : s.dstate = .body) : pyrbStep s = byteStep s bodyByte := by
  simp only [pyrbStep, hd]

theorem pyrbStep_validate (hd : s.dstate = .validate) : pyrbStep s = validateStep s := by
  simp only [pyrbStep, hd]

/-- The three states that need a byte take a byte step, and what they do with the byte has nothing to do with TERR. -/
theorem pyrbStep_byteState (hd : s.dstate = .seek ∨ s.dstate = .len ∨ s.dstate = .body) :
    ∃ k, (∀ u : State, u.dstate = s.dstate → pyrbStep u = byteStep u k) ∧
      ∀ (u : State) b c, k { u with terr := c } b = { k u b with terr := c } := by
  obtain hd | hd | hd := hd
  · refine ⟨seekByte, fun u hu => pyrbStep_seek (hu.trans hd), fun u b c => ?_⟩
    unfold seekByte
    split <;> rfl
  · exact ⟨lenByte, fun u hu => pyrbStep_len (hu.trans hd), fun _ _ _ => rfl⟩
  · exact ⟨bodyByte, fun u hu => pyrbStep_body (hu.trans hd), fun _ _ _ => rfl⟩

/-! ### A byte step with a byte buffered, and without (20_memory.md R96, R241) -/

variable {k : State → Byte → State}

theorem byteStep_cons {b : Byte} {rest : List Byte} (hq : s.rxq = b :: rest) :
    byteStep s k = k { s with rxq := rest } b := by
  simp only [byteStep, hq]

theorem byteStep_failed {c : TransportCode} (hq : s.rxq = []) (ht : s.terr = some c) :
    byteStep s k = s.raise .transport c.val.toNat (dstateBits s.dstate).toNat := by
  simp only [byteStep, hq, ht]

theorem byteStep_held (hq : s.rxq = []) (ht : s.terr = none) : byteStep s k = s := by
  simp only [byteStep, hq, ht]

/-- Settles O20: a byte state takes a byte step, which looks at TERR with RXQ empty alone. -/
theorem emptyReceiveBufferFailsOrHolds : Obligations.EmptyReceiveBufferFailsOrHolds := by
  intro s hd
  obtain ⟨k, hstep, hk⟩ := pyrbStep_byteState hd
  refine ⟨fun c hq ht => ?_, fun hq ht => ?_, fun c hq => ?_⟩
  · rw [hstep s rfl, byteStep_failed hq ht, State.raise, BitVec.ofNat_toNat _ (dstateBits _)]
  · rw [hstep s rfl, byteStep_held hq ht]
  · obtain ⟨b, rest, hq⟩ := List.exists_cons_of_ne_nil hq
    rw [hstep s rfl, byteStep_cons hq, ← hk]
    exact (hstep { s with terr := c } rfl).trans (byteStep_cons hq)

/-! ### The step on a received byte (R232 to R234) -/

/-- SEEK counts a byte that is not the magic byte, saturating (R232). -/
theorem toNat_nextJunk (j : BitVec 16) : (nextJunk j).toNat = min (j.toNat + 1) 65535 := by
  unfold nextJunk
  split
  · next hj => subst hj; rfl
  · next hj =>
    have hne : j.toNat ≠ 65535 := fun h => hj (BitVec.eq_of_toNat_eq h)
    have := j.isLt
    have hadd : (j + 1).toNat = (j.toNat + 1) % 65536 := BitVec.toNat_add j 1
    omega

theorem seekByte_magic (s : State) : seekByte s magic = { s with sum := magic, dstate := .len } := if_pos rfl

theorem seekByte_junk {b : Byte} (hb : b ≠ magic) (s : State) : seekByte s b = { s with junk := nextJunk s.junk } := if_neg hb

/-- CNT counts on while it is a count of payload bytes (R234). -/
theorem toNat_cnt_add_one {cnt : BitVec 9} {n : BitVec 8} (h : cnt.toNat ≤ n.toNat) : (cnt + 1).toNat = cnt.toNat + 1 := by
  have := n.isLt
  have hadd : (cnt + 1).toNat = (cnt.toNat + 1) % 512 := BitVec.toNat_add cnt 1
  omega

/-- BODY goes on to VALIDATE with the byte after the payload, the checksum (R234). -/
theorem bodyByte_dstate (s : State) (b : Byte) :
    (bodyByte s b).dstate = if s.cnt.toNat = s.n.toNat then .validate else .body := by
  simp only [bodyByte, Nat.add_right_cancel_iff]

/-- Settles O19: in each of the three states the step is that state's use of the head of RXQ. -/
theorem byteStepsFollowTheFrame : Obligations.ByteStepsFollowTheFrame := by
  intro s b rest hq
  refine ⟨fun hd hb => ?_, fun hd hb => ?_, fun hd => ?_, fun hd hcnt => ⟨_, rfl, ?_⟩⟩
  · rw [pyrbStep_seek hd, byteStep_cons hq, hb]
    exact seekByte_magic _
  · rw [pyrbStep_seek hd, byteStep_cons hq, seekByte_junk hb, ← toNat_nextJunk, BitVec.ofNat_toNat, BitVec.setWidth_eq]
  · rw [pyrbStep_len hd, byteStep_cons hq, lenByte]
  · rw [pyrbStep_body hd, byteStep_cons hq]
    refine ⟨rfl, toNat_cnt_add_one hcnt, fun j => ?_, ?_, ?_⟩
    · have hlt : s.cnt.toNat < 256 := by have := s.n.isLt; omega
      simp only [bodyByte, Vector.toList_setIfInBounds, List.getElem?_set, Vector.length_toList, hlt, if_true, eq_comm]
    · rw [bodyByte_dstate]; split <;> simp_all
    · rw [bodyByte_dstate]; split <;> simp_all

/-! ### The checksum (R236) -/

theorem validateStep_checksum (h : s.sum ≠ 0) :
    validateStep s = { s with rxq := [] }.raise .checksum s.sum.toNat s.n.toNat := if_pos h

theorem validateStep_parse (h : s.sum = 0) : validateStep s = finishParse s (parseFrame s) := if_neg (not_not.mpr h)

/-- Settles O21: the flush and the failure are one VALIDATE step. -/
theorem checksumFailureFlushes : Obligations.ChecksumFailureFlushes := by
  intro s hd hsum
  rw [pyrbStep_validate hd, validateStep_checksum hsum, State.raise, BitVec.ofNat_toNat, BitVec.ofNat_toNat]

end Sys2Proof.Machine
end

section
/-!
PROOFS. What a step of the machine does to the decoder: DSTATE moves along the decoder's table (42_stream_decoder.md R230), and
SUM, CNT and BODY keep their counts (R232 to R235).
-/

namespace Sys2Proof.Machine

variable {s t : State}

/-! ### What a step can do to the decoder -/

/-- The decoder's own part of the state: DSTATE, N, CNT, SUM and BODY (10_state.md R53), and VALID, LEN and COUNT (R44). -/
structure DecoderPart where
  dstate : DState
  n : BitVec 8
  cnt : BitVec 9
  sum : Byte
  body : Vector Byte 256
  valid : Bool
  len : BitVec 8
  count : BitVec 7

def State.decoderPart (s : State) : DecoderPart := ⟨s.dstate, s.n, s.cnt, s.sum, s.body, s.valid, s.len, s.count⟩

/-- Everything a step can have done to the decoder: nothing, the begin of a decode, the failure of an operation at its accept, a
PYRB step, or RST. -/
inductive DecoderMove (s t : State) : Prop where
  | kept (ht : t.decoderPart = s.decoderPart)
  | begun (hacc : acceptsNext s = some .decDecode) (hb : s.busy = false)
      (ht : t.dstate = .seek ∧ t.len = 0 ∧ t.count = 0)
  | failed (hb : s.busy = false) (ht : t.decoderPart = { s.decoderPart with dstate := .idle })
  | pyrb (ts : List Turn) (ht : t = pyrbStep { s with turns := ts })
  | rst (hr : resetsNext s = true) (ht : t.dstate = .idle ∧ t.len = 0 ∧ t.count = 0)

/-- An operation that ends at its accept leaves the decoder alone until it completes or raises. -/
theorem Worked.decoderPart_eq {o : Option Instr} {u : State} (h : Worked o s u) : u.decoderPart = s.decoderPart :=
  (congrArg State.decoderPart h.frame).trans rfl

theorem decoderMove_of_writeReg {ts : List Turn} {as : List HostAction} {r : Reg} {w : Word} (hw : writesNext s r = some w)
    (h : writeReg { s with turns := ts, todo := as } w r = .next t) : DecoderMove s t := by
  obtain ⟨rfl, ht⟩ | ⟨-, rfl⟩ | ⟨-, rfl⟩ | ⟨-, rfl⟩ | ⟨-, rfl⟩ | ⟨_, -, rfl⟩ | rfl := writeReg_next h
  · cases writeCmd_ends ht with
    | dropped hb ht => subst ht; exact .kept rfl
    | launched i seq _ hb he hseq ht => subst ht; exact .kept rfl
    | begun ho hb ht => subst ht; exact .begun ((acceptsNext_of_writesNext hw hb).trans ho) hb ⟨rfl, rfl, rfl⟩
    | completed u hb hu ht => subst ht; exact .kept hu.decoderPart_eq
    | failed u code i0 i1 hb hu hc ht =>
      subst ht
      exact .failed hb (congrArg (fun d : DecoderPart => { d with dstate := .idle }) hu.decoderPart_eq)
  all_goals exact .kept rfl

theorem decoderMove_of_hostStep {ts : List Turn} (hs : s.turns = .host :: ts)
    (h : hostStep { s with turns := ts } = .next t) : DecoderMove s t := by
  unfold hostStep at h
  split at h
  · cases h; exact .kept rfl
  · obtain ⟨-, ⟨-, rfl⟩ | ⟨-, v, -, rfl⟩⟩ := hostRead_next h <;> exact .kept rfl
  · next addr bytes w as htodo =>
    have htodo : s.todo = .write addr bytes w :: as := htodo
    obtain ⟨hin, ⟨-, rfl⟩ | ⟨hok, ht⟩⟩ := hostWrite_next h
    · exact .kept rfl
    · exact decoderMove_of_writeReg (by simp [writesNext, hs, htodo, hin, hok]) ht
  · cases h; exact .kept rfl

theorem decoderMove_of_step (h : step s = .next t) : DecoderMove s t := by
  obtain ⟨-, rfl⟩ | ⟨turn, ts, hs, -, ht⟩ := step_next h
  · exact .kept rfl
  · cases turn with
    | host => exact decoderMove_of_hostStep hs ht
    | pyrb => cases ht; exact .pyrb ts rfl
    | arrive b => cases ht; exact .kept rfl
    | error c => cases ht; exact .kept rfl
    | rst => cases ht; exact .rst (by simp [resetsNext, hs]) ⟨rfl, rfl, rfl⟩

/-! ### DSTATE (R230) -/

/-- The transitions of the decoder's table on a byte and in VALIDATE. -/
def decoderTable : List (DState × DState) := [(.seek, .len), (.len, .body), (.body, .validate), (.validate, .idle)]

/-- How PYRB may move DSTATE from s to t: not at all, along the table, or to IDLE with TRANSPORT when it needs a byte and finds
an error. -/
def DstateMoves (s t : State) : Prop :=
  t.dstate = s.dstate ∨ (s.dstate, t.dstate) ∈ decoderTable ∨
    (t.dstate = .idle ∧ t.ecode = .transport ∧ s.rxq = [] ∧ s.terr ≠ none)

theorem byteStep_dstateMoves {k : State → Byte → State}
    (hk : ∀ b rest, (k { s with rxq := rest } b).dstate = s.dstate ∨
      (s.dstate, (k { s with rxq := rest } b).dstate) ∈ decoderTable) : DstateMoves s (byteStep s k) := by
  obtain ⟨b, rest, -, ht⟩ | ⟨c, hq, hterr, ht⟩ | ⟨-, -, ht⟩ := byteStep_cases s k
  · rw [ht]; exact (hk b rest).imp_right .inl
  · rw [ht]; exact .inr (.inr ⟨rfl, rfl, hq, by simp [hterr]⟩)
  · rw [ht]; exact .inl rfl

theorem handoffStep_dstate (hd : s.dstate = .idle) : (handoffStep s).dstate = .idle := by
  obtain ⟨-, ht⟩ | ⟨seq, c, -, -, ht⟩ | ⟨seq, -, -, ht⟩ := handoffStep_cases s
  · rw [ht, hd]
  · rw [ht]; rfl
  · rw [ht]; exact hd

theorem finishParse_dstate (s : State) (p : Vector Entry 127 × Verdict) : (finishParse s p).dstate = .idle := by
  unfold finishParse
  split <;> rfl

theorem validateStep_dstate (s : State) : (validateStep s).dstate = .idle := by
  obtain ⟨-, ht⟩ | ⟨-, ht⟩ := validateStep_cases s
  · rw [ht]; rfl
  · rw [ht, finishParse_dstate]

theorem pyrbStep_dstateMoves (s : State) : DstateMoves s (pyrbStep s) := by
  cases hd : s.dstate with
  | idle => rw [pyrbStep_idle hd]; exact .inl ((handoffStep_dstate hd).trans hd.symm)
  | seek =>
    rw [pyrbStep_seek hd]
    refine byteStep_dstateMoves fun b rest => ?_
    by_cases hb : b = magic
    · subst hb; rw [seekByte_magic, hd]; exact .inr (by simp [decoderTable])
    · rw [seekByte_junk hb]; exact .inl rfl
  | len =>
    rw [pyrbStep_len hd]
    exact byteStep_dstateMoves fun b rest => .inr (by simp [hd, lenByte, decoderTable])
  | body =>
    rw [pyrbStep_body hd]
    refine byteStep_dstateMoves fun b rest => ?_
    rw [bodyByte_dstate, hd]
    split
    · exact .inr (by decide)
    · exact .inl rfl
  | validate => rw [pyrbStep_validate hd]; exact .inr (.inl (by simp [hd, validateStep_dstate, decoderTable]))

/-- Settles O27: with BUSY = 0 the decoder is idle, so of all a step can do only the begin of a decode, a PYRB step and RST move
DSTATE. -/
theorem decoderStateTransitions : Obligations.DecoderStateTransitions := by
  intro s t hinv h hmoved
  cases decoderMove_of_step h with
  | kept ht => exact absurd (congrArg DecoderPart.dstate ht) hmoved
  | begun hacc hb ht =>
    obtain ⟨hidle, -⟩ := hinv.phase.of_not_busy hb
    obtain ⟨hseek, -⟩ := ht
    exact .inr (.inl ⟨hidle, hseek, hacc⟩)
  | failed hb ht =>
    obtain ⟨hidle, -⟩ := hinv.phase.of_not_busy hb
    exact absurd ((congrArg DecoderPart.dstate ht).trans hidle.symm) hmoved
  | pyrb ts ht =>
    subst ht
    exact ((pyrbStep_dstateMoves _).resolve_left hmoved).imp_right fun hfail => .inr (.inl hfail)
  | rst hr ht =>
    obtain ⟨hidle, -⟩ := ht
    exact .inr (.inr (.inr ⟨hidle, hr⟩))

/-! ### The counts (R232 to R235) -/

theorem byteSum_append (as bs : List Byte) : byteSum (as ++ bs) = byteSum as + byteSum bs := by
  induction as with
  | nil => exact (BitVec.zero_add _).symm
  | cons a as ih => rw [List.cons_append, byteSum, byteSum, ih, BitVec.add_assoc]

theorem byteSum_singleton (b : Byte) : byteSum [b] = b := BitVec.add_zero b

/-- A byte stored behind the first i bytes of a buffer is the last of its first i + 1 bytes. -/
theorem take_toList_setIfInBounds {α : Type} {size : Nat} (v : Vector α size) {i : Nat} (x : α) (hi : i < size) :
    (v.setIfInBounds i x).toList.take (i + 1) = v.toList.take i ++ [x] := by
  rw [Vector.toList_setIfInBounds, List.take_add_one, List.take_set_of_le (Nat.le_refl i)]
  simp [hi]

/-- The counts are a matter of the decoder's own part of the state. -/
theorem DecoderInv.congr (h : DecoderInv s) (ht : t.decoderPart = s.decoderPart) : DecoderInv t := by
  simp only [State.decoderPart, DecoderPart.mk.injEq] at ht
  obtain ⟨hd, hn, hcnt, hsum, hbody, hvalid, hlen, hcount⟩ := ht
  refine ⟨?_, ?_, ?_, ?_⟩
  · rw [hd, hsum]; exact h.atLen
  · rw [hd, hcnt, hn, hsum, hbody]; exact h.atBody
  · rw [hd, hcnt, hn, hsum, hbody]; exact h.atValidate
  · rw [hvalid, hlen, hcount]; exact h.cleared

/-- In SEEK and in IDLE there is nothing to count. -/
theorem decoderInv_of_not_counting (hd : t.dstate = .idle ∨ t.dstate = .seek)
    (hcleared : t.valid = false → t.len = 0 ∧ t.count = 0) : DecoderInv t := by
  obtain hd | hd := hd <;> exact ⟨by simp [hd], by simp [hd], by simp [hd], hcleared⟩

theorem DecoderInv.byteStep (h : DecoderInv s) {k : State → Byte → State}
    (hk : ∀ u b, DecoderInv u → u.dstate = s.dstate → DecoderInv (k u b)) : DecoderInv (byteStep s k) := by
  obtain ⟨b, rest, -, ht⟩ | ⟨c, -, -, ht⟩ | ⟨-, -, ht⟩ := byteStep_cases s k
  · rw [ht]; exact hk { s with rxq := rest } b (h.congr rfl) rfl
  · rw [ht]; exact decoderInv_of_not_counting (.inl rfl) h.cleared
  · rw [ht]; exact h

/-- The magic byte starts the sum (R232). -/
theorem DecoderInv.seekByte (h : DecoderInv s) (hd : s.dstate = .seek) (b : Byte) : DecoderInv (seekByte s b) := by
  by_cases hb : b = magic
  · subst hb
    rw [seekByte_magic]
    exact ⟨fun _ => rfl, nofun, nofun, h.cleared⟩
  · rw [seekByte_junk hb]
    exact decoderInv_of_not_counting (.inr hd) h.cleared

/-- The length byte is added, and no body byte is counted yet (R233). -/
theorem DecoderInv.lenByte (h : DecoderInv s) (hd : s.dstate = .len) (b : Byte) : DecoderInv (lenByte s b) where
  atLen := nofun
  atBody _ := by
    refine ⟨Nat.zero_le _, ?_⟩
    simp only [Machine.lenByte, h.atLen hd]
    exact (BitVec.add_zero _).symm
  atValidate := nofun
  cleared := h.cleared

/-- Each body byte is stored, added and counted (R234). -/
theorem DecoderInv.bodyByte (h : DecoderInv s) (hd : s.dstate = .body) (b : Byte) : DecoderInv (bodyByte s b) := by
  obtain ⟨hle, hsum⟩ := h.atBody hd
  have hlt : s.cnt.toNat < 256 := by have := s.n.isLt; omega
  have hcnt : (Machine.bodyByte s b).cnt.toNat = s.cnt.toNat + 1 := toNat_cnt_add_one hle
  have hstored : (Machine.bodyByte s b).sum =
      magic + s.n + byteSum ((Machine.bodyByte s b).body.toList.take (s.cnt.toNat + 1)) := by
    simp only [Machine.bodyByte]
    rw [take_toList_setIfInBounds _ _ hlt, byteSum_append, byteSum_singleton, hsum, BitVec.add_assoc]
  have hn : (Machine.bodyByte s b).n = s.n := rfl
  by_cases hlast : s.cnt.toNat = s.n.toNat
  · have hd' : (Machine.bodyByte s b).dstate = .validate := by rw [bodyByte_dstate, if_pos hlast]
    refine ⟨by simp [hd'], by simp [hd'], fun _ => ⟨?_, ?_⟩, h.cleared⟩
    · rw [hcnt, hn, hlast]
    · rw [hstored, hn, hlast]
  · have hd' : (Machine.bodyByte s b).dstate = .body := by rw [bodyByte_dstate, if_neg hlast]
    refine ⟨by simp [hd'], fun _ => ⟨?_, ?_⟩, by simp [hd'], h.cleared⟩
    · rw [hcnt, hn]; omega
    · rw [hstored, hn, hcnt]

/-- A frame is shown with VALID = 1, and a failed parse shows none. -/
theorem DecoderInv.finishParse (h : DecoderInv s) (p : Vector Entry 127 × Verdict) : DecoderInv (finishParse s p) := by
  refine decoderInv_of_not_counting (.inl (finishParse_dstate s p)) ?_
  unfold Machine.finishParse
  split
  · exact h.cleared
  · exact h.cleared
  · nofun

theorem DecoderInv.validateStep (h : DecoderInv s) : DecoderInv (validateStep s) := by
  obtain ⟨-, ht⟩ | ⟨-, ht⟩ := validateStep_cases s
  · rw [ht]; exact decoderInv_of_not_counting (.inl rfl) h.cleared
  · rw [ht]; exact h.finishParse _

theorem DecoderInv.handoffStep (h : DecoderInv s) (hd : s.dstate = .idle) : DecoderInv (handoffStep s) := by
  refine decoderInv_of_not_counting (.inl (handoffStep_dstate hd)) ?_
  obtain ⟨-, ht⟩ | ⟨seq, c, -, -, ht⟩ | ⟨seq, -, -, ht⟩ := handoffStep_cases s <;> rw [ht] <;> exact h.cleared

theorem DecoderInv.pyrbStep (h : DecoderInv s) : DecoderInv (pyrbStep s) := by
  cases hd : s.dstate with
  | idle => rw [pyrbStep_idle hd]; exact h.handoffStep hd
  | seek => rw [pyrbStep_seek hd]; exact h.byteStep fun _ b hu hd' => hu.seekByte (hd'.trans hd) b
  | len => rw [pyrbStep_len hd]; exact h.byteStep fun _ b hu hd' => hu.lenByte (hd'.trans hd) b
  | body => rw [pyrbStep_body hd]; exact h.byteStep fun _ b hu hd' => hu.bodyByte (hd'.trans hd) b
  | validate => rw [pyrbStep_validate hd]; exact h.validateStep

/-- Settles O58: each thing a step can do to the decoder keeps its counts. -/
theorem stepKeepsDecoderCounts : Obligations.StepKeepsDecoderCounts := by
  intro s t hs h
  cases decoderMove_of_step h with
  | kept ht => exact hs.congr ht
  | begun _ _ ht =>
    obtain ⟨hseek, hcleared⟩ := ht
    exact decoderInv_of_not_counting (.inr hseek) fun _ => hcleared
  | failed _ ht =>
    simp only [State.decoderPart, DecoderPart.mk.injEq] at ht
    obtain ⟨hd, -, -, -, -, hvalid, hlen, hcount⟩ := ht
    exact decoderInv_of_not_counting (.inl hd) (by rw [hvalid, hlen, hcount]; exact hs.cleared)
  | pyrb ts ht => rw [ht]; exact (hs.congr (t := { s with turns := ts }) rfl).pyrbStep
  | rst _ ht =>
    obtain ⟨hidle, hcleared⟩ := ht
    exact decoderInv_of_not_counting (.inl hidle) fun _ => hcleared

end Sys2Proof.Machine
end

section
/-!
PROOFS. Runs of the decoder over received bytes: the bytes of BODY (42_stream_decoder.md R234), a frame as a builder makes it
(30_encoding.md R120, R121; R246), and junk before a frame (R247).
-/

namespace Sys2Proof.Machine

variable {s : State}

/-! ### Storing a run of values -/

/-- The vector with the values stored one after the other from index i up, as the decoder fills BODY and ENTRY. -/
def storeFrom {α : Type} {size : Nat} (v : Vector α size) (i : Nat) : List α → Vector α size
  | [] => v
  | x :: xs => storeFrom (v.setIfInBounds i x) (i + 1) xs

theorem toList_storeFrom {α : Type} {size : Nat} (v : Vector α size) {i : Nat} (xs : List α) (h : i + xs.length ≤ size) :
    (storeFrom v i xs).toList = v.toList.take i ++ xs ++ v.toList.drop (i + xs.length) := by
  induction xs generalizing v i with
  | nil => simp [storeFrom]
  | cons x xs ih =>
    rw [List.length_cons] at h
    rw [storeFrom, ih _ (by omega), take_toList_setIfInBounds _ _ (by omega), Vector.toList_setIfInBounds,
      List.drop_set_of_lt (by omega), List.length_cons]
    simp [Nat.add_assoc, Nat.add_comm 1]

/-! ### The bytes of BODY (R234) -/

theorem bodyByte_more {b : Byte} (hd : s.dstate = .body) (h : s.cnt.toNat < s.n.toNat) :
    bodyByte s b =
      { s with body := s.body.setIfInBounds s.cnt.toNat b, sum := s.sum + b, cnt := s.cnt + 1 } := by
  rw [bodyByte, if_neg (by omega), hd]

theorem bodyByte_last {b : Byte} (h : s.cnt.toNat = s.n.toNat) :
    bodyByte s b =
      { s with body := s.body.setIfInBounds s.cnt.toNat b, sum := s.sum + b, cnt := s.cnt + 1, dstate := .validate } := by
  rw [bodyByte, if_pos (by omega)]

/-- The state after bytes of BODY, not the last of them the checksum. -/
def State.bodyRead (s : State) (bytes rest : List Byte) : State :=
  { s with
    rxq := rest
    body := storeFrom s.body s.cnt.toNat bytes
    sum := s.sum + byteSum bytes
    cnt := BitVec.ofNat 9 (s.cnt.toNat + bytes.length) }

theorem iterate_pyrbStep_body {bytes rest : List Byte} (hd : s.dstate = .body) (hq : s.rxq = bytes ++ rest)
    (hcnt : s.cnt.toNat + bytes.length ≤ s.n.toNat) : pyrbStep^[bytes.length] s = s.bodyRead bytes rest := by
  induction bytes generalizing s with
  | nil =>
    subst hq
    simp [State.bodyRead, storeFrom, byteSum]
  | cons b bytes ih =>
    rw [List.length_cons] at hcnt
    have hstep : pyrbStep s = _ :=
      (pyrbStep_body hd).trans ((byteStep_cons hq).trans (bodyByte_more hd (by dsimp only; omega)))
    have hnext : (s.cnt + 1).toNat = s.cnt.toNat + 1 := toNat_cnt_add_one (n := s.n) (by omega)
    rw [List.length_cons, Function.iterate_succ_apply, hstep]
    refine (ih ?_ rfl ?_).trans ?_
    · exact hd
    · dsimp only; omega
    simp only [State.bodyRead, hnext, storeFrom, byteSum, BitVec.add_assoc, List.length_cons, Nat.add_assoc, Nat.add_comm 1]

/-! ### A frame as a builder makes it (R246) -/

theorem byteSum_eq_ofNat_natSum (bytes : List Byte) : byteSum bytes = BitVec.ofNat 8 (natSum bytes) := by
  induction bytes with
  | nil => rfl
  | cons b bytes ih => rw [byteSum, natSum, BitVec.ofNat_add, ih, BitVec.ofNat_toNat, BitVec.setWidth_eq]

/-- The helper's checksum makes the sum of the whole frame 0 (R121). -/
theorem sum_buildFrame (payload : List Byte) :
    magic + BitVec.ofNat 8 payload.length + byteSum payload + frameChecksum payload = 0 := by
  apply BitVec.eq_of_toNat_eq
  have hmagic : magic.toNat = 19 := rfl
  have hzero : (0 : Byte).toNat = 0 := rfl
  simp only [byteSum_eq_ofNat_natSum, frameChecksum, BitVec.toNat_add, BitVec.toNat_ofNat, hmagic, hzero]
  omega

/-- The state once a built frame is read: in VALIDATE with a zero sum, the payload and its checksum in BODY. -/
def State.builtFrameRead (s : State) (payload rest : List Byte) : State :=
  { s with
    rxq := rest
    dstate := .validate
    n := BitVec.ofNat 8 payload.length
    cnt := BitVec.ofNat 9 payload.length + 1
    sum := 0
    body := (storeFrom s.body 0 payload).setIfInBounds payload.length (frameChecksum payload) }

theorem iterate_pyrbStep_buildFrame {payload rest : List Byte} (hd : s.dstate = .seek) (hlen : payload.length ≤ 255)
    (hq : s.rxq = buildFrame payload ++ rest) :
    pyrbStep^[payload.length + 3] s = s.builtFrameRead payload rest := by
  have hq : s.rxq = magic :: BitVec.ofNat 8 payload.length :: (payload ++ frameChecksum payload :: rest) := by
    simpa [buildFrame] using hq
  have hn : (BitVec.ofNat 8 payload.length).toNat = payload.length := by rw [BitVec.toNat_ofNat]; omega
  have hcnt : (BitVec.ofNat 9 payload.length).toNat = payload.length := by rw [BitVec.toNat_ofNat]; omega
  have hmagic : pyrbStep s = _ := (pyrbStep_seek hd).trans ((byteStep_cons hq).trans (seekByte_magic _))
  rw [Function.iterate_succ_apply, Function.iterate_succ_apply, hmagic, pyrbStep_len rfl, byteStep_cons rfl,
    Function.iterate_succ_apply', lenByte, iterate_pyrbStep_body rfl rfl (by simp [hn]), pyrbStep_body rfl, byteStep_cons rfl,
    bodyByte_last (by simp [State.bodyRead, hn, hcnt])]
  simp [State.bodyRead, State.builtFrameRead, hcnt, sum_buildFrame]

/-- BODY holds the payload of the frame read. -/
theorem take_body_builtFrameRead {payload : List Byte} (hlen : payload.length ≤ 255) (rest : List Byte) :
    (s.builtFrameRead payload rest).body.toList.take payload.length = payload := by
  simp only [State.builtFrameRead]
  rw [Vector.toList_setIfInBounds, List.take_set_of_le (Nat.le_refl _), toList_storeFrom _ _ (by omega)]
  simp

theorem toNat_n_builtFrameRead {payload : List Byte} (hlen : payload.length ≤ 255) (rest : List Byte) :
    (s.builtFrameRead payload rest).n.toNat = payload.length := by
  simp only [State.builtFrameRead, BitVec.toNat_ofNat]
  omega

/-- A parse ends in success, UNKNOWN_SENSOR or MALFORMED_FRAME (42_stream_decoder.md R237 to R239). -/
theorem finishParse_ecode_ne_checksum (s : State) (p : Vector Entry 127 × Verdict) : (finishParse s p).ecode ≠ .checksum := by
  unfold finishParse
  split <;> simp

/-- Settles O23: the payload bytes are stored and summed up, and the checksum byte makes the sum 0. -/
theorem builtFramePassesTheChecksum : Obligations.BuiltFramePassesTheChecksum := by
  intro s payload rest hd hlen hq t
  have ht : t = s.builtFrameRead payload rest := iterate_pyrbStep_buildFrame hd hlen hq
  rw [ht]
  refine ⟨rfl, rfl, toNat_n_builtFrameRead hlen rest, rfl, take_body_builtFrameRead hlen rest, fun _ => ?_⟩
  rw [pyrbStep_validate rfl, validateStep_parse rfl]
  exact finishParse_ecode_ne_checksum _ _

/-! ### Junk before a frame (R247) -/

/-- The state with JUNK as an earlier stretch of the input may have left it. -/
def State.withJunk (s : State) (j : BitVec 16) : State := { s with junk := j }

/-- The step neither reads nor writes JUNK. -/
def IgnoresJunk (f : State → State) (s : State) : Prop := ∀ j, f (s.withJunk j) = (f s).withJunk j

theorem handoffStep_ignoresJunk : IgnoresJunk handoffStep s := by
  intro j
  have hpend : (s.withJunk j).txpend = s.txpend := rfl
  have hterr : (s.withJunk j).terr = s.terr := rfl
  unfold handoffStep
  rw [hpend, hterr]
  cases s.txpend with
  | none => rfl
  | some seq => cases s.terr <;> rfl

/-- A byte step ignores JUNK if what it does with the byte at hand does. -/
theorem byteStep_ignoresJunk {k : State → Byte → State}
    (hk : ∀ b rest, s.rxq = b :: rest → IgnoresJunk (k · b) { s with rxq := rest }) : IgnoresJunk (byteStep · k) s := by
  intro j
  have hrxq : (s.withJunk j).rxq = s.rxq := rfl
  have hterr : (s.withJunk j).terr = s.terr := rfl
  simp only [byteStep]
  rw [hrxq, hterr]
  cases hq : s.rxq with
  | cons b rest => exact hk b rest hq j
  | nil => cases s.terr <;> rfl

theorem validateStep_ignoresJunk : IgnoresJunk validateStep s := by
  intro j
  have hparse : parseFrame (s.withJunk j) = parseFrame s := rfl
  have hsum : (s.withJunk j).sum = s.sum := rfl
  unfold validateStep
  rw [hsum, hparse]
  split
  · rfl
  · unfold finishParse
    split <;> rfl

/-- In SEEK the next byte is the magic byte, so that no junk is counted any more. -/
def JunkCounted (s : State) : Prop := s.dstate = .seek → s.rxq.head? = some magic

theorem pyrbStep_ignoresJunk (h : JunkCounted s) : IgnoresJunk pyrbStep s := by
  intro j
  cases hd : s.dstate with
  | idle => rw [pyrbStep_idle hd, pyrbStep_idle (s := s.withJunk j) hd]; exact handoffStep_ignoresJunk j
  | seek =>
    rw [pyrbStep_seek hd, pyrbStep_seek (s := s.withJunk j) hd]
    refine byteStep_ignoresJunk (fun b rest hq j => ?_) j
    obtain rfl : b = magic := by simpa [hq] using h hd
    exact (seekByte_magic _).trans (congrArg (State.withJunk · j) (seekByte_magic _).symm)
  | len => rw [pyrbStep_len hd, pyrbStep_len (s := s.withJunk j) hd]; exact byteStep_ignoresJunk (fun _ _ _ _ => rfl) j
  | body => rw [pyrbStep_body hd, pyrbStep_body (s := s.withJunk j) hd]; exact byteStep_ignoresJunk (fun _ _ _ _ => rfl) j
  | validate => rw [pyrbStep_validate hd, pyrbStep_validate (s := s.withJunk j) hd]; exact validateStep_ignoresJunk j

/-- SEEK is left with the magic byte, and no step of PYRB comes back to it. -/
theorem JunkCounted.pyrbStep (h : JunkCounted s) : JunkCounted (pyrbStep s) := by
  suffices hne : (Machine.pyrbStep s).dstate ≠ .seek from fun hd => absurd hd hne
  by_cases hd : s.dstate = .seek
  · obtain ⟨rest, hq⟩ := List.head?_eq_some_iff.mp (h hd)
    rw [pyrbStep_seek hd, byteStep_cons hq, seekByte_magic]
    nofun
  · obtain hsame | htable | ⟨hidle, -⟩ := pyrbStep_dstateMoves s
    · rwa [hsame]
    · intro hseek
      simp [hseek, decoderTable] at htable
    · simp [hidle]

theorem iterate_pyrbStep_ignoresJunk (h : JunkCounted s) (k : Nat) : IgnoresJunk pyrbStep^[k] s := by
  induction k generalizing s with
  | zero => intro j; rfl
  | succ k ih =>
    intro j
    rw [Function.iterate_succ_apply, Function.iterate_succ_apply, pyrbStep_ignoresJunk h, ih h.pyrbStep]

/-- Whatever JUNK holds, a PYRB step does the same to the rest of the state. -/
theorem pyrbStep_withJunk (s : State) (j : BitVec 16) : ∃ j', pyrbStep (s.withJunk j) = (pyrbStep s).withJunk j' := by
  by_cases h : JunkCounted s
  · exact ⟨j, pyrbStep_ignoresJunk h j⟩
  · obtain ⟨hd, hhead⟩ := Classical.not_imp.mp h
    rw [pyrbStep_seek hd, pyrbStep_seek (s := s.withJunk j) hd]
    cases hq : s.rxq with
    | nil => exact ⟨j, byteStep_ignoresJunk (fun b rest hq' => by simp [hq] at hq') j⟩
    | cons b rest =>
      have hb : b ≠ magic := by simpa [hq] using hhead
      rw [byteStep_cons hq, byteStep_cons (s := s.withJunk j) hq, seekByte_junk hb, seekByte_junk hb]
      exact ⟨nextJunk j, rfl⟩

theorem iterate_pyrbStep_withJunk (s : State) (j : BitVec 16) (k : Nat) :
    ∃ j', pyrbStep^[k] (s.withJunk j) = (pyrbStep^[k] s).withJunk j' := by
  induction k generalizing s j with
  | zero => exact ⟨j, rfl⟩
  | succ k ih =>
    obtain ⟨j', hj'⟩ := pyrbStep_withJunk s j
    rw [Function.iterate_succ_apply, Function.iterate_succ_apply, hj']
    exact ih (pyrbStep s) j'

theorem toNat_iterate_nextJunk (j : BitVec 16) (k : Nat) : (nextJunk^[k] j).toNat = min (j.toNat + k) 65535 := by
  induction k with
  | zero => have := j.isLt; rw [Function.iterate_zero_apply]; omega
  | succ k ih => rw [Function.iterate_succ_apply', toNat_nextJunk, ih]; omega

/-- A run of bytes without the magic byte is counted and dropped (R232). -/
theorem iterate_pyrbStep_junk {junk frame : List Byte} (hd : s.dstate = .seek) (hjunk : magic ∉ junk)
    (hq : s.rxq = junk ++ frame) :
    pyrbStep^[junk.length] s = { s with rxq := frame }.withJunk (nextJunk^[junk.length] s.junk) := by
  induction junk generalizing s with
  | nil => subst hq; rfl
  | cons b junk ih =>
    obtain ⟨hb, hjunk⟩ := not_or.mp (mt List.mem_cons.mpr hjunk)
    rw [List.length_cons, Function.iterate_succ_apply, Function.iterate_succ_apply, pyrbStep_seek hd, byteStep_cons hq,
      seekByte_junk (Ne.symm hb)]
    exact ih hd hjunk rfl

/-- Settles O24: the junk is counted and dropped, and a decode goes on alike whatever JUNK holds. -/
theorem junkWithoutMagicChangesOnlyTheJunkCount : Obligations.JunkWithoutMagicChangesOnlyTheJunkCount := by
  intro s junk frame k hd hjunk junked plain
  have hrun : junked = pyrbStep^[k] ({ s with rxq := frame }.withJunk (nextJunk^[junk.length] s.junk)) := by
    rw [← iterate_pyrbStep_junk (s := { s with rxq := junk ++ frame }) hd hjunk rfl, ← Function.iterate_add_apply,
      Nat.add_comm k]
  constructor
  · obtain ⟨j', hj'⟩ := iterate_pyrbStep_withJunk { s with rxq := frame } (nextJunk^[junk.length] s.junk) k
    rw [hrun, hj']
    rfl
  · intro hhead
    rw [hrun, iterate_pyrbStep_ignoresJunk (fun _ => hhead) k]
    exact toNat_iterate_nextJunk s.junk junk.length

end Sys2Proof.Machine
end

section
/-!
PROOFS. The parser (42_stream_decoder.md R237 to R239): it reads known fields one by one (R122), ends with the first bad one, and
decodes a frame built from known fields to those fields (R248).
-/

namespace Sys2Proof.Machine

variable {s t : State} {c : Config}

/-! ### Values and their bytes (30_encoding.md R116, R117) -/

theorem encVal_length {f : Fmt} {x : Value} (h : inRange f x = true) : (encVal f x).length = fmtWidth f := by
  cases x with
  | num n =>
    cases f with
    | block len => cases h
    | u8 | i8 | u16 | i16 => rfl
  | bytes v =>
    cases f with
    | block len => exact of_decide_eq_true h
    | u8 | i8 | u16 | i16 => cases h

theorem toNat_fromBe16 (hi lo : Byte) : (fromBe16 hi lo).toNat = hi.toNat * 256 + lo.toNat := by
  rw [fromBe16, BitVec.toNat_append, Nat.shiftLeft_eq]
  exact or_eq_add_of_dvd_of_lt 8 (Nat.dvd_mul_left ..) lo.isLt

/-- The two bytes of be16 put together are the 16-bit word again (R12). -/
theorem fromBe16_be16 (v : Int) : fromBe16 ((be16 v).getD 0 0) ((be16 v).getD 1 0) = BitVec.ofInt 16 v :=
  BitVec.eq_of_toNat_eq ((toNat_fromBe16 ..).trans (toNat_highByte_lowByte (BitVec.ofInt 16 v)))

/-- VAL reads the value ENCVAL wrote, if the format can carry it. -/
theorem valOf_encVal {f : Fmt} {x : Value} (h : inRange f x = true) : valOf f (encVal f x) = x := by
  cases x with
  | num n =>
    cases f with
    | block len => cases h
    | u8 =>
      simp only [inRange, Bool.and_eq_true, decide_eq_true_eq] at h
      refine congrArg Value.num ((congrArg Nat.cast (BitVec.toNat_ofInt ..)).trans ?_)
      omega
    | i8 =>
      simp only [inRange, Bool.and_eq_true, decide_eq_true_eq] at h
      refine congrArg Value.num ((BitVec.toInt_ofInt ..).trans ?_)
      exact Int.bmod_eq_of_le (by omega) (by omega)
    | u16 =>
      simp only [inRange, Bool.and_eq_true, decide_eq_true_eq] at h
      refine congrArg Value.num ((congrArg (fun w => (BitVec.toNat w : Int)) (fromBe16_be16 n)).trans ?_)
      rw [BitVec.toNat_ofInt]
      omega
    | i16 =>
      simp only [inRange, Bool.and_eq_true, decide_eq_true_eq] at h
      refine congrArg Value.num ((congrArg BitVec.toInt (fromBe16_be16 n)).trans ?_)
      rw [BitVec.toInt_ofInt]
      exact Int.bmod_eq_of_le (by omega) (by omega)
  | bytes v =>
    cases f with
    | block len => rfl
    | u8 | i8 | u16 | i16 => cases h

theorem word1Of_encVal_num {f : Fmt} {n : Int} (h : inRange f (.num n) = true) :
    word1Of f (encVal f (.num n)) = BitVec.ofInt 32 n := by
  rw [word1Of, valOf_encVal h]
  rfl

theorem encVal_bytes {f : Fmt} {v : List Byte} (h : inRange f (.bytes v) = true) : encVal f (.bytes v) = v := by
  cases f with
  | block len => rfl
  | u8 | i8 | u16 | i16 => cases h

/-! ### Word 0 of an entry (30_encoding.md R126) -/

theorem toNat_word0Of (id : Byte) {f : Fmt} {off : Nat} (hw : fmtWidth f ≤ 254) (hoff : off < 256) :
    (word0Of id f off).toNat = off * 16777216 + (fmtWidth f * 65536 + (fmtCode f).toNat * 256 + id.toNat) := by
  have hid : id.toNat < 2 ^ 8 := id.isLt
  have hcode : (fmtCode f).toNat < 2 ^ 3 := (fmtCode f).isLt
  have hdesc : word0Of id f off = (BitVec.ofNat 32 off <<< 24) ||| descScalar id ⟨f, []⟩ := by
    rw [word0Of, descScalar, BitVec.or_comm, BitVec.or_comm _ (BitVec.ofNat 32 (fmtWidth f) <<< 16),
      BitVec.or_comm (id.setWidth 32)]
    exact congrArg _ (BitVec.or_assoc ..).symm
  have hshift : (BitVec.ofNat 32 off <<< 24).toNat = off * 16777216 := by
    simp only [BitVec.toNat_shiftLeft, BitVec.toNat_ofNat, Nat.shiftLeft_eq]
    omega
  rw [hdesc, BitVec.toNat_or, hshift, toNat_descScalar (by dsimp only; omega),
    or_eq_add_of_dvd_of_lt 24 (by omega) (by dsimp only; omega)]

theorem entryId_entryOf (f : SensorField) {off : Nat} (hw : fmtWidth f.fmt ≤ 254) (hoff : off + 1 < 256) :
    entryId (entryOf f off) = f.id := by
  apply BitVec.eq_of_toNat_eq
  have hid : f.id.toNat < 2 ^ 8 := f.id.isLt
  simp only [entryId, entryOf, BitVec.extractLsb'_toNat, toNat_word0Of f.id hw hoff, Nat.shiftRight_zero]
  omega

theorem entryOff_entryOf (f : SensorField) {off : Nat} (hw : fmtWidth f.fmt ≤ 254) (hoff : off + 1 < 256) :
    entryOff (entryOf f off) = off + 1 := by
  have hid : f.id.toNat < 2 ^ 8 := f.id.isLt
  have hcode : (fmtCode f.fmt).toNat < 2 ^ 3 := (fmtCode f.fmt).isLt
  simp only [entryOff, entryOf, BitVec.extractLsb'_toNat, toNat_word0Of f.id hw hoff, Nat.shiftRight_eq_div_pow]
  omega

/-! ### Known fields (R122) -/

/-- A field the registry knows: its format is its descriptor's, and its value is in range. -/
theorem fieldOk_iff {f : SensorField} :
    fieldOk c f = true ↔ (∃ d, sensorAt c f.id = some d ∧ d.fmt = f.fmt) ∧ inRange f.fmt f.value = true := by
  simp [fieldOk]

theorem fieldsOk_cons {f : SensorField} {fields : List SensorField} :
    fieldsOk c (f :: fields) = true ↔ fieldOk c f = true ∧ fieldsOk c fields = true := by
  simp [fieldsOk]

theorem fieldOk_of_mem {f : SensorField} {fields : List SensorField} (h : fieldsOk c fields = true) (hf : f ∈ fields) :
    fieldOk c f = true := List.all_eq_true.mp h f hf

theorem length_fieldBytes {f : SensorField} (h : fieldOk c f = true) : (fieldBytes f).length = 1 + fmtWidth f.fmt := by
  obtain ⟨-, hrange⟩ := fieldOk_iff.mp h
  rw [fieldBytes, List.length_cons, encVal_length hrange, Nat.add_comm]

/-- In a legal configuration a known field has 1 to 254 value bytes (40_registry.md R160). -/
theorem fmtWidth_of_fieldOk {f : SensorField} (hc : c.wf = true) (h : fieldOk c f = true) :
    1 ≤ fmtWidth f.fmt ∧ fmtWidth f.fmt ≤ 254 := by
  obtain ⟨⟨d, hd, hfmt⟩, -⟩ := fieldOk_iff.mp h
  have htables := tablesOk_of_wf hc
  obtain ⟨hok, -⟩ := htables.scalar _ ((sensorAt_eq_some_iff htables).mp hd)
  rw [← hfmt]
  refine ⟨?_, fmtWidth_le_of_fmtOk hok⟩
  cases hf : d.fmt with
  | block len =>
    simp only [hf, fmtOk, Bool.and_eq_true, decide_eq_true_eq] at hok
    obtain ⟨hlow, -⟩ := hok
    exact hlow
  | u8 | i8 | u16 | i16 => decide

theorem payloadOf_cons (f : SensorField) (fields : List SensorField) :
    payloadOf (f :: fields) = fieldBytes f ++ payloadOf fields := rfl

/-- A field takes its id byte at least. -/
theorem length_le_length_payloadOf (fields : List SensorField) : fields.length ≤ (payloadOf fields).length := by
  induction fields with
  | nil => exact Nat.le_refl 0
  | cons f fields ih =>
    simp only [payloadOf_cons, fieldBytes, List.length_append, List.length_cons]
    omega

/-- In a legal configuration a known field takes two bytes at least. -/
theorem two_mul_length_le_length_payloadOf {fields : List SensorField} (hc : c.wf = true) (h : fieldsOk c fields = true) :
    2 * fields.length ≤ (payloadOf fields).length := by
  induction fields with
  | nil => exact Nat.le_refl 0
  | cons f fields ih =>
    obtain ⟨hf, hfields⟩ := fieldsOk_cons.mp h
    have hwidth := fmtWidth_of_fieldOk hc hf
    have := ih hfields
    rw [payloadOf_cons, List.length_append, length_fieldBytes hf, List.length_cons]
    omega

/-- A payload around the field at place e. -/
theorem payloadOf_split {fields : List SensorField} {e : Nat} {f : SensorField} (he : fields[e]? = some f) :
    payloadOf fields =
      payloadOf (fields.take e) ++ (f.id :: encVal f.fmt f.value ++ payloadOf (fields.drop (e + 1))) := by
  obtain ⟨hlt, rfl⟩ := List.getElem?_eq_some_iff.mp he
  conv_lhs => rw [← List.take_append_drop e fields, List.drop_eq_getElem_cons hlt]
  exact List.flatMap_append

/-- The entry of the field at place e has the offset at which that field lies. -/
theorem getElem?_entriesFrom {fields : List SensorField} {e off : Nat} {f : SensorField} (h : fieldsOk c fields = true)
    (he : fields[e]? = some f) :
    (entriesFrom off fields)[e]? = some (entryOf f (off + (payloadOf (fields.take e)).length)) := by
  induction fields generalizing e off with
  | nil => cases he
  | cons g fields ih =>
    obtain ⟨hg, hfields⟩ := fieldsOk_cons.mp h
    cases e with
    | zero => cases he; rfl
    | succ e =>
      rw [entriesFrom, List.getElem?_cons_succ, ih hfields he, List.take_succ_cons, payloadOf_cons, List.length_append,
        length_fieldBytes hg]
      simp only [Nat.add_assoc]

theorem length_entriesFrom (off : Nat) (fields : List SensorField) : (entriesFrom off fields).length = fields.length := by
  induction fields generalizing off with
  | nil => rfl
  | cons f fields ih => rw [entriesFrom, List.length_cons, List.length_cons, ih]

/-! ### One pass of the parser's loop (R237 to R239) -/

section
variable {body : List Byte} {n fuel cursor e : Nat} {table : Vector Entry 127}

theorem parseLoop_end (h : n ≤ cursor) : parseLoop c body n fuel cursor e table = (table, .parsed e) := by
  cases fuel with
  | zero => rfl
  | succ fuel => rw [parseLoop, if_neg (Nat.not_lt.mpr h)]

theorem parseLoop_unknown (h : cursor < n) (hat : sensorAt c (body.getD cursor 0) = none) :
    parseLoop c body n (fuel + 1) cursor e table = (table, .unknown (body.getD cursor 0) cursor) := by
  simp only [parseLoop, if_pos h, hat]

theorem parseLoop_malformed {d : ScalarDesc} (h : cursor < n) (hat : sensorAt c (body.getD cursor 0) = some d)
    (hlong : n < cursor + 1 + fmtWidth d.fmt) :
    parseLoop c body n (fuel + 1) cursor e table = (table, .malformed (body.getD cursor 0) cursor) := by
  simp only [parseLoop, if_pos h, hat, if_pos hlong]

theorem parseLoop_field {d : ScalarDesc} (hat : sensorAt c (body.getD cursor 0) = some d)
    (hfits : cursor + 1 + fmtWidth d.fmt ≤ n) :
    parseLoop c body n (fuel + 1) cursor e table =
      parseLoop c body n fuel (cursor + 1 + fmtWidth d.fmt) (e + 1) (table.setIfInBounds e
        ⟨word0Of (body.getD cursor 0) d.fmt (cursor + 1), word1Of d.fmt (slice body (cursor + 1) (fmtWidth d.fmt))⟩) := by
  simp only [parseLoop, if_pos (show cursor < n by omega), hat, if_neg (Nat.not_lt.mpr hfits)]

theorem getD_of_drop_eq_cons {b : Byte} {rest : List Byte} (h : body.drop cursor = b :: rest) : body.getD cursor 0 = b := by
  rw [List.getD_eq_getElem?_getD, ← List.head?_drop, h]
  rfl

theorem slice_of_drop_eq_cons {b : Byte} {value rest : List Byte} (h : body.drop cursor = b :: (value ++ rest)) :
    slice body (cursor + 1) value.length = value := by
  rw [slice, ← List.drop_drop, h, List.drop_one, List.tail_cons, List.take_left']
  rfl

/-- The parser reads known fields one by one, into their entries. -/
theorem parseLoop_fields {fields : List SensorField} {tail : List Byte} (hok : fieldsOk c fields = true)
    (hbody : body.drop cursor = payloadOf fields ++ tail) (hn : cursor + (payloadOf fields).length ≤ n) :
    parseLoop c body n (fields.length + fuel) cursor e table =
      parseLoop c body n fuel (cursor + (payloadOf fields).length) (e + fields.length)
        (storeFrom table e (entriesFrom cursor fields)) := by
  induction fields generalizing cursor e table with
  | nil => rw [List.length_nil, Nat.zero_add]; rfl
  | cons f fields ih =>
    obtain ⟨hf, hfields⟩ := fieldsOk_cons.mp hok
    obtain ⟨⟨d, hd, hfmt⟩, hrange⟩ := fieldOk_iff.mp hf
    have hvalue := encVal_length hrange
    rw [payloadOf_cons, List.length_append, length_fieldBytes hf] at hn
    rw [payloadOf_cons, fieldBytes, List.append_assoc, List.cons_append] at hbody
    have hid := getD_of_drop_eq_cons hbody
    have hslice := slice_of_drop_eq_cons hbody
    have hrest : body.drop (cursor + 1 + fmtWidth f.fmt) = payloadOf fields ++ tail := by
      rw [← hvalue, ← List.drop_drop, ← List.drop_drop, hbody, List.drop_one, List.tail_cons, List.drop_left']
      rfl
    have hpass := parseLoop_field (fuel := fields.length + fuel) (e := e) (table := table) (hid ▸ hd) (n := n)
      (by rw [hfmt]; omega)
    rw [List.length_cons, Nat.add_right_comm, hpass, hfmt, hid, ← hvalue, hslice, hvalue, ih hfields hrest (by omega),
      payloadOf_cons, List.length_append, length_fieldBytes hf]
    simp only [entriesFrom, storeFrom, entryOf, Nat.add_assoc, Nat.add_comm 1]

end

/-! ### The parse of a payload -/

/-- The parse of a payload goes through its first, known fields to what follows them. -/
theorem parseFrame_fields {fields : List SensorField} {tail : List Byte} (hok : fieldsOk s.cfg fields = true)
    (hn : s.n.toNat = (payloadOf fields ++ tail).length) (hbody : s.body.toList.take s.n.toNat = payloadOf fields ++ tail) :
    parseFrame s =
      parseLoop s.cfg s.body.toList s.n.toNat (256 - fields.length) (payloadOf fields).length fields.length
        (storeFrom s.entry 0 (entriesFrom 0 fields)) := by
  have hn' : s.n.toNat = (payloadOf fields).length + tail.length := hn.trans List.length_append
  have hfuel : fields.length + (256 - fields.length) = 256 := by
    have := length_le_length_payloadOf fields
    have := s.n.isLt
    omega
  have hdrop : s.body.toList.drop 0 = payloadOf fields ++ (tail ++ s.body.toList.drop s.n.toNat) := by
    rw [← List.append_assoc, ← hbody, List.take_append_drop, List.drop_zero]
  have hloop := parseLoop_fields (fuel := 256 - fields.length) (e := 0) (table := s.entry) hok hdrop (n := s.n.toNat) (by omega)
  rw [hfuel, Nat.zero_add, Nat.zero_add] at hloop
  exact hloop

/-- The byte after the known fields is the id of the next one, inside the payload. -/
theorem body_after_fields {fields : List SensorField} {id : Byte} {tail : List Byte}
    (hbody : s.body.toList.take s.n.toNat = payloadOf fields ++ id :: tail) :
    s.body.toList.getD (payloadOf fields).length 0 = id := by
  refine getD_of_drop_eq_cons (rest := tail ++ s.body.toList.drop s.n.toNat) ?_
  conv_lhs => rw [← List.take_append_drop s.n.toNat s.body.toList, hbody, List.append_assoc, List.drop_left' rfl]
  rfl

theorem finishParse_unknown (table : Vector Entry 127) (id : Byte) (cursor : Nat) :
    finishParse s (table, .unknown id cursor) = { s with entry := table }.raise .unknownSensor id.toNat cursor := rfl

theorem finishParse_malformed (table : Vector Entry 127) (id : Byte) (cursor : Nat) :
    finishParse s (table, .malformed id cursor) = { s with entry := table }.raise .malformedFrame id.toNat cursor := rfl

/-- Settles O22: the parse goes through the good fields, and its next pass ends with the bad one. -/
theorem firstBadFieldDecidesTheError : Obligations.FirstBadFieldDecidesTheError := by
  intro s good id tail _ hd hsum _ hok hn hbody
  have hlen : s.n.toNat = (payloadOf good).length + (tail.length + 1) := hn.trans List.length_append
  have hfuel : 256 - good.length = 255 - good.length + 1 := by
    have := length_le_length_payloadOf good
    have := s.n.isLt
    omega
  have hid := body_after_fields hbody
  have hparse := parseFrame_fields hok hn hbody
  rw [hfuel] at hparse
  rw [pyrbStep_validate hd, validateStep_parse hsum]
  constructor
  · intro hnone
    rw [parseLoop_unknown (by omega) (hid.symm ▸ hnone), hid] at hparse
    exact ⟨_, by rw [hparse, finishParse_unknown, State.raise, BitVec.ofNat_toNat]⟩
  · intro d hsome hlong
    rw [parseLoop_malformed (by omega) (hid.symm ▸ hsome) (by omega), hid] at hparse
    exact ⟨_, by rw [hparse, finishParse_malformed, State.raise, BitVec.ofNat_toNat]⟩

/-! ### The frame shown (10_state.md R44, R47, R48) -/

/-- A frame with this payload and these entries is shown. -/
structure FrameShown (t : State) (payload : List Byte) (entries : List Entry) : Prop where
  valid : t.valid = true
  len : t.len.toNat = payload.length
  count : t.count.toNat = entries.length
  body : t.body.toList.take payload.length = payload
  entry : t.entry.toList.take entries.length = entries

section
variable {payload : List Byte} {entries : List Entry}

theorem getElem?_of_take_eq {α : Type} {xs ys : List α} {i : Nat} (h : xs.take ys.length = ys) (hi : i < ys.length) (x : α) :
    ys[i]? = some (xs.getD i x) := by
  have hget : ys[i]? = xs[i]? := by rw [← h, List.getElem?_take_of_lt hi]
  obtain ⟨y, hy⟩ : ∃ y, ys[i]? = some y := ⟨_, List.getElem?_eq_getElem hi⟩
  rw [List.getD_eq_getElem?_getD, ← hget, hy]
  rfl

theorem FrameShown.pbufByte (h : FrameShown t payload entries) {j : Nat} (hj : j < payload.length) :
    payload[j]? = some (t.pbufByte j) := by
  simp only [State.pbufByte, h.valid, h.len, hj, decide_true, Bool.and_self, if_true]
  exact getElem?_of_take_eq h.body hj 0

theorem FrameShown.fbufEntry (h : FrameShown t payload entries) {e : Nat} (he : e < entries.length) :
    entries[e]? = some (t.fbufEntry e) := by
  simp only [State.fbufEntry, h.valid, h.count, he, decide_true, Bool.and_self, if_true]
  exact getElem?_of_take_eq h.entry he ⟨0, 0⟩

/-- PBUF shows the value bytes of a field at their place behind its id. -/
theorem FrameShown.pbufByte_value (h : FrameShown t payload entries) {before value after : List Byte} {id : Byte}
    (hsplit : payload = before ++ (id :: value ++ after)) :
    (List.range value.length).map (fun i => t.pbufByte (before.length + 1 + i)) = value := by
  have hlen : payload.length = before.length + 1 + (value.length + after.length) := by
    simp [hsplit, Nat.add_assoc, Nat.add_comm 1]
  refine List.ext_getElem? fun i => ?_
  by_cases hi : i < value.length
  · have hpast : before.length + 1 + i - before.length = i + 1 := by omega
    rw [List.getElem?_map, List.getElem?_range hi, Option.map_some, ← h.pbufByte (by omega), hsplit,
      List.getElem?_append_right (by omega), hpast, List.cons_append, List.getElem?_cons_succ, List.getElem?_append_left hi]
  · simp [hi]

end

/-! ### The round trip (R248) -/

/-- The state once a frame is read and parsed into these entries (R237). -/
def State.frameParsed (s : State) (entries : List Entry) : State :=
  { s with
    entry := storeFrom s.entry 0 entries
    valid := true
    len := s.n
    count := BitVec.ofNat 7 entries.length
    dstate := .idle
    res0 := BitVec.ofNat 32 entries.length
    res1 := s.n.setWidth 32 }.complete

/-- VALIDATE parses a payload of known fields into their entries. -/
theorem pyrbStep_validate_fields {fields : List SensorField} (hd : s.dstate = .validate) (hsum : s.sum = 0)
    (hok : fieldsOk s.cfg fields = true) (hn : s.n.toNat = (payloadOf fields).length)
    (hbody : s.body.toList.take s.n.toNat = payloadOf fields) :
    pyrbStep s = s.frameParsed (entriesFrom 0 fields) := by
  rw [pyrbStep_validate hd, validateStep_parse hsum, parseFrame_fields (tail := []) hok (by simp [hn]) (by simp [hbody]),
    parseLoop_end hn.le, State.frameParsed, length_entriesFrom]
  rfl

theorem frameShown_frameParsed {payload : List Byte} {entries : List Entry} (hn : s.n.toNat = payload.length)
    (hbody : s.body.toList.take payload.length = payload) (hcount : entries.length ≤ 127) :
    FrameShown (s.frameParsed entries) payload entries where
  valid := rfl
  len := hn
  count := by
    simp only [State.frameParsed, State.complete_count, BitVec.toNat_ofNat]
    omega
  body := hbody
  entry := by
    simp only [State.frameParsed, State.complete_entry]
    rw [toList_storeFrom _ _ (by omega)]
    simp

section
variable {fields : List SensorField} {e : Nat} {f : SensorField}

theorem FrameShown.fbufEntry_field (h : FrameShown t (payloadOf fields) (entriesFrom 0 fields)) (hok : fieldsOk c fields = true)
    (he : fields[e]? = some f) : t.fbufEntry e = entryOf f (payloadOf (fields.take e)).length := by
  obtain ⟨hlt, -⟩ := List.getElem?_eq_some_iff.mp he
  have hentry := getElem?_entriesFrom (off := 0) hok he
  rw [h.fbufEntry (by rwa [length_entriesFrom]), Nat.zero_add] at hentry
  exact Option.some.inj hentry

/-- A field of a payload that fits a frame has its value at an offset of one byte. -/
theorem offset_lt_of_field (hc : c.wf = true) (hok : fieldsOk c fields = true) (hlen : (payloadOf fields).length ≤ 255)
    (he : fields[e]? = some f) : (payloadOf (fields.take e)).length + 1 < 256 := by
  have hf := fieldOk_of_mem hok (List.mem_of_getElem? he)
  obtain ⟨hwidth, -⟩ := fmtWidth_of_fieldOk hc hf
  obtain ⟨-, hrange⟩ := fieldOk_iff.mp hf
  have hvalue := encVal_length hrange
  rw [payloadOf_split he] at hlen
  simp only [List.length_append, List.length_cons] at hlen
  omega

end

/-- Settles O25: the frame is read, its payload parsed into one entry per field, and each entry shows its field. -/
theorem builtFrameDecodesToItsFields : Obligations.BuiltFrameDecodesToItsFields := by
  intro s fields rest hc hd _ hok hlen hq t
  have hn := toNat_n_builtFrameRead (s := s) hlen rest
  have hbody := take_body_builtFrameRead (s := s) hlen rest
  have ht : t = (s.builtFrameRead (payloadOf fields) rest).frameParsed (entriesFrom 0 fields) := by
    refine (Function.iterate_succ_apply' ..).trans ?_
    rw [iterate_pyrbStep_buildFrame hd hlen hq]
    exact pyrbStep_validate_fields rfl rfl hok hn (hn.symm ▸ hbody)
  clear_value t
  subst ht
  have hcount := length_entriesFrom 0 fields
  have hfew : fields.length ≤ 127 := by
    have := two_mul_length_le_length_payloadOf hc hok
    omega
  have hshown := frameShown_frameParsed hn hbody (hcount.trans_le hfew)
  have hres0 : (BitVec.ofNat 32 (entriesFrom 0 fields).length).toNat = fields.length := by
    rw [BitVec.toNat_ofNat, hcount]
    omega
  have hres1 : ((s.builtFrameRead (payloadOf fields) rest).n.setWidth 32).toNat = (payloadOf fields).length := by
    rw [BitVec.toNat_setWidth, hn]
    omega
  refine ⟨rfl, rfl, rfl, rfl, rfl, rfl, rfl, hshown.len, hshown.count.trans hcount, hres0, hres1, rfl, rfl,
    fun e he => hshown.fbufEntry (by rwa [hcount]), fun e f he x hx => ?_, fun e f he v hv => ?_, fun j => hshown.pbufByte⟩
  all_goals
    have hf := fieldOk_of_mem hok (List.mem_of_getElem? he)
    obtain ⟨-, hwidth⟩ := fmtWidth_of_fieldOk hc hf
    obtain ⟨-, hrange⟩ := fieldOk_iff.mp hf
    have hoff := offset_lt_of_field hc hok hlen he
    rw [hshown.fbufEntry_field hok he]
  · rw [hx] at hrange
    exact ⟨by rw [entryOf, hx, word1Of_encVal_num hrange], entryId_entryOf f hwidth hoff⟩
  · rw [hv] at hrange
    rw [entryOff_entryOf f hwidth hoff]
    have hsplit := payloadOf_split he
    rw [hv, encVal_bytes hrange] at hsplit
    exact hshown.pbufByte_value hsplit

end Sys2Proof.Machine
end

section
/-!
PROOFS. The mapping view of a frame (42_stream_decoder.md R244): the entries FBUF shows, inserted one by one into an ordered map.
-/

namespace Sys2Proof.Machine

variable {s : State}

theorem getElem?_shownEntries (s : State) (i : Nat) :
    (shownEntries s)[i]? = if s.valid = true ∧ i < s.count.toNat then some (s.fbufEntry i) else none := by
  unfold shownEntries
  cases s.valid with
  | false => simp
  | true =>
    by_cases hi : i < s.count.toNat <;> simp [hi]

/-- The value of an entry by its format code: 4 is a block, 1 and 3 are the signed numbers (30_encoding.md R115, R126). -/
theorem entryValue_eq (s : State) (e : Entry) :
    entryValue s e =
      if entryFmt e = 4 then .bytes ((List.range (entryWidth e)).map fun i => s.pbufByte (entryOff e + i))
      else if entryFmt e = 1 ∨ entryFmt e = 3 then .num e.word1.toInt
      else .num e.word1.toNat := by
  unfold entryValue
  split
  · next h => rw [if_pos h]
  · next h => simp [h]
  · next h => simp [h]
  · next h4 h1 h3 => rw [if_neg h4, if_neg (not_or.mpr ⟨h1, h3⟩)]

/-- Entries as a mapping, in their order; the mapping of a frame is that of the entries shown. -/
def mappingOf (s : State) (entries : List Entry) : List (Byte × Value) :=
  entries.foldl (fun m e => insertOrdered m (entryId e) (entryValue s e)) []

theorem frameMapping_eq_mappingOf (s : State) : frameMapping s = mappingOf s (shownEntries s) := rfl

theorem mappingOf_concat (s : State) (entries : List Entry) (e : Entry) :
    mappingOf s (entries ++ [e]) = insertOrdered (mappingOf s entries) (entryId e) (entryValue s e) :=
  List.foldl_concat ..

theorem mem_keys_mappingOf (s : State) (entries : List Entry) (id : Byte) :
    id ∈ (mappingOf s entries).map Prod.fst ↔ id ∈ entries.map entryId := by
  induction entries using List.reverseRecOn with
  | nil => rfl
  | append_singleton entries e ih =>
    rw [mappingOf_concat, keys_insertOrdered, List.map_append, List.mem_append, ← ih]
    split
    · next hold =>
      refine ⟨.inl, fun h => h.elim (·) fun hid => ?_⟩
      rwa [List.mem_singleton.mp hid]
    · exact List.mem_append

theorem nodup_keys_mappingOf (s : State) (entries : List Entry) : ((mappingOf s entries).map Prod.fst).Nodup := by
  induction entries using List.reverseRecOn with
  | nil => exact List.nodup_nil
  | append_singleton entries e ih =>
    rw [mappingOf_concat]
    exact nodup_insertOrdered _ _ ih

/-- The keys stand in the order of their first occurrence. -/
theorem pairwise_keys_mappingOf (s : State) (entries : List Entry) :
    ((mappingOf s entries).map Prod.fst).Pairwise fun a b =>
      (entries.map entryId).idxOf a < (entries.map entryId).idxOf b := by
  induction entries using List.reverseRecOn with
  | nil => exact List.Pairwise.nil
  | append_singleton entries e ih =>
    have hkeys := mem_keys_mappingOf s entries
    rw [mappingOf_concat, keys_insertOrdered, List.map_append]
    have hold : ((mappingOf s entries).map Prod.fst).Pairwise fun a b =>
        (entries.map entryId ++ [entryId e]).idxOf a < (entries.map entryId ++ [entryId e]).idxOf b :=
      ih.imp_of_mem fun ha hb hab => by
        rwa [List.idxOf_append_of_mem ((hkeys _).mp ha), List.idxOf_append_of_mem ((hkeys _).mp hb)]
    split
    · exact hold
    · next hnew =>
      refine List.pairwise_append.mpr ⟨hold, List.pairwise_singleton .., fun a ha b hb => ?_⟩
      rw [List.mem_singleton.mp hb, List.idxOf_append_of_mem ((hkeys a).mp ha),
        List.idxOf_append_of_notMem (mt (hkeys _).mpr hnew)]
      exact (List.idxOf_lt_length_of_mem ((hkeys a).mp ha)).trans_le (Nat.le_add_right ..)

/-- Entries of other ids leave the value of an id alone. -/
theorem mem_foldl_insertOrdered {p : Byte × Value} {after : List Entry} {m : List (Byte × Value)} (hp : p ∈ m)
    (hafter : ∀ f ∈ after, entryId f ≠ p.1) :
    p ∈ after.foldl (fun m e => insertOrdered m (entryId e) (entryValue s e)) m := by
  induction after generalizing m with
  | nil => exact hp
  | cons f after ih =>
    obtain ⟨hf, hafter⟩ := List.forall_mem_cons.mp hafter
    exact ih ((mem_insertOrdered_of_ne hf.symm).mpr hp) hafter

theorem mem_mappingOf_last (s : State) (before : List Entry) {after : List Entry} {e : Entry}
    (hafter : ∀ f ∈ after, entryId f ≠ entryId e) : (entryId e, entryValue s e) ∈ mappingOf s (before ++ e :: after) := by
  rw [mappingOf, List.foldl_append, List.foldl_cons]
  exact mem_foldl_insertOrdered (mem_insertOrdered_self ..) hafter

/-- Settles O26: the entries shown are inserted in order, and an insertion keeps an old key's place and takes the new value. -/
theorem frameMappingIsOrderedByFirstOccurrence : Obligations.FrameMappingIsOrderedByFirstOccurrence := by
  intro s entries keys value
  refine ⟨getElem?_shownEntries s, nodup_keys_mappingOf s entries, fun id => ?_, fun i j a b hij ha hb => ?_,
    fun before after e hentries hafter => ?_⟩
  · exact (mem_keys_mappingOf s entries id).trans List.mem_map
  · obtain ⟨hi, rfl⟩ := List.getElem?_eq_some_iff.mp ha
    obtain ⟨hj, rfl⟩ := List.getElem?_eq_some_iff.mp hb
    exact List.pairwise_iff_getElem.mp (pairwise_keys_mappingOf s entries) i j hi hj hij
  · have hlast := mem_mappingOf_last s before hafter
    rw [entryValue_eq, ← hentries] at hlast
    exact hlast

end Sys2Proof.Machine
end

section
/-!
PROOFS. The accuracy of the computed TRIG_RN (43_pose_integrator.md R285, R286; log entry 4). A `Rot` is read as a complex number.
The unit is within 15 units of its last place of exp(i / 2^16), by the remainder of the exponential series and the floor of each
term; a product adds 2 such units, so that a power of at most 2^32 stays within 10^32 times as much, far below half a unit of the
result; the last rounding adds one half.
-/

namespace Sys2Proof.Machine

/-! ### The roundings as real numbers (00_scope.md R13) -/

theorem abs_ediv_sub_div_le (n : Int) {d : Int} (hd : 0 < d) : |((n / d : Int) : ℝ) - n / d| ≤ 1 := by
  have hle : (d : ℝ) * (n / d : Int) ≤ n := by exact_mod_cast Int.mul_ediv_self_le hd.ne'
  have hlt : (n : ℝ) < d * (n / d : Int) + d := by exact_mod_cast Int.lt_mul_ediv_self_add hd
  have hpos : (0 : ℝ) < d := by exact_mod_cast hd
  rw [sub_div' hpos.ne', abs_div, abs_of_pos hpos, div_le_one hpos, abs_le]
  constructor <;> linarith

theorem abs_divr_sub_div_le (n : Int) {d : Int} (hd : 0 < d) : |(divr n d : ℝ) - n / d| ≤ 1 / 2 := by
  obtain ⟨hle, hlt⟩ := divr_bounds hd n
  have hle : (d : ℝ) * (2 * divr n d - 1) ≤ 2 * n := by exact_mod_cast hle
  have hlt : (2 : ℝ) * n < d * (2 * divr n d + 1) := by exact_mod_cast hlt
  have hpos : (0 : ℝ) < d := by exact_mod_cast hd
  rw [sub_div' hpos.ne', abs_div, abs_of_pos hpos, div_le_iff₀ hpos, abs_le]
  constructor <;> linarith

theorem abs_rnd_sub_div_le (v : Int) {s : Nat} (hs : 1 ≤ s) : |(rnd v s : ℝ) - v / 2 ^ s| ≤ 1 / 2 := by
  rw [rnd_eq_divr v hs]
  exact_mod_cast abs_divr_sub_div_le v (d := 2 ^ s) (by positivity)

/-! ### Rotations as complex numbers -/

/-- What a point of the plane stands for: each coordinate over 2^192. -/
noncomputable def Rot.toComplex (z : Rot) : ℂ := ⟨z.re / 2 ^ trigBits, z.im / 2 ^ trigBits⟩

/-- Points are close when both coordinates are. -/
theorem norm_sub_le_of_coordinates {z w : ℂ} {e : ℝ} (hre : |z.re - w.re| ≤ e) (him : |z.im - w.im| ≤ e) : ‖z - w‖ ≤ 2 * e :=
  (Complex.norm_le_abs_re_add_abs_im _).trans ((add_le_add hre him).trans_eq (two_mul e).symm)

/-- Products round each coordinate down, to within one unit of its last place. -/
theorem Rot.norm_toComplex_mul_sub_le (a b : Rot) :
    ‖(a.mul b).toComplex - a.toComplex * b.toComplex‖ ≤ 2 * (1 / 2 ^ trigBits) := by
  have hround {n : Int} {x : ℝ} (hx : x = n / 2 ^ trigBits / 2 ^ trigBits) :
      |((n / 2 ^ trigBits : Int) : ℝ) / 2 ^ trigBits - x| ≤ 1 / 2 ^ trigBits := by
    rw [hx, ← sub_div, abs_div, abs_of_pos (by positivity : (0 : ℝ) < 2 ^ trigBits)]
    gcongr
    exact_mod_cast abs_ediv_sub_div_le n (d := 2 ^ trigBits) (by positivity)
  refine norm_sub_le_of_coordinates (hround ?_) (hround ?_)
  · simp only [toComplex, Complex.mul_re]; push_cast; ring
  · simp only [toComplex, Complex.mul_im]; push_cast; ring

theorem Rot.pow_zero (fuel : Nat) (z : Rot) : Rot.pow fuel 0 z = ⟨2 ^ trigBits, 0⟩ := by
  induction fuel generalizing z with
  | zero => rfl
  | succ fuel ih => simp [Rot.pow, ih]

/-- An approximate product of approximations. -/
theorem Rot.norm_toComplex_mul_sub_mul_le {a b : Rot} {u v : ℂ} {d e : ℝ} (hu : ‖u‖ = 1) (ha : ‖a.toComplex - u‖ ≤ d)
    (hv : ‖v‖ = 1) (hb : ‖b.toComplex - v‖ ≤ e) : ‖(a.mul b).toComplex - u * v‖ ≤ 2 * (1 / 2 ^ trigBits) + (1 + d) * e + d := by
  have hnorm : ‖a.toComplex‖ ≤ 1 + d := by linarith [norm_le_norm_add_norm_sub' a.toComplex u]
  calc ‖(a.mul b).toComplex - u * v‖
      = ‖((a.mul b).toComplex - a.toComplex * b.toComplex) + a.toComplex * (b.toComplex - v) + (a.toComplex - u) * v‖ := by
        congr 1; ring
    _ ≤ ‖(a.mul b).toComplex - a.toComplex * b.toComplex‖ + ‖a.toComplex * (b.toComplex - v)‖ + ‖(a.toComplex - u) * v‖ :=
        norm_add₃_le
    _ ≤ 2 * (1 / 2 ^ trigBits) + (1 + d) * e + d := by
        rw [norm_mul, norm_mul, hv, mul_one]
        have := (norm_nonneg _).trans ha
        gcongr
        exact norm_toComplex_mul_sub_le a b

/-- Power by squaring: a base off by `e` has a square off by at most `4 * e`, and the last product doubles what the power of the
square is off by and adds `2 * e`, so that a step costs a factor of 10. -/
theorem Rot.norm_toComplex_pow_sub_le {fuel k : Nat} {z : Rot} {w : ℂ} {e : ℝ} (hk : k < 2 ^ fuel) (hw : ‖w‖ = 1)
    (hz : ‖z.toComplex - w‖ ≤ e) (hulp : 2 * (1 / 2 ^ trigBits) ≤ e) (hsmall : 10 ^ fuel * e ≤ 1) :
    ‖(Rot.pow fuel k z).toComplex - w ^ k‖ ≤ 10 ^ fuel * e := by
  induction fuel generalizing k z w e with
  | zero =>
    have he : 0 ≤ e := (norm_nonneg _).trans hz
    obtain rfl : k = 0 := by simpa using hk
    have hone : (Rot.pow 0 0 z).toComplex = 1 := by
      apply Complex.ext <;> simp [Rot.pow, toComplex]
    simpa [hone] using he
  | succ fuel ih =>
    have he : 0 ≤ e := (norm_nonneg _).trans hz
    have hpow : (1 : ℝ) ≤ 10 ^ fuel := one_le_pow₀ (by norm_num)
    have hge : e ≤ 10 ^ fuel * e := le_mul_of_one_le_left he hpow
    rw [pow_succ] at hsmall ⊢
    have he1 : e ≤ 1 := by linarith
    have hee : e * e ≤ e := mul_le_of_le_one_left he he1
    have hsquare : ‖(z.mul z).toComplex - w ^ 2‖ ≤ 4 * e := by
      rw [sq]
      refine (norm_toComplex_mul_sub_mul_le hw hz hw hz).trans ?_
      linarith
    have hhalf := ih (k := k / 2) (by omega) (by rw [norm_pow, hw, one_pow]) hsquare (by linarith) (by linarith)
    rw [← pow_mul] at hhalf
    by_cases hodd : k % 2 = 1
    · have hsplit : w ^ k = w * w ^ (2 * (k / 2)) := by rw [← pow_succ']; congr 1; omega
      have hdouble : (1 + e) * (10 ^ fuel * (4 * e)) ≤ 2 * (10 ^ fuel * (4 * e)) := by gcongr; linarith
      rw [Rot.pow, if_pos hodd, hsplit]
      refine (norm_toComplex_mul_sub_mul_le hw hz (by rw [norm_pow, hw, one_pow]) hhalf).trans ?_
      linarith
    · have hsplit : w ^ k = w ^ (2 * (k / 2)) := by congr 1; omega
      rw [Rot.pow, if_neg hodd, hsplit]
      linarith

/-! ### The rotation by one ulp -/

/-- One ulp of a Q angle, in radians (00_scope.md R15). -/
noncomputable def angleUlp : ℝ := 1 / 2 ^ 16

/-- The term of order `m` of the series, without its sign, as the model computes it. -/
def unitTerm (m : Nat) : Nat := 2 ^ trigBits / 2 ^ (16 * m) / m.factorial

theorem abs_unitTerm_sub_le (m : Nat) : |(unitTerm m : ℝ) / 2 ^ trigBits - angleUlp ^ m / m.factorial| ≤ 1 / 2 ^ trigBits := by
  have hfloor : |(unitTerm m : ℝ) - (2 ^ trigBits : Nat) / (2 ^ (16 * m) * m.factorial : Nat)| ≤ 1 := by
    rw [unitTerm, Nat.div_div_eq_div_mul, ← Nat.floor_div_eq_div (K := ℝ)]
    exact Nat.abs_floor_sub_le (by positivity)
  have hexact : angleUlp ^ m / m.factorial = (2 ^ trigBits : Nat) / (2 ^ (16 * m) * m.factorial : Nat) / 2 ^ trigBits := by
    rw [angleUlp, div_pow, one_pow, ← pow_mul]
    push_cast
    field_simp
  rw [hexact, ← sub_div, abs_div, abs_of_pos (by positivity : (0 : ℝ) < 2 ^ trigBits)]
  gcongr

theorem unitSeries_succ (start n : Nat) :
    unitSeries start (n + 1) = unitSeries start n + (-1) ^ n * (unitTerm (start + 2 * n) : Int) := rfl

/-- One more term of both series. -/
theorem toComplex_unitSeries_succ (n : Nat) :
    (Rot.mk (unitSeries 0 (n + 1)) (unitSeries 1 (n + 1))).toComplex =
      (Rot.mk (unitSeries 0 n) (unitSeries 1 n)).toComplex +
        ((-1) ^ n : ℝ) * (⟨unitTerm (2 * n) / 2 ^ trigBits, unitTerm (2 * n + 1) / 2 ^ trigBits⟩ : ℂ) := by
  simp only [Rot.toComplex, unitSeries_succ, Nat.zero_add, Nat.add_comm 1]
  apply Complex.ext
  · rw [Complex.add_re, Complex.re_ofReal_mul]; push_cast; ring
  · rw [Complex.add_im, Complex.im_ofReal_mul]; push_cast; ring

/-- Two more terms of the exponential series of an imaginary number. -/
theorem sum_exp_series_I_add_two (x : ℝ) (n : Nat) :
    ∑ m ∈ Finset.range (2 * (n + 1)), (x * Complex.I) ^ m / (m.factorial : ℂ) =
      ∑ m ∈ Finset.range (2 * n), (x * Complex.I) ^ m / (m.factorial : ℂ) +
        ((-1) ^ n : ℝ) * (⟨x ^ (2 * n) / (2 * n).factorial, x ^ (2 * n + 1) / (2 * n + 1).factorial⟩ : ℂ) := by
  have hpow : Complex.I ^ (2 * n) = (-1) ^ n := by rw [pow_mul, Complex.I_sq]
  rw [mul_add_one, Finset.sum_range_succ, Finset.sum_range_succ, pow_succ (x * Complex.I), mul_pow, hpow,
    Complex.mk_eq_add_mul_I]
  push_cast
  ring

/-- Each pair of terms is off by at most 2 units of the last place. -/
theorem norm_unitSeries_sub_sum_le (n : Nat) :
    ‖(Rot.mk (unitSeries 0 n) (unitSeries 1 n)).toComplex
      - ∑ m ∈ Finset.range (2 * n), (angleUlp * Complex.I) ^ m / (m.factorial : ℂ)‖ ≤ n * (2 * (1 / 2 ^ trigBits)) := by
  induction n with
  | zero => simp [unitSeries, Rot.toComplex, Complex.norm_def]
  | succ n ih =>
    rw [toComplex_unitSeries_succ, sum_exp_series_I_add_two, add_sub_add_comm, ← mul_sub, Nat.cast_succ, add_one_mul]
    refine norm_add_le_of_le ih ?_
    rw [norm_mul, Complex.norm_real, norm_pow, norm_neg, norm_one, one_pow, one_mul]
    exact norm_sub_le_of_coordinates (abs_unitTerm_sub_le _) (abs_unitTerm_sub_le _)

/-- The remainder of the exponential series after 14 terms is below one unit of the last place. -/
theorem norm_toComplex_unit_sub_le : ‖Rot.unit.toComplex - Complex.exp (angleUlp * Complex.I)‖ ≤ 15 / 2 ^ trigBits := by
  have hnorm : ‖(angleUlp * Complex.I : ℂ)‖ = 1 / 2 ^ 16 := by
    rw [norm_mul, Complex.norm_I, mul_one, Complex.norm_real, angleUlp]
    norm_num
  have hrest := Complex.exp_bound (x := angleUlp * Complex.I) (by rw [hnorm]; norm_num) (n := 14) (by norm_num)
  have htail : ((1 : ℝ) / 2 ^ 16) ^ 14 * ((Nat.succ 14 : Nat) * ((Nat.factorial 14 : Nat) * (14 : Nat) : ℝ)⁻¹)
      ≤ 1 / 2 ^ trigBits := by
    norm_num [trigBits, Nat.factorial]
  rw [hnorm, norm_sub_rev] at hrest
  have hsum := norm_unitSeries_sub_sum_le 7
  refine (norm_sub_le_norm_sub_add_norm_sub _ _ _).trans ((add_le_add hsum (hrest.trans htail)).trans_eq ?_)
  push_cast
  ring

/-- A rotation by a Q angle is a power of the unit, off by at most 10^32 * 15 units of the last place. -/
theorem norm_toComplex_rotOf_sub_le {q : Int} (hq : q.natAbs < 2 ^ 32) :
    ‖(rotOf q).toComplex - Complex.exp ((|(q / 2 ^ 16 : ℝ)| : ℝ) * Complex.I)‖ ≤ 1 / 2 ^ 80 := by
  have hexp : Complex.exp ((|(q / 2 ^ 16 : ℝ)| : ℝ) * Complex.I) = Complex.exp (angleUlp * Complex.I) ^ q.natAbs := by
    have habs : |(q / 2 ^ 16 : ℝ)| = q.natAbs * angleUlp := by
      rw [abs_div, ← Int.cast_abs, Int.abs_eq_natAbs, Int.cast_natCast, abs_of_pos (by positivity), angleUlp, mul_one_div]
    rw [← Complex.exp_nat_mul, habs, Complex.ofReal_mul, Complex.ofReal_natCast, mul_assoc]
  have hone : 2 * (1 / (2 : ℝ) ^ trigBits) ≤ 15 / 2 ^ trigBits := by norm_num [trigBits]
  rw [hexp]
  refine (Rot.norm_toComplex_pow_sub_le hq (Complex.norm_exp_ofReal_mul_I _) norm_toComplex_unit_sub_le hone ?_).trans ?_
  · norm_num [trigBits]
  · norm_num [trigBits]

/-! ### The four functions, each one rounding of a multiple of a coordinate -/

/-- A rounding of `c` times a coordinate is within 1 of `c` times what the coordinate approximates. -/
theorem abs_sub_le_one_of_rounded {n y z c a b : ℝ} (hround : |n - y| ≤ 1 / 2) (hy : y = c * a) (hz : z = c * b)
    (hab : |a - b| ≤ 1 / 2 ^ 80) (hc : |c| ≤ 2 ^ 32) : |n - z| ≤ 1 := by
  have hyz : |y - z| ≤ 2 ^ 32 * (1 / 2 ^ 80) := by
    rw [hy, hz, ← mul_sub, abs_mul]
    gcongr
  calc |n - z| ≤ |n - y| + |y - z| := abs_sub_le ..
    _ ≤ 1 / 2 + 2 ^ 32 * (1 / 2 ^ 80) := add_le_add hround hyz
    _ ≤ 1 := by norm_num

variable {q : Int}

theorem abs_re_rotOf_sub_cos_le (hq : q.natAbs < 2 ^ 32) :
    |((rotOf q).re : ℝ) / 2 ^ trigBits - Real.cos (q / 2 ^ 16)| ≤ 1 / 2 ^ 80 := by
  have hre := (Complex.abs_re_le_norm _).trans (norm_toComplex_rotOf_sub_le hq)
  rwa [Complex.sub_re, Complex.exp_ofReal_mul_I_re, Real.cos_abs] at hre

/-- The sign that the model gives to an odd function. -/
def angleSign (q : Int) : Int := if q < 0 then -1 else 1

theorem ite_neg_eq_angleSign_mul (q v : Int) : (if q < 0 then -v else v) = angleSign q * v := by
  unfold angleSign
  split <;> simp

theorem angleSign_cases (q : Int) : (angleSign q : ℝ) = -1 ∧ q < 0 ∨ (angleSign q : ℝ) = 1 ∧ 0 ≤ q := by
  unfold angleSign
  split
  · next hneg => exact .inl ⟨by simp, hneg⟩
  · next hpos => exact .inr ⟨by simp, not_lt.mp hpos⟩

theorem abs_angleSign (q : Int) : |(angleSign q : ℝ)| = 1 := by
  obtain ⟨h, -⟩ | ⟨h, -⟩ := angleSign_cases q <;> simp [h]

theorem angleSign_mul_self (q : Int) : (angleSign q : ℝ) * angleSign q = 1 := by
  rw [← abs_mul_abs_self, abs_angleSign, one_mul]

theorem abs_im_rotOf_sub_sin_le (hq : q.natAbs < 2 ^ 32) :
    |((rotOf q).im : ℝ) / 2 ^ trigBits - angleSign q * Real.sin (q / 2 ^ 16)| ≤ 1 / 2 ^ 80 := by
  have him := (Complex.abs_im_le_norm _).trans (norm_toComplex_rotOf_sub_le hq)
  rw [Complex.sub_im, Complex.exp_ofReal_mul_I_im] at him
  obtain ⟨h, hneg⟩ | ⟨h, hpos⟩ := angleSign_cases q
  · have hx : (q / 2 ^ 16 : ℝ) < 0 := div_neg_of_neg_of_pos (by exact_mod_cast hneg) (by positivity)
    rwa [abs_of_neg hx, Real.sin_neg, ← neg_one_mul, ← h] at him
  · have hx : 0 ≤ (q / 2 ^ 16 : ℝ) := div_nonneg (by exact_mod_cast hpos) (by positivity)
    rw [abs_of_nonneg hx] at him
    rwa [h, one_mul]

theorem abs_cosRn_sub_le (hq : q.natAbs < 2 ^ 32) : |(cosRn q : ℝ) - 2 ^ 16 * Real.cos (q / 2 ^ 16)| ≤ 1 := by
  refine abs_sub_le_one_of_rounded (abs_rnd_sub_div_le _ (by decide)) ?_ rfl (abs_re_rotOf_sub_cos_le hq) (by norm_num)
  norm_num [trigBits]
  ring

theorem abs_sinRn_sub_le (hq : q.natAbs < 2 ^ 32) : |(sinRn q : ℝ) - 2 ^ 16 * Real.sin (q / 2 ^ 16)| ≤ 1 := by
  have hsign := angleSign_mul_self q
  rw [sinRn, ite_neg_eq_angleSign_mul]
  refine abs_sub_le_one_of_rounded (c := angleSign q * 2 ^ 16) (abs_rnd_sub_div_le _ (by decide)) ?_ ?_
    (abs_im_rotOf_sub_sin_le hq) ?_
  · norm_num [trigBits]
    ring
  · linear_combination (-2 ^ 16 * Real.sin (q / 2 ^ 16)) * hsign
  · rw [abs_mul, abs_angleSign]
    norm_num

/-- Both quotients by the angle are a coordinate times 2^32 / |q|, up to a sign. -/
theorem abs_sign_mul_div_abs_le (h0 : q ≠ 0) {σ : ℝ} (hσ : |σ| = 1) : |(σ * 2 ^ 32 / |(q : ℝ)|)| ≤ 2 ^ 32 := by
  have hone : (1 : ℝ) ≤ |(q : ℝ)| := by exact_mod_cast Int.one_le_abs h0
  rw [abs_div, abs_mul, hσ, one_mul, abs_abs, abs_of_pos (by positivity)]
  exact div_le_self (by positivity) hone

/-- A quotient by the angle in terms of |q|, which is what the model divides by. -/
theorem mul_div_angle_eq (q : Int) (v : ℝ) : 2 ^ 16 * (v / (q / 2 ^ 16)) = angleSign q * 2 ^ 32 / |(q : ℝ)| * v := by
  obtain ⟨h, hneg⟩ | ⟨h, hpos⟩ := angleSign_cases q
  · rw [h, abs_of_neg (by exact_mod_cast hneg)]; ring
  · rw [h, abs_of_nonneg (by exact_mod_cast hpos)]; ring

theorem abs_sincRn_sub_le (hq : q.natAbs < 2 ^ 32) (h0 : q ≠ 0) :
    |(sincRn q : ℝ) - 2 ^ 16 * (Real.sin (q / 2 ^ 16) / (q / 2 ^ 16))| ≤ 1 := by
  have hpos := Int.natAbs_pos.mpr h0
  rw [sincRn, if_neg h0]
  refine abs_sub_le_one_of_rounded (abs_divr_sub_div_le _ (by positivity)) ?_ ?_ (abs_im_rotOf_sub_sin_le hq)
    (abs_sign_mul_div_abs_le h0 abs_one)
  · push_cast
    ring
  · rw [mul_div_angle_eq]
    ring

theorem verscRn_of_ne_zero (h0 : q ≠ 0) :
    verscRn q = divr (angleSign q * (2 ^ trigBits - (rotOf q).re) * 2 ^ 32) (q.natAbs * 2 ^ trigBits) := by
  rw [← ite_neg_eq_angleSign_mul]
  exact if_neg h0

theorem abs_verscRn_sub_le (hq : q.natAbs < 2 ^ 32) (h0 : q ≠ 0) :
    |(verscRn q : ℝ) - 2 ^ 16 * ((1 - Real.cos (q / 2 ^ 16)) / (q / 2 ^ 16))| ≤ 1 := by
  have hpos := Int.natAbs_pos.mpr h0
  have hre := abs_re_rotOf_sub_cos_le hq
  rw [abs_sub_comm, ← sub_sub_sub_cancel_left _ _ 1] at hre
  rw [verscRn_of_ne_zero h0]
  refine abs_sub_le_one_of_rounded (abs_divr_sub_div_le _ (by positivity)) ?_ (mul_div_angle_eq q _) hre
    (abs_sign_mul_div_abs_le h0 (abs_angleSign q))
  push_cast
  field_simp
  ring

/-- At angle 0 the rotation is none, exactly. -/
theorem trigRn_zero : sinRn 0 = 0 ∧ cosRn 0 = 65536 ∧ sincRn 0 = 65536 ∧ verscRn 0 = 0 := by
  have hrot : rotOf 0 = ⟨2 ^ trigBits, 0⟩ := Rot.pow_zero 32 Rot.unit
  rw [sinRn, cosRn, hrot]
  decide

/-- Settles O42: each function of the computed default is one rounding of a power of the unit rotation. -/
theorem computedDefaultTrigIsAccurate : Obligations.ComputedDefaultTrigIsAccurate := by
  intro c hdefault
  have hrange (q : Word) : q.toInt.natAbs < 2 ^ 32 := by
    have := BitVec.le_toInt q
    have := BitVec.toInt_lt (x := q)
    omega
  have hzero {q : Word} (h : q ≠ 0) : q.toInt ≠ 0 := fun h0 => h (BitVec.toInt_inj.mp h0)
  have hlookup (q : Word) : c.trig.lookup q = none := by rw [hdefault]; rfl
  constructor
  · intro q
    rw [fxSin, hlookup]
    exact abs_sinRn_sub_le (hrange q)
  · intro q
    rw [fxCos, hlookup]
    exact abs_cosRn_sub_le (hrange q)
  · intro q h
    rw [fxSinc, hlookup]
    exact abs_sincRn_sub_le (hrange q) (hzero h)
  · intro q h
    rw [fxVersc, hlookup]
    exact abs_verscRn_sub_le (hrange q) (hzero h)
  · rw [fxSin, fxCos, fxSinc, fxVersc, hlookup]
    exact trigRn_zero

end Sys2Proof.Machine
end

section
/-!
PROOFS. The pose operations (43_pose_integrator.md R287 to R297): what each answers from an idle state, as one whole state, and what
it leaves unchanged.
-/

namespace Sys2Proof.Machine

variable {s t : State}

/-! ### Words as integers (00_scope.md R13) -/

theorem fits32_toInt (w : Word) : fits32 w.toInt = true := by
  have := BitVec.le_toInt w
  have := BitVec.toInt_lt (x := w)
  rw [fits32, Bool.and_eq_true, decide_eq_true_iff, decide_eq_true_iff]
  omega

@[simp] theorem wrap32_toInt (w : Word) : wrap32 w.toInt = w := BitVec.ofInt_toInt

theorem toInt_wrap32 {v : Int} (h : fits32 v = true) : (wrap32 v).toInt = v := by
  rw [fits32, Bool.and_eq_true, decide_eq_true_iff, decide_eq_true_iff] at h
  obtain ⟨hlow, hhigh⟩ := h
  exact BitVec.toInt_ofInt_eq_self (by decide) hlow hhigh

theorem wrap32_toInt_add_toInt (v w : Word) : wrap32 (v.toInt + w.toInt) = v + w := by
  rw [wrap32, BitVec.ofInt_add, BitVec.ofInt_toInt, BitVec.ofInt_toInt]

/-! ### DYN_NORMALIZE (R287 to R289) -/

/-- The wrap heuristic is the difference of the samples modulo 65536. -/
theorem delta16_eq_toNat_sub (p n : BitVec 16) : delta16 p n = (n - p).toNat := by
  unfold delta16
  split <;> bv_omega

/-- Settles O35: DELTA16 is a 16-bit difference, so that it is in range. -/
theorem wrapHeuristicDelta : Obligations.WrapHeuristicDelta := by
  refine ⟨fun p n => ⟨?_, ?_, fun hle => if_pos hle, fun hlt => if_neg (not_le.mpr hlt)⟩, by decide⟩
  · rw [delta16_eq_toNat_sub]
    exact Int.natCast_nonneg _
  · have := (n - p).isLt
    rw [delta16_eq_toNat_sub]
    omega

theorem exec_dynNormalize (hc : s.cfg.wf = true) (hb : s.busy = false) :
    exec .dynNormalize s = .next (normalizeSample (s.acceptMark 0x30) (lowHalf s.arg0) (lowHalf s.arg1)) := by
  rw [exec, execDynNormalize, accept_idle hc hb]
  rfl

theorem normalizeSample_noPrior (h : s.priorValid = false) (l r : BitVec 16) :
    normalizeSample s l r = (s.loadPrior l r).raise .noPrior l.toNat r.toNat := by
  rw [normalizeSample, h]
  rfl

/-- Settles O34: the first sample raises NO_PRIOR, and a later one gives the scaled differences. -/
theorem dynNormalizeGivesWheelDistances : Obligations.DynNormalizeGivesWheelDistances := by
  refine ⟨by decide, fun s hc _ hb => ?_⟩
  intro newL newR rawL rawR dL dR
  rw [exec_dynNormalize hc hb]
  refine ⟨fun hprior => ?_, fun hprior => ?_⟩
  · rw [normalizeSample_noPrior (s := s.acceptMark 0x30) hprior]
    rfl
  · rw [normalizeSample, if_pos (show (s.acceptMark 0x30).priorValid = true from hprior)]
    simp only [delta16_eq_toNat_sub, scaleTicks, ← Bool.not_and]
    rfl

/-! ### DYN_UPDATE (R290 to R296) -/

theorem exec_dynUpdate (hc : s.cfg.wf = true) (hb : s.busy = false) :
    exec .dynUpdate s = .next (updatePose (s.acceptMark 0x31) s.arg0.toInt s.arg1.toInt s.arg2.toNat) := by
  rw [exec, execDynUpdate, accept_idle hc hb]
  rfl

theorem exec_dynUpdate_zeroTime (hc : s.cfg.wf = true) (hb : s.busy = false) (hdt : s.arg2 = 0) :
    exec .dynUpdate s = .next (failedAtAccept .dynUpdate s .zeroTime 0 0) := by
  rw [exec_dynUpdate hc hb, hdt]
  rfl

theorem exec_dynUpdate_motion (hc : s.cfg.wf = true) (hb : s.busy = false) (hdt : s.arg2 ≠ 0) :
    exec .dynUpdate s = .next (applyMotion (s.acceptMark 0x31) (motion s.cfg s.poseTh s.arg0.toInt s.arg1.toInt)) := by
  have hdt : s.arg2.toNat ≠ 0 := fun h => hdt (BitVec.toNat_eq.mpr h)
  rw [exec_dynUpdate hc hb, updatePose, if_neg hdt]
  rfl

/-- Settles O36: the two branches are the two motions, applied to the pose. -/
theorem dynUpdateMovesThePose : Obligations.DynUpdateMovesThePose := by
  refine ⟨by decide, fun s hc _ hb => ?_⟩
  intro dL dR cosTh sinTh moved
  have hmoved (m : Motion) : applyMotion (s.acceptMark 0x31) m = moved m.mx m.my m.phi m.overflow := by
    simp only [moved, Bool.or_assoc]
    rfl
  refine ⟨exec_dynUpdate_zeroTime hc hb, fun hdt heq => ?_, fun hdt hne => ?_⟩
  · rw [exec_dynUpdate_motion hc hb hdt, motion, if_pos heq, hmoved]
    rfl
  · rw [exec_dynUpdate_motion hc hb hdt, motion, if_neg hne, hmoved]
    rfl

/-! ### Standing still and spinning (R296) -/

theorem rnd_zero {k : Nat} : rnd 0 (k + 1) = 0 := by
  rw [rnd, zero_add]
  exact Int.ediv_eq_zero_of_lt (by positivity) (by gcongr <;> omega)

theorem motion_still (c : Config) (th : Word) : motion c th 0 0 = ⟨0, 0, 0, false⟩ := by
  rw [motion, if_pos rfl, translationMotion, zero_mul, zero_mul, rnd_zero]

/-- Opposite distances move no position, in either branch. -/
theorem motion_opposite (c : Config) (th : Word) {dL dR : Int} (h : dL = -dR) :
    (motion c th dL dR).mx = 0 ∧ (motion c th dL dR).my = 0 := by
  by_cases heq : dL = dR
  · obtain ⟨rfl, rfl⟩ : dL = 0 ∧ dR = 0 := by omega
    rw [motion_still]
    exact ⟨rfl, rfl⟩
  · have hsum : dL + dR = 0 := by omega
    rw [motion, if_neg heq]
    simp only [rotationMotion, hsum, zero_mul, rnd_zero, and_self]

/-- A motion of no distance and no turn changes nothing but STATUS and the results. -/
theorem applyMotion_still (s : State) :
    applyMotion s ⟨0, 0, 0, false⟩ = { s with res0 := 0, res1 := 0, res2 := 0 }.complete := by
  have hzero : (0 : Word).toInt = 0 := rfl
  have hwrap : wrap32 0 = 0 := rfl
  simp only [applyMotion, State.noteOverflow, State.setPose, hzero, hwrap, add_zero, fits32_toInt, wrap32_toInt, Bool.and_self,
    Bool.not_true, Bool.or_false]

/-- A motion that moves no position turns the heading alone. -/
theorem applyMotion_turn (s : State) {m : Motion} (hx : m.mx = 0) (hy : m.my = 0) :
    (applyMotion s m).poseX = s.poseX ∧ (applyMotion s m).poseY = s.poseY ∧
      (applyMotion s m).poseTh = s.poseTh + (applyMotion s m).res2 := by
  simp [applyMotion, hx, hy, wrap32_toInt_add_toInt]

/-- Settles O37: zero distances give the motion that is none, and opposite ones a turn alone. -/
theorem standstillAndSpinKeepThePosition : Obligations.StandstillAndSpinKeepThePosition := by
  intro s hc hb hdt
  rw [exec_dynUpdate_motion hc hb hdt]
  refine ⟨fun hL hR => ⟨_, rfl, ?_⟩, fun hopposite => ⟨_, rfl, ?_⟩⟩
  · have hzero : (0 : Word).toInt = 0 := rfl
    rw [hL, hR, hzero, motion_still, applyMotion_still]
    exact ⟨rfl, rfl, rfl, rfl, rfl, rfl, rfl, rfl, rfl⟩
  · obtain ⟨hmx, hmy⟩ := motion_opposite s.cfg s.poseTh hopposite
    obtain ⟨hx, hy, hth⟩ := applyMotion_turn (s.acceptMark 0x31) hmx hmy
    exact ⟨hx, hy, hth, rfl⟩

/-! ### What a pose operation leaves as it was -/

theorem normalizeSample_frame (s : State) (l r : BitVec 16) :
    normalizeSample s l r =
      let t := normalizeSample s l r
      { s with
        done := t.done, err := t.err, ecode := t.ecode, cur := t.cur, dstate := t.dstate, txpend := t.txpend
        ovf := t.ovf, marks := { s.marks with ovf := t.marks.ovf }
        res0 := t.res0, res1 := t.res1, res2 := t.res2, res3 := t.res3
        priorL := t.priorL, priorR := t.priorR, priorValid := t.priorValid } := by
  unfold normalizeSample
  split <;> rfl

theorem updatePose_frame (s : State) (dL dR : Int) (dt : Nat) :
    updatePose s dL dR dt =
      let t := updatePose s dL dR dt
      { s with
        done := t.done, err := t.err, ecode := t.ecode, cur := t.cur, dstate := t.dstate, txpend := t.txpend
        ovf := t.ovf, marks := { s.marks with ovf := t.marks.ovf }
        res0 := t.res0, res1 := t.res1, res2 := t.res2, poseX := t.poseX, poseY := t.poseY, poseTh := t.poseTh } := by
  unfold updatePose
  split <;> rfl

/-- A pose operation is dropped, or writes STATUS, RES, the pose, the prior sample and what is in flight alone. -/
theorem exec_pose_cases {i : Instr} (hi : isPose i = true) (h : exec i s = .next t) :
    (s.busy = true ∧ t = s.dropCommand) ∨
      t = { s with
        op := t.op, done := t.done, err := t.err, ecode := t.ecode, cur := t.cur, dstate := t.dstate, txpend := t.txpend
        ovf := t.ovf, marks := { s.marks with ovf := t.marks.ovf }
        res0 := t.res0, res1 := t.res1, res2 := t.res2, res3 := t.res3
        poseX := t.poseX, poseY := t.poseY, poseTh := t.poseTh
        priorL := t.priorL, priorR := t.priorR, priorValid := t.priorValid } := by
  cases i with
  | dynNormalize =>
    refine (execDynNormalize_next h).imp_right fun ⟨_, ht⟩ => ?_
    rw [ht, normalizeSample_frame]
    rfl
  | dynUpdate =>
    refine (execDynUpdate_next h).imp_right fun ⟨_, ht⟩ => ?_
    rw [ht, updatePose_frame]
    rfl
  | dynReset =>
    refine (execDynReset_next h).imp_right fun ⟨_, ht⟩ => ?_
    rw [ht]
    rfl
  | encDrive | encDrivePwm | encMotorsPwm | encDisplayAscii | encDefineSong | encLeds | encMotors | encButtons | encBaud
  | encQueryList | decDecode | regById | regByName | regBulkMember => cases hi

/-- Either way the rest of the state stays. -/
theorem exec_pose_frame {i : Instr} (hi : isPose i = true) (h : exec i s = .next t) :
    t = { s with
      op := t.op, done := t.done, err := t.err, ecode := t.ecode, ovr := t.ovr, ovf := t.ovf, cur := t.cur
      marks := { s.marks with ovr := t.marks.ovr, ovf := t.marks.ovf }, dstate := t.dstate, txpend := t.txpend
      res0 := t.res0, res1 := t.res1, res2 := t.res2, res3 := t.res3
      poseX := t.poseX, poseY := t.poseY, poseTh := t.poseTh
      priorL := t.priorL, priorR := t.priorR, priorValid := t.priorValid } := by
  obtain ⟨-, ht⟩ | ht := exec_pose_cases hi h
  · rw [ht]; rfl
  · rw [ht]

/-- Only a dropped operation sets OVR (60_exceptions.md R337). -/
theorem exec_pose_ovr_kept {i : Instr} (hi : isPose i = true) (h : exec i s = .next t) (hb : s.busy = false) :
    t.ovr = s.ovr ∧ t.marks.ovr = s.marks.ovr := by
  obtain ⟨hbusy, -⟩ | ht := exec_pose_cases hi h
  · cases hb.symm.trans hbusy
  · rw [ht]
    exact ⟨rfl, rfl⟩

theorem execDynNormalize_pose (h : execDynNormalize s = .next t) :
    t.poseX = s.poseX ∧ t.poseY = s.poseY ∧ t.poseTh = s.poseTh := by
  obtain ⟨-, ht⟩ | ⟨-, ht⟩ := execDynNormalize_next h
  · rw [ht]; exact ⟨rfl, rfl, rfl⟩
  · rw [ht, normalizeSample_frame]; exact ⟨rfl, rfl, rfl⟩

theorem execDynUpdate_prior_res3 (h : execDynUpdate s = .next t) :
    t.priorL = s.priorL ∧ t.priorR = s.priorR ∧ t.priorValid = s.priorValid ∧ t.res3 = s.res3 := by
  obtain ⟨-, ht⟩ | ⟨-, ht⟩ := execDynUpdate_next h
  · rw [ht]; exact ⟨rfl, rfl, rfl, rfl⟩
  · rw [ht, updatePose_frame]; exact ⟨rfl, rfl, rfl, rfl⟩

theorem execDynReset_prior_ovf_res (h : execDynReset s = .next t) :
    t.priorL = s.priorL ∧ t.priorR = s.priorR ∧ t.priorValid = s.priorValid ∧ t.ovf = s.ovf ∧
      t.marks.ovf = s.marks.ovf ∧ t.res0 = s.res0 ∧ t.res1 = s.res1 ∧ t.res2 = s.res2 ∧ t.res3 = s.res3 := by
  obtain ⟨-, ht⟩ | ⟨-, ht⟩ := execDynReset_next h
  · rw [ht]; exact ⟨rfl, rfl, rfl, rfl, rfl, rfl, rfl, rfl, rfl⟩
  · rw [ht]; exact ⟨rfl, rfl, rfl, rfl, rfl, rfl, rfl, rfl, rfl⟩

/-- Settles O39: what no pose operation writes, and what each of the three keeps besides. -/
theorem poseFrame : Obligations.PoseFrame := by
  intro i s t hi h
  have hovr := exec_pose_ovr_kept hi h
  have hnormalize : i = .dynNormalize → t.poseX = s.poseX ∧ t.poseY = s.poseY ∧ t.poseTh = s.poseTh := by
    rintro rfl
    exact execDynNormalize_pose h
  have hupdate : i = .dynUpdate →
      t.priorL = s.priorL ∧ t.priorR = s.priorR ∧ t.priorValid = s.priorValid ∧ t.res3 = s.res3 := by
    rintro rfl
    exact execDynUpdate_prior_res3 h
  have hreset : i = .dynReset → t.priorL = s.priorL ∧ t.priorR = s.priorR ∧ t.priorValid = s.priorValid ∧ t.ovf = s.ovf ∧
      t.marks.ovf = s.marks.ovf ∧ t.res0 = s.res0 ∧ t.res1 = s.res1 ∧ t.res2 = s.res2 ∧ t.res3 = s.res3 := by
    rintro rfl
    exact execDynReset_prior_ovf_res h
  rw [exec_pose_frame hi h]
  exact ⟨⟨rfl, rfl, rfl⟩, ⟨rfl, rfl, rfl, rfl, rfl⟩, ⟨rfl, rfl, rfl, rfl⟩, ⟨rfl, rfl⟩, rfl, rfl, hovr, ⟨rfl, rfl, rfl⟩, rfl,
    hnormalize, hupdate, hreset, fun _ => rfl⟩

end Sys2Proof.Machine
end

section
/-!
PROOFS. The wheel points (43_pose_integrator.md R282, R283): at the origin, where TRIG is exact in every legal configuration, and
at any pose, where they lie about the position at R_RAW times a vector close to a unit vector.
-/

namespace Sys2Proof.Machine

/-! ### At the origin (R297) -/

theorem lookup_zero_of_wf {c : Config} (hc : c.wf = true) {p : TrigPoint} (h : c.trig.lookup 0 = some p) :
    p = ⟨0, 65536, 65536, 0⟩ := by
  simp only [Config.wf, Config.trigOk, h, Bool.and_eq_true, decide_eq_true_eq] at hc
  obtain ⟨-, -, hexact⟩ := hc
  exact hexact

/-- R285's values at angle 0, whether listed or those of TRIG_RN. -/
theorem fxSin_fxCos_zero {c : Config} (hc : c.wf = true) : fxSin c 0 = 0 ∧ fxCos c 0 = 65536 := by
  unfold fxSin fxCos
  cases h : c.trig.lookup 0 with
  | none => exact ⟨trigRn_zero.1, trigRn_zero.2.1⟩
  | some p =>
    rw [lookup_zero_of_wf hc h]
    exact ⟨rfl, rfl⟩

theorem rnd_mul_65536 (v : Int) : rnd (v * 65536) 16 = v := by
  unfold rnd
  omega

theorem wheelPoints_origin {c : Config} (hc : c.wf = true) : wheelPoints c 0 0 0 = ⟨0, c.rRaw, 0, -c.rRaw⟩ := by
  obtain ⟨hsin, hcos⟩ := fxSin_fxCos_zero hc
  have hzero : (0 : Word).toInt = 0 := rfl
  have hR : wrap32 (rRawInt c) = c.rRaw := by
    rw [wrap32, rRawInt, BitVec.ofInt_natCast, BitVec.ofNat_toNat, BitVec.setWidth_eq]
  have hneg : wrap32 (-rRawInt c) = -c.rRaw := by
    rw [← hR]
    exact BitVec.ofInt_neg
  simp only [wheelPoints, hsin, hcos, hzero, mul_zero, rnd_zero, rnd_mul_65536, zero_add, zero_sub, hR, hneg, neg_zero]
  rfl

theorem exec_dynReset {s : State} (hc : s.cfg.wf = true) (hb : s.busy = false) :
    exec .dynReset s = .next ((s.acceptMark 0x32).setPose 0 0 0).complete := by
  rw [exec, execDynReset, accept_idle hc hb]
  rfl

/-- Settles O38: DYN_RESET writes the pose alone, and the wheel points of the origin are (0, R_RAW) and (0, -R_RAW). -/
theorem dynResetPutsThePoseAtTheOrigin : Obligations.DynResetPutsThePoseAtTheOrigin := by
  refine ⟨by decide, fun s hc hb => ?_⟩
  have hwheels : ((s.acceptMark 0x32).setPose 0 0 0).complete.wheels = ⟨0, s.cfg.rRaw, 0, -s.cfg.rRaw⟩ :=
    wheelPoints_origin hc
  refine ⟨_, exec_dynReset hc hb, rfl, ?_⟩
  simp only [readReg, hwheels, and_self]

/-! ### At any pose (R283) -/

/-- A half-axis coordinate: one rounding, and the error of TRIG times R_RAW. -/
theorem abs_rnd_mul_sub_le {R : Nat} {v : Int} {f : ℝ} (h : |(v : ℝ) - 2 ^ 16 * f| ≤ 1) :
    |(rnd (R * v) 16 : ℝ) - R * f| ≤ 1 / 2 + R / 2 ^ 16 := by
  have hround := abs_rnd_sub_div_le (R * v) (s := 16) (by decide)
  have htrig : |((R * v : Int) : ℝ) / 2 ^ 16 - R * f| ≤ (R : ℝ) / 2 ^ 16 := by
    have hscale : ((R * v : Int) : ℝ) / 2 ^ 16 - R * f = R / 2 ^ 16 * (v - 2 ^ 16 * f) := by
      push_cast
      ring
    rw [hscale, abs_mul, abs_of_nonneg (by positivity)]
    exact mul_le_of_le_one_right (by positivity) h
  exact (abs_sub_le _ _ _).trans (add_le_add hround htrig)

/-- A point near R times the unit vector (sin x, cos x) has a length near R. -/
theorem abs_sqrt_sub_le_of_near {p q R x e : ℝ} (hR : 0 ≤ R) (hp : |p - R * Real.sin x| ≤ e) (hq : |q - R * Real.cos x| ≤ e) :
    |Real.sqrt (p ^ 2 + q ^ 2) - R| ≤ 2 * e := by
  have hunit : ‖(⟨R * Real.sin x, R * Real.cos x⟩ : ℂ)‖ = R := by
    rw [Complex.norm_eq_sqrt_sq_add_sq, mul_pow, mul_pow, ← mul_add, Real.sin_sq_add_cos_sq, mul_one, Real.sqrt_sq hR]
  have hnear := norm_sub_le_of_coordinates (z := ⟨p, q⟩) (w := ⟨R * Real.sin x, R * Real.cos x⟩) hp hq
  have habs := (abs_norm_sub_norm_le _ _).trans hnear
  rwa [hunit, Complex.norm_eq_sqrt_sq_add_sq] at habs

/-- Settles O41: the wheel points are the position plus and minus one rounded half-axis, which is near R_RAW times a unit vector. -/
theorem wheelPointsKeepTheirDistance : Obligations.WheelPointsKeepTheirDistance := by
  intro s _ w px py hxa hxs hya hys
  have hwlX : w.wlX.toInt = s.poseX.toInt - px := toInt_wrap32 hxs
  have hwlY : w.wlY.toInt = s.poseY.toInt + py := toInt_wrap32 hya
  have hwrX : w.wrX.toInt = s.poseX.toInt + px := toInt_wrap32 hxa
  have hwrY : w.wrY.toInt = s.poseY.toInt - py := toInt_wrap32 hys
  refine ⟨by omega, by omega, fun hsin hcos => ?_⟩
  have hhalf : Real.sqrt (((w.wrX.toInt : ℝ) - w.wlX.toInt) ^ 2 + ((w.wrY.toInt : ℝ) - w.wlY.toInt) ^ 2) / 2
      = Real.sqrt ((px : ℝ) ^ 2 + (py : ℝ) ^ 2) := by
    have hsum : ((w.wrX.toInt : ℝ) - w.wlX.toInt) ^ 2 + ((w.wrY.toInt : ℝ) - w.wlY.toInt) ^ 2
        = 2 ^ 2 * ((px : ℝ) ^ 2 + (py : ℝ) ^ 2) := by
      rw [hwlX, hwlY, hwrX, hwrY]
      push_cast
      ring
    rw [hsum, Real.sqrt_mul (by positivity), Real.sqrt_sq (by positivity), mul_div_cancel_left₀ _ two_ne_zero]
  rw [hhalf]
  refine (abs_sqrt_sub_le_of_near (Nat.cast_nonneg _) (abs_rnd_mul_sub_le hsin) (abs_rnd_mul_sub_le hcos)).trans_eq ?_
  ring

end Sys2Proof.Machine
end

section
/-!
PROOFS. CMD writes that run no operation: an illegal word with nothing in flight (60_exceptions.md R336), and any word while
BUSY = 1 (R337).
-/

namespace Sys2Proof.Machine

variable {s : State} {w : Word}

/-! ### An illegal word (R336) -/

theorem writeCmd_illegal {e : DecodeError} (h : decodeWord w = .error e) : writeCmd w s = illegalCommand w s := by
  rw [writeCmd, h]

theorem illegalCommand_idle (hc : s.cfg.wf = true) (hb : s.busy = false) :
    illegalCommand w s = .next ((s.acceptMark (cmdOp w)).raise .illegalOp w.toNat 0) :=
  acceptOp_idle hc hb

/-- With nothing in flight (R56) there is nothing for `raise` (R332) to discard: only STATUS, RES0 and RES1 change. -/
theorem State.raise_of_idle (hinv : InFlightInv s) (hb : s.busy = false) (e : ECode) (i0 i1 : Nat) :
    s.raise e i0 i1 =
      { s with res0 := BitVec.ofNat 32 i0, res1 := BitVec.ofNat 32 i1, done := true, err := true, ecode := e } := by
  have hcur : s.cur = none := (State.busy_eq_false s).mp hb
  obtain ⟨hd, hx⟩ := hinv.nothing.mp hcur
  simp only [State.raise, hcur, hd, hx]

/-- The accept mark touches STATUS alone, so `raise` overwrites all of it but OP. -/
theorem State.raise_acceptMark (op : Byte) (e : ECode) (i0 i1 : Nat) :
    (s.acceptMark op).raise e i0 i1 = { s.raise e i0 i1 with op := op } := rfl

/-- Settles O4: the word is accepted and raises ILLEGAL_OP at once, and an idle PYRB has nothing for the raise to discard. -/
theorem illegalCommandCompletesAtOnce : Obligations.IllegalCommandCompletesAtOnce := by
  intro s w e hc hinv hb hw
  have hword : BitVec.ofNat 32 w.toNat = w := by rw [BitVec.ofNat_toNat, BitVec.setWidth_eq]
  calc writeReg s w .cmd
    _ = illegalCommand w s := writeCmd_illegal hw
    _ = .next ((s.acceptMark (cmdOp w)).raise .illegalOp w.toNat 0) := illegalCommand_idle hc hb
    _ = _ := by rw [State.raise_acceptMark, State.raise_of_idle hinv hb, hword]; rfl

/-! ### Any word while BUSY = 1 (R337) -/

theorem exec_busy (i : Instr) (hc : s.cfg.wf = true) (hb : s.busy = true) : exec i s = .next s.dropCommand := by
  obtain ⟨k, hk⟩ := exec_eq_accept i
  exact (hk s).trans (acceptOp_busy hc hb)

theorem writeCmd_busy (w : Word) (hc : s.cfg.wf = true) (hb : s.busy = true) : writeCmd w s = .next s.dropCommand := by
  cases hw : decodeWord w with
  | ok i => rw [writeCmd, hw]; exact exec_busy i hc hb
  | error e => exact (writeCmd_illegal hw).trans (acceptOp_busy hc hb)

/-- Settles O5: every operation and every illegal word goes through the accept, which drops it while BUSY = 1. -/
theorem busyCommandIsDropped : Obligations.BusyCommandIsDropped :=
  fun _ w hc hb => ⟨writeCmd_busy w hc hb, fun i => exec_busy i hc hb⟩

end Sys2Proof.Machine
end

section
/-!
PROOFS. The HOST's two duties (70_reset_and_hazards.md R375): what a CMD write while BUSY = 1 does (60_exceptions.md R337), and
that a HOST which keeps both duties makes none and reads no result while an operation is in flight.
-/

namespace Sys2Proof.Machine

variable {s t : State}

/-- The first duty is broken exactly by an accepted CMD write while BUSY = 1 (R366). -/
theorem writesNoCmdWhileBusy_eq_false :
    writesNoCmdWhileBusy s = false ↔ s.busy = true ∧ ∃ w, writesNext s .cmd = some w := by
  unfold writesNoCmdWhileBusy hostNext writesNext
  split
  · next a _ hturns htodo =>
    rw [hturns, htodo]
    cases a with
    | write addr bytes w => simp [writesCmd, and_comm]
    | read => simp [writesCmd]
    | wait => simp [writesCmd]
  · next hnot =>
    split
    · next hturns htodo => exact absurd htodo (hnot _ _ _ hturns)
    · simp

theorem keepsDuties_iff : keepsDuties s = true ↔ writesNoCmdWhileBusy s = true ∧ waitsForDone s = true :=
  Bool.and_eq_true_iff

/-- The step of an accepted HOST write is the write of its register (20_memory.md R84). -/
theorem writeReg_of_step {r : Reg} {w : Word} (hw : writesNext s r = some w) (h : step s = .next t) :
    s.cfg.wf = true ∧ ∃ ts as, writeReg { s with turns := ts, todo := as } w r = .next t := by
  unfold writesNext at hw
  split at hw
  · next ts addr bytes v as hturns htodo =>
    split at hw
    · next hacc =>
      cases hw
      simp only [Bool.and_eq_true, decide_eq_true_eq] at hacc
      obtain ⟨⟨hin, hok⟩, rfl⟩ := hacc
      obtain ⟨hnil, -⟩ | ⟨turn, rest, hcons, hc, ht⟩ := step_next h
      · rw [hturns] at hnil; cases hnil
      · rw [hturns] at hcons
        cases hcons
        refine ⟨hc, ts, as, ?_⟩
        simpa [runTurn, hostStep, htodo, hostWrite, hin, hok] using ht
    · cases hw
  · cases hw

/-- A step that breaks the first duty drops the command (R337). -/
theorem step_dropsCommand (hbroken : writesNoCmdWhileBusy s = false) (h : step s = .next t) :
    ∃ ts as, t = State.dropCommand { s with turns := ts, todo := as } := by
  obtain ⟨hb, w, hw⟩ := writesNoCmdWhileBusy_eq_false.mp hbroken
  obtain ⟨hc, ts, as, ht⟩ := writeReg_of_step hw h
  have hdrop := writeCmd_busy (s := { s with turns := ts, todo := as }) w hc hb
  exact ⟨ts, as, Host.Outcome.next.inj (ht.symm.trans hdrop)⟩

/-- Without a CMD write while BUSY = 1 nothing sets OVR or its mark (R35). -/
theorem FlagChanges.ovr_kept_of_duty (h : FlagChanges s t) (hduty : writesNoCmdWhileBusy s = true) :
    (s.ovr = false → t.ovr = false) ∧ t.marks.ovr = s.marks.ovr := by
  cases h.ovr with
  | kept hf hm => exact ⟨fun hs => hf.trans hs, hm⟩
  | set _ _ hevent => rw [writesNoCmdWhileBusy_eq_false.mpr hevent] at hduty; cases hduty
  | cleared hf hm _ => exact ⟨fun _ => hf, hm⟩

/-- With BUSY = 1 and DONE = 0, a HOST that keeps both duties neither writes CMD nor reads a result (93 I21). -/
theorem hostNext_of_keepsDuties (hduties : keepsDuties s = true) (hb : s.busy = true) (hdone : s.done = false)
    {a : HostAction} (ha : hostNext s = some a) : writesCmd s.cfg a = false ∧ readsResult s.cfg a = false := by
  obtain ⟨hfirst, hsecond⟩ := keepsDuties_iff.mp hduties
  exact ⟨by simpa [writesNoCmdWhileBusy, ha, hb] using hfirst, by simpa [waitsForDone, ha, hb, hdone] using hsecond⟩

/-- Settles O53: only a broken first duty sets OVR, and it drops the command; while BUSY = 1, STATUS has DONE = 0, so the duties
exclude both moves. -/
theorem dutiesPreventLostCommands : Obligations.DutiesPreventLostCommands := by
  intro s t hinv h
  refine ⟨fun hduties => ?_, fun hduties hb a ha => ?_, fun hbroken => ?_⟩
  · obtain ⟨hfirst, -⟩ := keepsDuties_iff.mp hduties
    exact (flagChanges_of_step h).ovr_kept_of_duty hfirst
  · obtain ⟨hdone, -⟩ := hinv.inFlightIsFresh hb
    exact hostNext_of_keepsDuties hduties hb hdone ha
  · obtain ⟨ts, as, rfl⟩ := step_dropsCommand hbroken h
    exact ⟨rfl, rfl, rfl, rfl, rfl, rfl, rfl, rfl, rfl⟩

end Sys2Proof.Machine
end

section
/-!
PROOFS. RST (70_reset_and_hazards.md R361, R362): what the window reads after it, and the reset state as the base case of the
invariants of Safety.
-/

namespace Sys2Proof.Machine

variable (s : State)

/-! ### The words of the reset state -/

theorem statusWord_reset : State.reset.statusWord = 0 := rfl

theorem frameInfoWord_reset : State.reset.frameInfoWord = 0 := rfl

theorem priorWord_reset : State.reset.priorWord = 0 := rfl

/-! ### What the window reads after RST -/

theorem readReg_rst_status : readReg (rst s) .status = .ok 0 := congrArg Except.ok statusWord_reset

theorem readReg_rst_frameInfo : readReg (rst s) .frameInfo = .ok 0 := congrArg Except.ok frameInfoWord_reset

theorem readReg_rst_prior : readReg (rst s) .prior = .ok 0 := congrArg Except.ok priorWord_reset

theorem readReg_rst_arg (k : Fin 3) : readReg (rst s) (.arg k) = .ok 0 := by fin_cases k <;> rfl

theorem readReg_rst_res (k : Fin 4) : readReg (rst s) (.res k) = .ok 0 := by fin_cases k <;> rfl

/-- With NAMELEN = 0 after RST, NBUF reads 0 (10_state.md R45). -/
theorem readReg_rst_nbuf (k : Fin 8) : readReg (rst s) (.nbuf k) = .ok 0 :=
  congrArg Except.ok (bufferWord_zero (nbufByte_of_nameLen_zero _ rfl) k.val)

/-- With VALID = 0 after RST, PBUF reads 0 (R47). -/
theorem readReg_rst_pbuf (k : Fin 64) : readReg (rst s) (.pbuf k) = .ok 0 :=
  congrArg Except.ok (bufferWord_zero (pbufByte_of_not_valid _ rfl) k.val)

/-- With VALID = 0 after RST, FBUF reads 0 (R48). -/
theorem readReg_rst_fbuf (k : Fin 256) : readReg (rst s) (.fbuf k) = .ok 0 :=
  congrArg Except.ok (fbufWord_of_not_valid rfl k.val)

/-- RST puts the pose at the origin (R361), where the wheel points are exact (43_pose_integrator.md R297). -/
theorem rst_wheels (hc : s.cfg.wf = true) : (rst s).wheels = ⟨0, s.cfg.rRaw, 0, -s.cfg.rRaw⟩ := wheelPoints_origin hc

theorem readReg_rst_wheels (hc : s.cfg.wf = true) :
    readReg (rst s) .wlX = .ok 0 ∧ readReg (rst s) .wlY = .ok s.cfg.rRaw ∧ readReg (rst s) .wrX = .ok 0 ∧
      readReg (rst s) .wrY = .ok (-s.cfg.rRaw) := by
  simp only [readReg, rst_wheels s hc, and_self]

/-- Settles O55: the step is `rst`, whose fields are those of the reset state or are kept; the status words, the wheel points and
the buffers are computed from them. -/
theorem rstPutsEveryRegisterToItsResetValue : Obligations.RstPutsEveryRegisterToItsResetValue := by
  intro s ts hc hturns
  let s' : State := { s with turns := ts }
  obtain ⟨hwlX, hwlY, hwrX, hwrY⟩ := readReg_rst_wheels s' hc
  exact ⟨rst s', step_turn hturns hc, readReg_rst_status s', rfl, rfl, rfl, rfl, rfl, rfl, rfl,
    readReg_rst_arg s', readReg_rst_res s', rfl, rfl, rfl, hwlX, hwlY, hwrX, hwrY, readReg_rst_prior s', readReg_rst_frameInfo s',
    rfl, readReg_rst_nbuf s', readReg_rst_pbuf s', readReg_rst_fbuf s', fun _ => rfl, rfl, rfl, rfl, rfl, rfl⟩

/-! ### The invariants at reset -/

theorem inFlightInv_reset : InFlightInv State.reset := (FlightPhase.idle rfl rfl rfl).inv

theorem statusInv_reset : StatusInv State.reset := statusInv_started ⟨nofun, nofun, nofun⟩ rfl rfl rfl nofun

theorem decoderInv_reset : DecoderInv State.reset := decoderInv_of_not_counting (.inl rfl) fun _ => ⟨rfl, rfl⟩

theorem storageInv_reset : StorageInv State.reset := ⟨rfl, Nat.zero_le _, nofun⟩

/-- Settles O56: in the reset state nothing is in flight, counted or stored, no flag is set, and TC is a legal configuration. -/
theorem resetStateMeetsTheInvariants : Obligations.ResetStateMeetsTheInvariants :=
  ⟨by decide, inFlightInv_reset, statusInv_reset, decoderInv_reset, storageInv_reset, statusWord_reset, frameInfoWord_reset,
    rfl, rfl⟩

end Sys2Proof.Machine
end
